-- ==== Sys2Proof/Word.lean ====
section
/-! DEFINITION. The word types of the xr16 (spec/00_scope.md R8, R9). -/

namespace Sys2Proof

/-- `Byte` (8 bits), R9. -/
abbrev Byte := BitVec 8

/-- `Word` (16 bits, unsigned, modulo 2^16), R9: registers, pc, addresses, instruction words. -/
abbrev Word := BitVec 16

/-- A register number 0..15, a 4-bit field of the instruction word (R81). -/
abbrev Reg := BitVec 4

/-- A physical address: as many bits as an MMU entry can name (60_exceptions R320, R321), of which PA_WIDTH count
(log 35). Without the MMU the top ten bits are 0. -/
abbrev PhysAddr := BitVec 26

end Sys2Proof
end

