-- ==== Sys2Proof/Syntax.lean ====
section
/-! DEFINITION. The 42 native instructions (spec/opcode_table.json, 30_encoding R96 to R99) and their
mnemonics, with the classes of mnemonics the spec names (00_scope R14, 10_state R27, R30, R31). -/

namespace Sys2Proof

/-- One constructor per row of spec/opcode_table.json. Fields are those of R81, as wide as the encoding has them. -/
inductive Instr where
  | add   (rd ra rb : Reg)
  | sub   (rd ra rb : Reg)
  | addi  (rd ra : Reg) (imm : BitVec 4)
  | and   (rd rb : Reg)
  | or    (rd rb : Reg)
  | xor   (rd rb : Reg)
  | andn  (rd rb : Reg)
  | adc   (rd rb : Reg)
  | sbc   (rd rb : Reg)
  | andi  (rd : Reg) (imm : BitVec 4)
  | ori   (rd : Reg) (imm : BitVec 4)
  | xori  (rd : Reg) (imm : BitVec 4)
  | andni (rd : Reg) (imm : BitVec 4)
  | adci  (rd : Reg) (imm : BitVec 4)
  | sbci  (rd : Reg) (imm : BitVec 4)
  | srli  (rd : Reg) (imm : BitVec 4)
  | srai  (rd : Reg) (imm : BitVec 4)
  | slli  (rd : Reg) (imm : BitVec 4)
  | srxi  (rd : Reg) (imm : BitVec 4)
  | slxi  (rd : Reg) (imm : BitVec 4)
  | lw    (rd ra : Reg) (imm : BitVec 4)
  | lb    (rd ra : Reg) (imm : BitVec 4)
  | sw    (rd ra : Reg) (imm : BitVec 4)
  | sb    (rd ra : Reg) (imm : BitVec 4)
  | jal   (rd ra : Reg) (imm : BitVec 4)
  | br    (disp : BitVec 8)
  | beq   (disp : BitVec 8)
  | bne   (disp : BitVec 8)
  | bc    (disp : BitVec 8)
  | bnc   (disp : BitVec 8)
  | bv    (disp : BitVec 8)
  | bnv   (disp : BitVec 8)
  | blt   (disp : BitVec 8)
  | bge   (disp : BitVec 8)
  | ble   (disp : BitVec 8)
  | bgt   (disp : BitVec 8)
  | bltu  (disp : BitVec 8)
  | bgeu  (disp : BitVec 8)
  | bleu  (disp : BitVec 8)
  | bgtu  (disp : BitVec 8)
  | call  (imm12 : BitVec 12)
  | imm   (imm12 : BitVec 12)
deriving DecidableEq, Repr

/-- The mnemonics, one a row of the opcode table; what `prev.kind` records (10_state R30). -/
inductive Mnemonic where
  | add | sub | addi | and | or | xor | andn | adc | sbc
  | andi | ori | xori | andni | adci | sbci
  | srli | srai | slli | srxi | slxi
  | lw | lb | sw | sb | jal
  | br | beq | bne | bc | bnc | bv | bnv | blt | bge | ble | bgt | bltu | bgeu | bleu | bgtu
  | call | imm
deriving DecidableEq, Repr

/-- The mnemonic of an instruction. -/
def Instr.mnemonic : Instr → Mnemonic
  | .add _ _ _ => .add
  | .sub _ _ _ => .sub
  | .addi _ _ _ => .addi
  | .and _ _ => .and
  | .or _ _ => .or
  | .xor _ _ => .xor
  | .andn _ _ => .andn
  | .adc _ _ => .adc
  | .sbc _ _ => .sbc
  | .andi _ _ => .andi
  | .ori _ _ => .ori
  | .xori _ _ => .xori
  | .andni _ _ => .andni
  | .adci _ _ => .adci
  | .sbci _ _ => .sbci
  | .srli _ _ => .srli
  | .srai _ _ => .srai
  | .slli _ _ => .slli
  | .srxi _ _ => .srxi
  | .slxi _ _ => .slxi
  | .lw _ _ _ => .lw
  | .lb _ _ _ => .lb
  | .sw _ _ _ => .sw
  | .sb _ _ _ => .sb
  | .jal _ _ _ => .jal
  | .br _ => .br
  | .beq _ => .beq
  | .bne _ => .bne
  | .bc _ => .bc
  | .bnc _ => .bnc
  | .bv _ => .bv
  | .bnv _ => .bnv
  | .blt _ => .blt
  | .bge _ => .bge
  | .ble _ => .ble
  | .bgt _ => .bgt
  | .bltu _ => .bltu
  | .bgeu _ => .bgeu
  | .bleu _ => .bleu
  | .bgtu _ => .bgtu
  | .call _ => .call
  | .imm _ => .imm

end Sys2Proof
end

