-- ==== Sys2Proof/Decode.lean ====
section
/-! DEFINITION. The decoder (spec/30_encoding.md R95 to R100), total on all words and on any bytes, and the
encoder (R81), written from the same tables. -/

namespace Sys2Proof

/-- Why a word is no instruction: the rows of R100, and a byte list too short to hold a word (the decoder's own). -/
inductive DecodeError where
  /-- 7xxx, Exxx, Fxxx. -/
  | reservedOpcode
  /-- 3x6x .. 3xFx. -/
  | reservedRegisterFunction
  /-- 4xBx .. 4xFx. -/
  | reservedImmediateFunction
  /-- B1xx. -/
  | reservedCondition
  /-- Fewer than two bytes. -/
  | tooFewBytes
deriving DecidableEq, Repr

/-- Bits 15:12. -/
def field3 (w : Word) : BitVec 4 := w.extractLsb' 12 4
/-- Bits 11:8: rd, or cond. -/
def field2 (w : Word) : BitVec 4 := w.extractLsb' 8 4
/-- Bits 7:4: ra, or fn. -/
def field1 (w : Word) : BitVec 4 := w.extractLsb' 4 4
/-- Bits 3:0: rb, or imm. -/
def field0 (w : Word) : BitVec 4 := w.extractLsb' 0 4
/-- Bits 7:0: disp. -/
def dispField (w : Word) : BitVec 8 := w.extractLsb' 0 8
/-- Bits 11:0: imm12. -/
def imm12Field (w : Word) : BitVec 12 := w.extractLsb' 0 12

/-- R97: the RR group, by function code. -/
def decodeRR (fn : BitVec 4) (rd rb : Reg) : Except DecodeError Instr :=
  match fn.toNat with
  | 0 => .ok (.and rd rb)
  | 1 => .ok (.or rd rb)
  | 2 => .ok (.xor rd rb)
  | 3 => .ok (.andn rd rb)
  | 4 => .ok (.adc rd rb)
  | 5 => .ok (.sbc rd rb)
  | _ => .error .reservedRegisterFunction

/-- R98: the RI group, by function code. -/
def decodeRI (fn : BitVec 4) (rd : Reg) (imm : BitVec 4) : Except DecodeError Instr :=
  match fn.toNat with
  | 0 => .ok (.andi rd imm)
  | 1 => .ok (.ori rd imm)
  | 2 => .ok (.xori rd imm)
  | 3 => .ok (.andni rd imm)
  | 4 => .ok (.adci rd imm)
  | 5 => .ok (.sbci rd imm)
  | 6 => .ok (.srli rd imm)
  | 7 => .ok (.srai rd imm)
  | 8 => .ok (.slli rd imm)
  | 9 => .ok (.srxi rd imm)
  | 10 => .ok (.slxi rd imm)
  | _ => .error .reservedImmediateFunction

/-- R99: the branch group, by condition. -/
def decodeBR (cond : BitVec 4) (disp : BitVec 8) : Except DecodeError Instr :=
  match cond.toNat with
  | 0 => .ok (.br disp)
  | 2 => .ok (.beq disp)
  | 3 => .ok (.bne disp)
  | 4 => .ok (.bc disp)
  | 5 => .ok (.bnc disp)
  | 6 => .ok (.bv disp)
  | 7 => .ok (.bnv disp)
  | 8 => .ok (.blt disp)
  | 9 => .ok (.bge disp)
  | 10 => .ok (.ble disp)
  | 11 => .ok (.bgt disp)
  | 12 => .ok (.bltu disp)
  | 13 => .ok (.bgeu disp)
  | 14 => .ok (.bleu disp)
  | 15 => .ok (.bgtu disp)
  | _ => .error .reservedCondition

/-- R95: the decoding procedure, on the major opcode of R96. -/
def decodeWord (w : Word) : Except DecodeError Instr :=
  match (field3 w).toNat with
  | 0 => .ok (.add (field2 w) (field1 w) (field0 w))
  | 1 => .ok (.sub (field2 w) (field1 w) (field0 w))
  | 2 => .ok (.addi (field2 w) (field1 w) (field0 w))
  | 3 => decodeRR (field1 w) (field2 w) (field0 w)
  | 4 => decodeRI (field1 w) (field2 w) (field0 w)
  | 5 => .ok (.lw (field2 w) (field1 w) (field0 w))
  | 6 => .ok (.lb (field2 w) (field1 w) (field0 w))
  | 8 => .ok (.sw (field2 w) (field1 w) (field0 w))
  | 9 => .ok (.sb (field2 w) (field1 w) (field0 w))
  | 10 => .ok (.jal (field2 w) (field1 w) (field0 w))
  | 11 => decodeBR (field2 w) (dispField w)
  | 12 => .ok (.call (imm12Field w))
  | 13 => .ok (.imm (imm12Field w))
  | _ => .error .reservedOpcode

/-- Two bytes of memory as an instruction word, big endian (R80: bit 15 is the most significant bit of the byte
at the lower address). -/
def wordOfBytes (hi lo : Byte) : Word := hi ++ lo

/-- The byte of a word at the lower address. -/
def highByte (w : Word) : Byte := w.extractLsb' 8 8

/-- The byte of a word at the higher address. -/
def lowByte (w : Word) : Byte := w.extractLsb' 0 8

/-- The decoder on any bytes: the instruction and the bytes after it. -/
def decode : List Byte → Except DecodeError (Instr × List Byte)
  | hi :: lo :: rest =>
    match decodeWord (wordOfBytes hi lo) with
    | .ok i => .ok (i, rest)
    | .error e => .error e
  | [_] => .error .tooFewBytes
  | [] => .error .tooFewBytes

/-- Four nibbles, most significant first (R81). -/
def nibbles (d c b a : BitVec 4) : Word := d ++ c ++ b ++ a

/-- The BR format (R81): 1011, cond, disp. -/
def encodeBR (cond : BitVec 4) (disp : BitVec 8) : Word := 0xB#4 ++ cond ++ disp

/-- The I12 format (R81). -/
def encodeI12 (op : BitVec 4) (imm12 : BitVec 12) : Word := op ++ imm12

/-- The word of an instruction (R81, R96 to R99, and each instruction's own "Encoding"). -/
def encode : Instr → Word
  | .add rd ra rb => nibbles 0x0 rd ra rb
  | .sub rd ra rb => nibbles 0x1 rd ra rb
  | .addi rd ra imm => nibbles 0x2 rd ra imm
  | .and rd rb => nibbles 0x3 rd 0x0 rb
  | .or rd rb => nibbles 0x3 rd 0x1 rb
  | .xor rd rb => nibbles 0x3 rd 0x2 rb
  | .andn rd rb => nibbles 0x3 rd 0x3 rb
  | .adc rd rb => nibbles 0x3 rd 0x4 rb
  | .sbc rd rb => nibbles 0x3 rd 0x5 rb
  | .andi rd imm => nibbles 0x4 rd 0x0 imm
  | .ori rd imm => nibbles 0x4 rd 0x1 imm
  | .xori rd imm => nibbles 0x4 rd 0x2 imm
  | .andni rd imm => nibbles 0x4 rd 0x3 imm
  | .adci rd imm => nibbles 0x4 rd 0x4 imm
  | .sbci rd imm => nibbles 0x4 rd 0x5 imm
  | .srli rd imm => nibbles 0x4 rd 0x6 imm
  | .srai rd imm => nibbles 0x4 rd 0x7 imm
  | .slli rd imm => nibbles 0x4 rd 0x8 imm
  | .srxi rd imm => nibbles 0x4 rd 0x9 imm
  | .slxi rd imm => nibbles 0x4 rd 0xA imm
  | .lw rd ra imm => nibbles 0x5 rd ra imm
  | .lb rd ra imm => nibbles 0x6 rd ra imm
  | .sw rd ra imm => nibbles 0x8 rd ra imm
  | .sb rd ra imm => nibbles 0x9 rd ra imm
  | .jal rd ra imm => nibbles 0xA rd ra imm
  | .br disp => encodeBR 0x0 disp
  | .beq disp => encodeBR 0x2 disp
  | .bne disp => encodeBR 0x3 disp
  | .bc disp => encodeBR 0x4 disp
  | .bnc disp => encodeBR 0x5 disp
  | .bv disp => encodeBR 0x6 disp
  | .bnv disp => encodeBR 0x7 disp
  | .blt disp => encodeBR 0x8 disp
  | .bge disp => encodeBR 0x9 disp
  | .ble disp => encodeBR 0xA disp
  | .bgt disp => encodeBR 0xB disp
  | .bltu disp => encodeBR 0xC disp
  | .bgeu disp => encodeBR 0xD disp
  | .bleu disp => encodeBR 0xE disp
  | .bgtu disp => encodeBR 0xF disp
  | .call imm12 => encodeI12 0xC imm12
  | .imm imm12 => encodeI12 0xD imm12

/-- The bytes of an instruction in memory order (R80). -/
def encodeBytes (i : Instr) : List Byte := [highByte (encode i), lowByte (encode i)]

/-- A 16-bit word numbered as the opcode table numbers it (bit 0 the least significant of the one word), cut to
the row's bits. -/
def tableWord (nbits w : Nat) : Word := BitVec.ofNat 16 (w % 2 ^ nbits)

/-- What this decoder reads from the instruction whose table bits are `w`: its bytes are laid out big endian. -/
def decodeTableWord (nbits w : Nat) : Option Instr :=
  match decode [highByte (tableWord nbits w), lowByte (tableWord nbits w)] with
  | .ok (i, _) => some i
  | .error _ => none

end Sys2Proof
end

