-- ==== Sys2Proof/Config.lean ====
section
/-! DEFINITION. What an implementation fixes: the parameters of spec/00_scope.md R7 as plain data, and the free
values, constants with no body about which nothing can be proved. -/

namespace Sys2Proof.Machine

/-- A run of byte addresses: `size` bytes from `base`. -/
structure Region where
  base : Nat
  size : Nat
deriving DecidableEq, Repr

/-- The platform parameters of R7 (log 1). The step reads them and never writes them. -/
structure Platform where
  /-- MEM_POPULATED: the byte addresses backed by memory (20_memory R62, D12). DESIGN CHOICE (log 36): with the
  MMU they are physical addresses. -/
  populated : List Region
  /-- IO_BASE (20_memory R60): a virtual address. -/
  ioBase : Nat
  /-- IO_SIZE (20_memory R60), in bytes. -/
  ioSize : Nat
  /-- Whether the environment supplies a device function for I/O space (60_exceptions R316, D12). -/
  ioDevice : Bool
  /-- MMU_PRESENT (60_exceptions R320, D16). -/
  mmuPresent : Bool
  /-- PA_WIDTH (R7): the physical address width with the MMU, in bits (log 35). -/
  paWidth : Nat
deriving DecidableEq, Repr

/-- DESIGN CHOICE (log 1): the spec's suggested default (D12, D16): 0x0000..0xFEFF populated, I/O space at
0xFF00 with no device, no MMU; PA_WIDTH is R7's 26 bits. -/
def Platform.default : Platform where
  populated := [⟨0x0000, 0xFF00⟩]
  ioBase := 0xFF00
  ioSize := 256
  ioDevice := false
  mmuPresent := false
  paWidth := 26

/-- How wide a memory access is (20_memory R56). -/
inductive Width where
  | byte
  | word
deriving DecidableEq, Repr

/-- One access to a device, as the device sees it (20_memory R57, R63). -/
inductive IoAccess where
  | read (addr : Word) (width : Width)
  | write (addr : Word) (width : Width) (value : Word)
deriving DecidableEq, Repr

/-- Free value (log 16): what the undescribed device function answers to a read at `addr`, given every earlier
access, newest first (U17). A byte read takes bits 7:0. -/
opaque Config.deviceRead : List IoAccess → Word → Width → Word

/-- Free value (log 20): whether the fetch right after a store to an MMU entry sees the new entry
(60_exceptions R323); the argument is a fresh counter value. -/
opaque Config.fetchSeesNewEntry : Nat → Bool

/-- Free value (log 21): the MMU entry after a byte store to half of it (60_exceptions R323): a fresh counter
value, the old entry, which byte (true: the one at the odd address), the byte stored. -/
opaque Config.mmuByteWrite : Nat → Word → Bool → Byte → Word

end Sys2Proof.Machine
end

