-- ==== Sys2Proof/Machine/State.lean ====
section
/-! DEFINITION. The state of the machine (spec/10_state.md), plain data, its reset value (R38), and the reasons a
step can stop. -/

namespace Sys2Proof.Machine

/-- Memory as (address, byte) pairs; the canonical form is `Memory.wf` (Machine/Ops.lean). -/
abbrev Memory := List Host.Cell

/-- `prev.kind` (10_state R30): none (after reset), the mnemonic executed last, or an interrupt entry. -/
inductive PrevKind where
  | none
  | instr (m : Mnemonic)
  | int
deriving DecidableEq, Repr

/-- The record of the previous event (10_state R30). `dests` is a set held as a list without repeats. -/
structure Prev where
  kind : PrevKind
  dests : List Reg
deriving DecidableEq, Repr

/-- Everything the spec gives the machine. Registers and pc are read and written through the accessors of
Machine/Ops.lean, where r0 and bit 0 of pc are hard-wired. -/
structure State where
  /-- Program counter, R20. -/
  pc : Word
  /-- r0..r15, R22. -/
  regs : Vector Word 16
  /-- Memory, R36; keys are physical byte addresses. -/
  mem : Memory
  /-- A operand of the last branch prefix, R26. -/
  a : Word
  /-- B operand "as if add", R26. -/
  b : Word
  /-- Carry or borrow of the last carry producer, R27. -/
  carryOut : Bool
  /-- Whether `carryOut` may be read, R27. -/
  carryValid : Bool
  /-- Bit shifted out by the last shift, R28. -/
  shiftOut : Bool
  /-- Pending immediate prefix, R29. -/
  hasImmPrefix : Bool
  /-- Its 12 bits, R29. -/
  immPrefix : BitVec 12
  /-- "interrupt can occur after instruction", R31. -/
  canInterrupt : Bool
  /-- A request is held, R32. -/
  interruptPending : Bool
  /-- The previous event, R30. -/
  prev : Prev
  /-- The word at pc was stored to by one of the two preceding sequential instructions (20_memory R66, log 13). -/
  staleNext : Bool
  /-- The same for the word at pc + 2 (log 13). -/
  staleSecond : Bool
  /-- `Word mmu[16]` of the optional MMU (60_exceptions R320). -/
  mmu : Vector Word 16
  /-- The MMU entry the last instruction stored to, with its old value (60_exceptions R323, log 20). -/
  mmuChange : Option (BitVec 4 × Word)
  /-- The model's own: the parameters of 00_scope R7, never written by a step (log 1). -/
  platform : Platform
  /-- The model's own: INT_REQUEST, one Bool for each coming step boundary, no request once it is empty (log 14). -/
  intRequests : List Bool
  /-- The model's own: the accesses the devices have seen, newest first (log 16). -/
  ioLog : List IoAccess
  /-- The model's own: the counter that free values are drawn with (log 30). -/
  freeCount : Nat
deriving DecidableEq, Repr

/-- Why the machine stops: the spec's `raise Undefined(reason)` (00_scope R10, 70_reset R351). The spec gives no
successor state to any of them (92 D7), so each is SAFE: nothing can be proved of what follows. -/
inductive Fault where
  /-- `rb` is the result of the previous instruction (R350, U1); raised by add, sub, and, or, xor, andn, adc, sbc. Safe. -/
  | rbHazard
  /-- The store data register is the result of the previous instruction (R350, U2); raised by sw, sb. Safe. -/
  | storeDataHazard
  /-- A conditional branch not right after a branch prefix (R181, U3). Safe. -/
  | noBranchPrefix
  /-- A shift whose immediate is not 1 (R152, U4). Safe. -/
  | shiftCountNotOne
  /-- slxi or srxi not right after a shift (R151, U5). Safe. -/
  | noShiftBefore
  /-- adc, adci, sbc or sbci with no valid carry (R123, U6). Safe. -/
  | noCarryProducer
  /-- A word that is no instruction (R100, U7); raised by the step. Safe. -/
  | reservedEncoding
  /-- lw or sw at an odd address (R55, U8). Safe. -/
  | misalignedWord
  /-- Fetch, load or store outside MEM_POPULATED with no device, I/O space with none among it (R58, R62, R316, U10).
  Safe. -/
  | unpopulatedAddress
  /-- Sequential execution into a word stored to by one of the two preceding instructions (R66, U11); raised by
  the fetch. Safe. -/
  | staleFetch
deriving DecidableEq, Repr

/-- Why the model gives no meaning. -/
inductive Refusal where
  /-- An instruction of the table without a meaning yet; raised by no arm of this model. Safe. -/
  | notModelled (mnemonic : String)
deriving DecidableEq, Repr

/-- The outcome of an instruction or of a step. -/
abbrev Result := Host.Outcome State Fault Refusal

/-- The state after reset (R38, R340) on a platform whose loader or ROM has put `image` into memory (R341).
pc, has_imm_prefix, interrupt_pending, carry_valid and prev are R38's; the registers and the rest of the
invisible state have no reset value in the spec and are DESIGN CHOICES (logs 3, 4, 13, 14, 16, 19, 20, 30). -/
def State.resetWith (platform : Platform) (image : Memory) : State where
  pc := 0x0000
  regs := Vector.replicate 16 0x0000
  mem := image
  a := 0x0000
  b := 0x0000
  carryOut := false
  carryValid := false
  shiftOut := false
  hasImmPrefix := false
  immPrefix := 0x000
  canInterrupt := true
  interruptPending := false
  prev := ⟨.none, []⟩
  staleNext := false
  staleSecond := false
  mmu := Vector.replicate 16 0x0000
  mmuChange := .none
  platform := platform
  intRequests := []
  ioLog := []
  freeCount := 0

/-- The machine right after reset, on the default platform (log 1) with nothing loaded (log 2). -/
def State.reset : State := State.resetWith Platform.default []

end Sys2Proof.Machine
end

