-- ==== Sys2Proof/Machine/Flags.lean ====
section
/-! DEFINITION. Carry, overflow, borrow and the branch conditions (spec/40_arithmetic.md R111 to R113,
44_branch.md R182 to R195), and the classes of previous events (10_state.md R27, R30, R31). -/

namespace Sys2Proof.Machine

/-- A one-bit value as a number. -/
def bitNat (c : Bool) : Nat := if c then 1 else 0

/-- A one-bit value as a word. -/
def bitWord (c : Bool) : Word := if c then 1#16 else 0#16

/-- R111: carry out of bit 15 of the unsigned sum. -/
def carrySum (p q : Word) (c : Bool) : Bool := decide (2 ^ 16 ≤ p.toNat + q.toNat + bitNat c)

/-- R112: signed overflow of the sum. -/
def overflowSum (p q : Word) : Bool :=
  decide (p.toInt + q.toInt < -32768) || decide (32767 < p.toInt + q.toInt)

/-- R113: the borrow of the difference, p - q - c < 0. -/
def borrow (p q : Word) (c : Bool) : Bool := decide (p.toNat < q.toNat + bitNat c)

/-- The fourteen branch conditions. -/
inductive Cond where
  | eq | ne | c | nc | v | nv | lt | ge | le | gt | ltu | geu | leu | gtu
deriving DecidableEq, Repr

/-- R182 to R195: whether the condition holds of the branch prefix's operands. -/
def Cond.holds (cond : Cond) (a b : Word) : Bool :=
  match cond with
  | .eq => decide (a = -b)
  | .ne => decide (a ≠ -b)
  | .c => carrySum a b false
  | .nc => !carrySum a b false
  | .v => overflowSum a b
  | .nv => !overflowSum a b
  | .lt => decide (a.toInt < (-b).toInt)
  | .ge => decide ((-b).toInt ≤ a.toInt)
  | .le => decide (a.toInt ≤ (-b).toInt)
  | .gt => decide ((-b).toInt < a.toInt)
  | .ltu => decide (a.toNat < (-b).toNat)
  | .geu => decide ((-b).toNat ≤ a.toNat)
  | .leu => decide (a.toNat ≤ (-b).toNat)
  | .gtu => decide ((-b).toNat < a.toNat)

/-- Carry producers (00_scope R14, D1): add, addi, sub, adc, adci, sbc, sbci. -/
def carryProducers : List Mnemonic := [.add, .addi, .sub, .adc, .adci, .sbc, .sbci]

/-- Branch prefixes (00_scope R14, D4). -/
def branchPrefixes : List Mnemonic := [.add, .sub, .addi, .adc, .adci, .sbc, .sbci]

/-- Shift instructions (00_scope R14, D4). -/
def shiftMnemonics : List Mnemonic := [.srli, .srai, .slli, .srxi, .slxi]

/-- Interlocked instructions (00_scope R14, 60_exceptions R303). -/
def interlockedMnemonics : List Mnemonic := [.add, .sub, .addi, .adc, .adci, .sbc, .sbci, .imm]

/-- `prev_is_branch_prefix` (R30). -/
def PrevKind.isBranchPrefix : PrevKind → Bool
  | .instr m => branchPrefixes.contains m
  | .none => false
  | .int => false

/-- `prev_is_shift` (R30). -/
def PrevKind.isShift : PrevKind → Bool
  | .instr m => shiftMnemonics.contains m
  | .none => false
  | .int => false

end Sys2Proof.Machine
end

