-- ==== Sys2Proof/Machine/Ops.lean ====
section
/-! DEFINITION. The named operations over memory, registers and the invisible state: the only readers and
writers the meanings use. Taking an interrupt, the one exception of the xr16, and returning from it are here. -/

namespace Sys2Proof.Machine

/-! ### Memory cells -/

/-- What a byte of memory that nothing has written reads as. DESIGN CHOICE (log 2): the spec gives RAM no
contents at reset (10_state R38). -/
def Memory.unlisted : Byte := 0x00#8

/-- Canonical form: addresses strictly rising, no entry equal to an unlisted byte. -/
def Memory.wf : Memory → Bool
  | [] => true
  | (k, v) :: m => decide (v ≠ Memory.unlisted) && m.all (fun c => decide (k < c.1)) && Memory.wf m

/-- The byte at a physical address. -/
def Memory.read : Memory → Nat → Byte
  | [], _ => Memory.unlisted
  | (k, v) :: m, x => if k = x then v else Memory.read m x

/-- Memory with one byte changed, in canonical form again. -/
def Memory.write : Memory → Nat → Byte → Memory
  | [], x, v => if v = Memory.unlisted then [] else [(x, v)]
  | (k, u) :: m, x, v =>
    if x < k then (if v = Memory.unlisted then (k, u) :: m else (x, v) :: (k, u) :: m)
    else if x = k then (if v = Memory.unlisted then m else (x, v) :: m)
    else (k, u) :: Memory.write m x v

/-! ### Registers and pc -/

/-- `x[i]` (00_scope R10): r0 always reads 0 (10_state R22). -/
def State.readReg (s : State) (r : Reg) : Word := if r = 0#4 then 0#16 else s.regs.get r.toFin

/-- `x[i] <- v` (00_scope R10): writes to r0 are ignored (10_state R22). -/
def State.writeReg (s : State) (r : Reg) (v : Word) : State :=
  if r = 0#4 then s else { s with regs := s.regs.set r.toNat v r.isLt }

/-- A word with bit 0 cleared: pc0 "is hardwired to 0" (10_state R20). -/
def evenWord (v : Word) : Word := v &&& 0xFFFE#16

/-- `pc`, read (10_state R20, log 26). -/
def State.readPc (s : State) : Word := evenWord s.pc

/-- `pc <- v` (10_state R20, log 26). -/
def State.writePc (s : State) (v : Word) : State := { s with pc := evenWord v }

/-! ### The operation prefix and the bookkeeping of a completed instruction -/

/-- `PRE` (30_encoding R90): pc + 2, has_imm_prefix cleared, can_interrupt set. With it the code window of
20_memory R66 moves on by one word, and an MMU entry stored to by the instruction before is settled. -/
def State.pre (s : State) : State :=
  { s.writePc (s.readPc + 2#16) with
    hasImmPrefix := false
    canInterrupt := true
    staleNext := s.staleSecond
    staleSecond := false
    mmuChange := none }

/-- A control transfer: pc is replaced, and every store made before is visible to the fetch (20_memory R66). -/
def State.jumpTo (s : State) (target : Word) : State :=
  { s.writePc target with staleNext := false, staleSecond := false }

/-- The registers an instruction that writes `dest` leaves in `prev.dests` (10_state R30): a write to r0 is no
result (D5). -/
def destSet : Option Reg → List Reg
  | none => []
  | some r => if r = 0#4 then [] else [r]

/-- Step 4 of 00_scope R12, the adjacency bookkeeping of 10_state R30: `prev` and `carry_valid`. -/
def State.retire (s : State) (m : Mnemonic) (dest : Option Reg) : State :=
  { s with
    prev := ⟨.instr m, destSet dest⟩
    carryValid := if carryProducers.contains m then true else if m = .imm then s.carryValid else false }

/-! ### Guards: the spec's `raise Undefined` -/

/-- R350: `if rb ∈ prev.dests then raise Undefined(rb hazard)`. -/
def State.guardRb (s : State) (rb : Reg) (k : Result) : Result :=
  if rb ∈ s.prev.dests then .fault .rbHazard else k

/-- R350: `if rd ∈ prev.dests then raise Undefined(store data hazard)`. -/
def State.guardStoreData (s : State) (rd : Reg) (k : Result) : Result :=
  if rd ∈ s.prev.dests then .fault .storeDataHazard else k

/-- R123: `if not carry_valid then raise Undefined(no carry producer)`. -/
def State.guardCarry (s : State) (k : Result) : Result :=
  if s.carryValid then k else .fault .noCarryProducer

/-- R181: `if not prev_is_branch_prefix then raise Undefined(no branch prefix)`. -/
def State.guardBranchPrefix (s : State) (k : Result) : Result :=
  if s.prev.kind.isBranchPrefix then k else .fault .noBranchPrefix

/-- R152: `if immed ≠ 0x0001 then raise Undefined(shift count not 1)`. -/
def guardCount (immed : Word) (k : Result) : Result :=
  if immed = 0x0001#16 then k else .fault .shiftCountNotOne

/-- R151: `if not prev_is_shift then raise Undefined(no shift before extended shift)`. -/
def State.guardShift (s : State) (k : Result) : Result :=
  if s.prev.kind.isShift then k else .fault .noShiftBefore

/-- R55: `if ea[0] = 1 then raise Undefined(misaligned word access)`. -/
def guardAligned (ea : Word) (k : Result) : Result :=
  if ea.getLsbD 0 then .fault .misalignedWord else k

/-! ### Addresses: I/O space, translation, populated memory -/

/-- Where an access goes. -/
inductive Location where
  /-- Memory, at a physical byte address. -/
  | memory (pa : PhysAddr)
  /-- The MMU's registers, at a byte offset 0..31 (60_exceptions R320). -/
  | mmuReg (offset : BitVec 5)
  /-- A device, at a virtual address (20_memory R60). -/
  | device (va : Word)
  /-- I/O space with no device function: outside MEM_POPULATED (60_exceptions R316), whatever the map says. -/
  | absent (va : Word)
deriving DecidableEq, Repr

/-- Whether a virtual address lies in I/O space (20_memory R60). -/
def Platform.inIo (p : Platform) (va : Word) : Bool :=
  decide (p.ioBase ≤ va.toNat) && decide (va.toNat < p.ioBase + p.ioSize)

/-- Whether a byte address is in MEM_POPULATED (20_memory R62). DESIGN CHOICE (log 36): with the MMU the addresses
of MEM_POPULATED, as the keys of memory, are physical; the spec does not say how a physical address meets it (N34). -/
def Platform.isPopulated (p : Platform) (pa : PhysAddr) : Bool :=
  p.populated.any fun r => decide (r.base ≤ pa.toNat) && decide (pa.toNat < r.base + r.size)

/-- The page of a virtual address, VA[15:12]. -/
def pageOf (va : Word) : BitVec 4 := va.extractLsb' 12 4

/-- PA[25:12] <- e[13:0], PA[11:0] <- VA[11:0] (60_exceptions R321). -/
def translate (entry va : Word) : PhysAddr := entry.extractLsb' 0 14 ++ va.extractLsb' 0 12

/-- The low PA_WIDTH bits of a translated address (00_scope R7). DESIGN CHOICE (log 35): the spec gives 26, where
this changes nothing, and does not say what a narrower space makes of the bits above it. -/
def Platform.physical (p : Platform) (pa : PhysAddr) : PhysAddr := BitVec.ofNat 26 (pa.toNat % 2 ^ p.paWidth)

/-- Where a virtual address goes, under the MMU entries `mmu`. I/O space is decided first and is not translated
(60_exceptions R323); I/O space with no device is outside MEM_POPULATED (R316, D12). Without the MMU, virtual =
physical (20_memory R50). DESIGN CHOICE (log 34): the MMU's own 32 bytes, 0xFF00..0xFF1F in R320, are the first 32
of I/O space wherever IO_BASE puts it. -/
def Platform.locate (p : Platform) (mmu : Vector Word 16) (va : Word) : Location :=
  if p.inIo va then
    if p.mmuPresent && decide (va.toNat < p.ioBase + 32) then
      .mmuReg ((va - BitVec.ofNat 16 p.ioBase).extractLsb' 0 5)
    else if p.ioDevice then .device va
    else .absent va
  else if p.mmuPresent then .memory (p.physical (translate (mmu.get (pageOf va).toFin) va))
  else .memory (va.setWidth 26)

/-- Where a load or store of this state goes. -/
def State.locate (s : State) (va : Word) : Location := s.platform.locate s.mmu va

/-- Whether a store takes effect (60_exceptions R322, R323): entry bit 15, outside I/O space, with the MMU. -/
def State.writable (s : State) (va : Word) : Bool :=
  !s.platform.mmuPresent || s.platform.inIo va || (s.mmu.get (pageOf va).toFin).getLsbD 15

/-! ### Reading -/

/-- The MMU entry a register offset lies in. -/
def mmuIndex (offset : BitVec 5) : BitVec 4 := offset.extractLsb' 1 4

/-- `MemRead(addr, 1)` (20_memory R52) at a location. A device sees the access; what it answers is a free value.
A byte of an MMU entry is its big-endian half (log 21). -/
def State.readByteAt (s : State) (l : Location) : Except Fault (Byte × State) :=
  match l with
  | .memory pa =>
    if s.platform.isPopulated pa then .ok (s.mem.read pa.toNat, s) else .error .unpopulatedAddress
  | .mmuReg off =>
    let e := s.mmu.get (mmuIndex off).toFin
    .ok (if off.getLsbD 0 then lowByte e else highByte e, s)
  | .device va =>
    .ok (lowByte (Config.deviceRead s.ioLog va .byte), { s with ioLog := .read va .byte :: s.ioLog })
  | .absent _ => .error .unpopulatedAddress

/-- `MemRead(addr, 2)` (20_memory R52), big endian (R51), at the location of its first byte (log 17). -/
def State.readWordAt (s : State) (l : Location) : Except Fault (Word × State) :=
  match l with
  | .memory pa =>
    if s.platform.isPopulated pa && s.platform.isPopulated (pa + 1#26) then
      .ok (wordOfBytes (s.mem.read pa.toNat) (s.mem.read (pa + 1#26).toNat), s)
    else .error .unpopulatedAddress
  | .mmuReg off => .ok (s.mmu.get (mmuIndex off).toFin, s)
  | .device va =>
    .ok (Config.deviceRead s.ioLog va .word, { s with ioLog := .read va .word :: s.ioLog })
  | .absent _ => .error .unpopulatedAddress

/-- `load_byte` of a data access. -/
def State.loadByte (s : State) (ea : Word) : Except Fault (Byte × State) := s.readByteAt (s.locate ea)

/-- `load_word` of a data access. -/
def State.loadWord (s : State) (ea : Word) : Except Fault (Word × State) := s.readWordAt (s.locate ea)

/-! ### Writing -/

/-- A word stored to an MMU entry; the old entry is kept for the one fetch that follows (log 20). Bit 14 is
stored like the rest (60_exceptions R323). -/
def State.writeMmu (s : State) (i : BitVec 4) (v : Word) : State :=
  { s with mmu := s.mmu.set i.toNat v i.isLt, mmuChange := some (i, s.mmu.get i.toFin) }

/-- `store_byte` (20_memory R53) at a location. The entry after a byte store to half of it is a free value (log 21). -/
def State.writeByteAt (s : State) (l : Location) (v : Byte) : Except Fault State :=
  match l with
  | .memory pa =>
    if s.platform.isPopulated pa then .ok { s with mem := s.mem.write pa.toNat v }
    else .error .unpopulatedAddress
  | .mmuReg off =>
    let i := mmuIndex off
    .ok { s.writeMmu i (Config.mmuByteWrite s.freeCount (s.mmu.get i.toFin) (off.getLsbD 0) v) with
          freeCount := s.freeCount + 1 }
  | .device va => .ok { s with ioLog := .write va .byte (v.setWidth 16) :: s.ioLog }
  | .absent _ => .error .unpopulatedAddress

/-- `store_word` (20_memory R53), big endian, at the location of its first byte (log 17). -/
def State.writeWordAt (s : State) (l : Location) (v : Word) : Except Fault State :=
  match l with
  | .memory pa =>
    if s.platform.isPopulated pa && s.platform.isPopulated (pa + 1#26) then
      .ok { s with mem := (s.mem.write pa.toNat (highByte v)).write (pa + 1#26).toNat (lowByte v) }
    else .error .unpopulatedAddress
  | .mmuReg off => .ok (s.writeMmu (mmuIndex off) v)
  | .device va => .ok { s with ioLog := .write va .word v :: s.ioLog }
  | .absent _ => .error .unpopulatedAddress

/-- Whether a store to the virtual addresses `stored` changes the instruction word at `w` (20_memory R66). -/
def State.storeHits (s : State) (stored : List Word) (w : Word) : Bool :=
  stored.any fun x => decide (s.locate x = s.locate w) || decide (s.locate x = s.locate (w + 1#16))

/-- The code window after a store (20_memory R66, log 13): `pc` is already past the store, and `s` is the state
before it. -/
def State.markStored (t s : State) (stored : List Word) : State :=
  { t with
    staleNext := t.staleNext || s.storeHits stored s.readPc
    staleSecond := t.staleSecond || s.storeHits stored (s.readPc + 2#16) }

/-- `MemWrite(ea, 1, v)` of sb: discarded on a page that is not writable (60_exceptions R322). -/
def State.storeByte (s : State) (ea : Word) (v : Byte) : Except Fault State :=
  if s.writable ea then
    match s.writeByteAt (s.locate ea) v with
    | .ok t => .ok (t.markStored s [ea])
    | .error f => .error f
  else .ok s

/-- `MemWrite(ea, 2, v)` of sw: discarded on a page that is not writable (60_exceptions R322). -/
def State.storeWord (s : State) (ea : Word) (v : Word) : Except Fault State :=
  if s.writable ea then
    match s.writeWordAt (s.locate ea) v with
    | .ok t => .ok (t.markStored s [ea, ea + 1#16])
    | .error f => .error f
  else .ok s

/-! ### Fetch -/

/-- The MMU entries the fetch uses: the fetch right after a store to an entry may see the old one (log 20). -/
def State.fetchMmu (s : State) : Vector Word 16 :=
  match s.mmuChange with
  | some (i, old) =>
    if Config.fetchSeesNewEntry s.freeCount then s.mmu else s.mmu.set i.toNat old i.isLt
  | none => s.mmu

/-- Where the next instruction is fetched from. -/
def State.fetchLocation (s : State) : Location := s.platform.locate s.fetchMmu s.readPc

/-- A free value has been drawn if the fetch depended on one. -/
def State.drawForFetch (s : State) : State :=
  match s.mmuChange with
  | some _ => { s with freeCount := s.freeCount + 1 }
  | none => s

/-- `insn <- MemRead(pc, 2)` (20_memory R58), undefined in the code window of a store (R66). DESIGN CHOICE (log 19):
a fetch through an MMU entry that nothing has written since reset (70_reset R342 item 6) is translated with the
entry's reset value; the fault that 93 U16 offers there is not taken. -/
def State.fetch (s : State) : Except Fault (Word × State) :=
  if s.staleNext then .error .staleFetch else s.drawForFetch.readWordAt s.fetchLocation

/-! ### Interrupts -/

/-- INT_REQUEST at a step boundary (60_exceptions R300, D15, log 14). -/
def State.acceptRequest (s : State) : State :=
  match s.intRequests with
  | [] => s
  | r :: rest => { s with interruptPending := s.interruptPending || r, intRequests := rest }

/-- `{14} ∪ prev.dests` (60_exceptions R301, D6). -/
def withLink (dests : List Reg) : List Reg := if 14#4 ∈ dests then dests else 14#4 :: dests

/-- TAKING THE INTERRUPT (60_exceptions R301): x[14] <- pc, pc <- 0x0010, the request is no longer pending, and
the bookkeeping of D6 and D2. -/
def State.takeInterrupt (s : State) : State :=
  { (s.writeReg 14#4 s.readPc).jumpTo 0x0010#16 with
    interruptPending := false
    prev := ⟨.int, withLink s.prev.dests⟩
    carryValid := false }

/-- The interrupt check after a completed instruction (60_exceptions R301; step 5 of 00_scope R12). -/
def State.interruptCheck (s : State) : State :=
  if s.interruptPending && s.canInterrupt then s.takeInterrupt else s

/-- Where a return from interrupt goes (60_exceptions R304): reti is `jal r0,0(r14)`, pc <- x[14] and 0xFFFE. -/
def State.returnTarget (s : State) : Word := evenWord (s.readReg 14#4)

/-- RETURN FROM INTERRUPT as the instruction the spec makes it (60_exceptions R304). -/
def reti : Instr := .jal 0#4 14#4 0#4

/-! ### Outcomes -/

/-- What follows an access that may stop. -/
def afterAccess {α : Type} (r : Except Fault α) (k : α → Result) : Result :=
  match r with
  | .ok x => k x
  | .error f => .fault f

/-- What follows an instruction that completed. -/
def afterNext (r : Result) (k : State → State) : Result :=
  match r with
  | .next t => .next (k t)
  | .fault f => .fault f
  | .refused q => .refused q

end Sys2Proof.Machine
end

