-- ==== Sys2Proof/Machine/Operands.lean ====
section
/-! DEFINITION. Operand forms: the three immediates (spec/30_encoding.md R91 to R93), the effective address
(43_load_store R165) and the branch target (44_branch R180). Each is a function of the state before `PRE`
clears has_imm_prefix, but for the branch target, which reads the pc after it. -/

namespace Sys2Proof.Machine

/-- The immediate under a prefix: `imm_prefix[11:0] || imm[3:0]`. -/
def prefixedImm (hi : BitVec 12) (imm : BitVec 4) : Word := hi ++ imm

/-- `sext_16(imm[3:0])`. -/
def sextImm (imm : BitVec 4) : Word := imm.signExtend 16

/-- `zeros(12) || imm[3:0]`. -/
def byteOffset (imm : BitVec 4) : Word := imm.setWidth 16

/-- `zeros(11) || imm[0] || imm[3:1] || 0`. -/
def wordOffset (imm : BitVec 4) : Word :=
  0#11 ++ imm.extractLsb' 0 1 ++ imm.extractLsb' 1 3 ++ 0#1

/-- The immediate of `PRE_SEXT` (R91). -/
def State.immSext (s : State) (imm : BitVec 4) : Word :=
  if s.hasImmPrefix then prefixedImm s.immPrefix imm else sextImm imm

/-- The immediate of `PRE_BYTE` (R92). -/
def State.immByte (s : State) (imm : BitVec 4) : Word :=
  if s.hasImmPrefix then prefixedImm s.immPrefix imm else byteOffset imm

/-- The immediate of `PRE_WORD` (R93). -/
def State.immWord (s : State) (imm : BitVec 4) : Word :=
  if s.hasImmPrefix then prefixedImm s.immPrefix imm else wordOffset imm

/-- `ea = (x[ra] + immed) mod 2^16` (R165). -/
def State.effectiveAddress (s : State) (ra : Reg) (immed : Word) : Word := s.readReg ra + immed

/-- `pc + 2*sext_16(disp8) + 2`, with pc already past the branch (R180). -/
def branchTarget (pc : Word) (disp : BitVec 8) : Word := pc + 2#16 * disp.signExtend 16 + 2#16

/-- The address an lw or sw of this state accesses. -/
def State.wordAddress (s : State) (ra : Reg) (imm : BitVec 4) : Word := s.effectiveAddress ra (s.immWord imm)

/-- The address an lb or sb of this state accesses. -/
def State.byteAddress (s : State) (ra : Reg) (imm : BitVec 4) : Word := s.effectiveAddress ra (s.immByte imm)

/-- `(x[ra] + immed) and 0xFFFE`: the target of a jal (45_jump_call R210). -/
def State.jalTarget (s : State) (ra : Reg) (imm : BitVec 4) : Word :=
  evenWord (s.effectiveAddress ra (s.immWord imm))

/-- `imm12 || 0000`: the target of a call (45_jump_call R211). -/
def callTarget (imm12 : BitVec 12) : Word := imm12 ++ 0#4

end Sys2Proof.Machine
end

