-- ==== Sys2Proof/Machine/Arithmetic.lean ====
section
/-! DEFINITION. add, sub, addi, adc, sbc, adci, sbci (spec/40_arithmetic.md R114 to R120). All are interlocked,
branch prefixes and carry producers. -/

namespace Sys2Proof.Machine

/-- What the seven instructions do once their values are known: record the operands "as if add" (10_state R26)
and the carry (R27), interlock (R31), write rd, and complete. -/
def State.finishArith (s : State) (m : Mnemonic) (rd : Reg) (a b : Word) (carry : Bool) (result : Word) : State :=
  (({ s with a := a, b := b, carryOut := carry, canInterrupt := false } : State).writeReg rd result).retire m (some rd)

/-- R114. -/
def execAdd (rd ra rb : Reg) (s : State) : Result :=
  let s1 := s.pre
  let p := s1.readReg ra
  let q := s1.readReg rb
  s1.guardRb rb (.next (s1.finishArith .add rd p q (carrySum p q false) (p + q)))

/-- R115. -/
def execSub (rd ra rb : Reg) (s : State) : Result :=
  let s1 := s.pre
  let p := s1.readReg ra
  let q := s1.readReg rb
  s1.guardRb rb (.next (s1.finishArith .sub rd p (-q) (borrow p q false) (p - q)))

/-- R116. -/
def execAddi (rd ra : Reg) (imm : BitVec 4) (s : State) : Result :=
  let immed := s.immSext imm
  let s1 := s.pre
  let p := s1.readReg ra
  .next (s1.finishArith .addi rd p immed (carrySum p immed false) (p + immed))

/-- R117. -/
def execAdc (rd rb : Reg) (s : State) : Result :=
  let s1 := s.pre
  let p := s1.readReg rd
  let q := s1.readReg rb
  let t := s1.carryOut
  s1.guardRb rb (s1.guardCarry (.next (s1.finishArith .adc rd p q (carrySum p q t) (p + q + bitWord t))))

/-- R118. -/
def execSbc (rd rb : Reg) (s : State) : Result :=
  let s1 := s.pre
  let p := s1.readReg rd
  let q := s1.readReg rb
  let t := s1.carryOut
  s1.guardRb rb (s1.guardCarry (.next (s1.finishArith .sbc rd p (-q) (borrow p q t) (p - q - bitWord t))))

/-- R119. -/
def execAdci (rd : Reg) (imm : BitVec 4) (s : State) : Result :=
  let immed := s.immSext imm
  let s1 := s.pre
  let p := s1.readReg rd
  let t := s1.carryOut
  s1.guardCarry (.next (s1.finishArith .adci rd p immed (carrySum p immed t) (p + immed + bitWord t)))

/-- R120. -/
def execSbci (rd : Reg) (imm : BitVec 4) (s : State) : Result :=
  let immed := s.immSext imm
  let s1 := s.pre
  let p := s1.readReg rd
  let t := s1.carryOut
  s1.guardCarry (.next (s1.finishArith .sbci rd p (-immed) (borrow p immed t) (p - immed - bitWord t)))

end Sys2Proof.Machine
end

