-- ==== Sys2Proof/Machine/Branch.lean ====
section
/-! DEFINITION. br and the fourteen conditional branches (spec/44_branch.md R180 to R198). No branch is
interlocked or writes a register (R197). -/

namespace Sys2Proof.Machine

/-- The pc after a branch (R180): `PRE` has left pc at A + 2. A taken branch is a control transfer. -/
def State.branchIf (s : State) (taken : Bool) (disp : BitVec 8) : State :=
  if taken then s.jumpTo (branchTarget s.readPc disp) else s

/-- What the fourteen conditional branches share (44_branch section 2). -/
def State.condBranch (s : State) (m : Mnemonic) (cond : Cond) (disp : BitVec 8) : Result :=
  let s1 := s.pre
  s1.guardBranchPrefix (.next ((s1.branchIf (cond.holds s1.a s1.b) disp).retire m none))

/-- R196. -/
def execBr (disp : BitVec 8) (s : State) : Result :=
  .next ((s.pre.branchIf true disp).retire .br none)

/-- R182. -/
def execBeq (disp : BitVec 8) (s : State) : Result := s.condBranch .beq .eq disp

/-- R183. -/
def execBne (disp : BitVec 8) (s : State) : Result := s.condBranch .bne .ne disp

/-- R184. -/
def execBc (disp : BitVec 8) (s : State) : Result := s.condBranch .bc .c disp

/-- R185. -/
def execBnc (disp : BitVec 8) (s : State) : Result := s.condBranch .bnc .nc disp

/-- R186. -/
def execBv (disp : BitVec 8) (s : State) : Result := s.condBranch .bv .v disp

/-- R187. -/
def execBnv (disp : BitVec 8) (s : State) : Result := s.condBranch .bnv .nv disp

/-- R188. -/
def execBlt (disp : BitVec 8) (s : State) : Result := s.condBranch .blt .lt disp

/-- R189. -/
def execBge (disp : BitVec 8) (s : State) : Result := s.condBranch .bge .ge disp

/-- R190. -/
def execBle (disp : BitVec 8) (s : State) : Result := s.condBranch .ble .le disp

/-- R191. -/
def execBgt (disp : BitVec 8) (s : State) : Result := s.condBranch .bgt .gt disp

/-- R192. -/
def execBltu (disp : BitVec 8) (s : State) : Result := s.condBranch .bltu .ltu disp

/-- R193. -/
def execBgeu (disp : BitVec 8) (s : State) : Result := s.condBranch .bgeu .geu disp

/-- R194. -/
def execBleu (disp : BitVec 8) (s : State) : Result := s.condBranch .bleu .leu disp

/-- R195. -/
def execBgtu (disp : BitVec 8) (s : State) : Result := s.condBranch .bgtu .gtu disp

end Sys2Proof.Machine
end

