-- ==== Sys2Proof/Machine/Jump.lean ====
section
/-! DEFINITION. jal, call (spec/45_jump_call.md R210, R211) and imm (46_imm_prefix.md R220). -/

namespace Sys2Proof.Machine

/-- R210: the target is computed before rd is written; the link is A + 2. Return from interrupt is this
instruction with rd = r0, ra = r14 (60_exceptions R304). -/
def execJal (rd ra : Reg) (imm : BitVec 4) (s : State) : Result :=
  let target := s.jalTarget ra imm
  let s1 := s.pre
  .next (((s1.writeReg rd s1.readPc).jumpTo target).retire .jal (some rd))

/-- R211: the link goes to r15. -/
def execCall (imm12 : BitVec 12) (s : State) : Result :=
  let s1 := s.pre
  .next (((s1.writeReg 15#4 s1.readPc).jumpTo (callTarget imm12)).retire .call (some 15#4))

/-- R220: interlocked; leaves `carry_valid` as it is (10_state R30). -/
def execImm (imm12 : BitVec 12) (s : State) : Result :=
  .next (({ s.pre with hasImmPrefix := true, immPrefix := imm12, canInterrupt := false } : State).retire .imm none)

end Sys2Proof.Machine
end

