-- ==== Sys2Proof/Machine/LoadStore.lean ====
section
/-! DEFINITION. lw, lb, sw, sb (spec/43_load_store.md R165 to R170). None is interlocked (R166). -/

namespace Sys2Proof.Machine

/-- R167. The read happens also when rd is r0, which an I/O device can see. -/
def execLw (rd ra : Reg) (imm : BitVec 4) (s : State) : Result :=
  let ea := s.wordAddress ra imm
  let s1 := s.pre
  guardAligned ea (afterAccess (s1.loadWord ea) fun r => .next ((r.2.writeReg rd r.1).retire .lw (some rd)))

/-- R168: `zeros(8) || byte`. -/
def execLb (rd ra : Reg) (imm : BitVec 4) (s : State) : Result :=
  let ea := s.byteAddress ra imm
  let s1 := s.pre
  afterAccess (s1.loadByte ea) fun r => .next ((r.2.writeReg rd (r.1.setWidth 16)).retire .lb (some rd))

/-- R169: rd is the store data. -/
def execSw (rd ra : Reg) (imm : BitVec 4) (s : State) : Result :=
  let ea := s.wordAddress ra imm
  let s1 := s.pre
  s1.guardStoreData rd
    (guardAligned ea (afterAccess (s1.storeWord ea (s1.readReg rd)) fun t => .next (t.retire .sw none)))

/-- R170: `x[rd][7:0]` is the store data. -/
def execSb (rd ra : Reg) (imm : BitVec 4) (s : State) : Result :=
  let ea := s.byteAddress ra imm
  let s1 := s.pre
  s1.guardStoreData rd
    (afterAccess (s1.storeByte ea (lowByte (s1.readReg rd))) fun t => .next (t.retire .sb none))

end Sys2Proof.Machine
end

