-- ==== Sys2Proof/Machine/Logical.lean ====
section
/-! DEFINITION. and, or, xor, andn, andi, ori, xori, andni (spec/41_logical.md R130 to R138). None is interlocked
and none writes invisible state beyond `PRE` (R130). -/

namespace Sys2Proof.Machine

/-- Write rd and complete. -/
def State.finishResult (s : State) (m : Mnemonic) (rd : Reg) (result : Word) : State :=
  (s.writeReg rd result).retire m (some rd)

/-- R131. -/
def execAnd (rd rb : Reg) (s : State) : Result :=
  let s1 := s.pre
  s1.guardRb rb (.next (s1.finishResult .and rd (s1.readReg rd &&& s1.readReg rb)))

/-- R132. -/
def execOr (rd rb : Reg) (s : State) : Result :=
  let s1 := s.pre
  s1.guardRb rb (.next (s1.finishResult .or rd (s1.readReg rd ||| s1.readReg rb)))

/-- R133. -/
def execXor (rd rb : Reg) (s : State) : Result :=
  let s1 := s.pre
  s1.guardRb rb (.next (s1.finishResult .xor rd (s1.readReg rd ^^^ s1.readReg rb)))

/-- R134. -/
def execAndn (rd rb : Reg) (s : State) : Result :=
  let s1 := s.pre
  s1.guardRb rb (.next (s1.finishResult .andn rd (s1.readReg rd &&& ~~~ s1.readReg rb)))

/-- R135. -/
def execAndi (rd : Reg) (imm : BitVec 4) (s : State) : Result :=
  let immed := s.immSext imm
  let s1 := s.pre
  .next (s1.finishResult .andi rd (s1.readReg rd &&& immed))

/-- R136. -/
def execOri (rd : Reg) (imm : BitVec 4) (s : State) : Result :=
  let immed := s.immSext imm
  let s1 := s.pre
  .next (s1.finishResult .ori rd (s1.readReg rd ||| immed))

/-- R137. -/
def execXori (rd : Reg) (imm : BitVec 4) (s : State) : Result :=
  let immed := s.immSext imm
  let s1 := s.pre
  .next (s1.finishResult .xori rd (s1.readReg rd ^^^ immed))

/-- R138: the complement is of the 16-bit immediate. -/
def execAndni (rd : Reg) (imm : BitVec 4) (s : State) : Result :=
  let immed := s.immSext imm
  let s1 := s.pre
  .next (s1.finishResult .andni rd (s1.readReg rd &&& ~~~ immed))

end Sys2Proof.Machine
end

