-- ==== Sys2Proof/Machine/Shift.lean ====
section
/-! DEFINITION. srli, srai, slli, srxi, slxi (spec/42_shift.md R150 to R157). The guards come first, so the count
is 1 wherever a value is computed (R152). None is interlocked (R150, log 29). -/

namespace Sys2Proof.Machine

/-- Record the bit shifted out (10_state R28), write rd and complete. -/
def State.finishShift (s : State) (m : Mnemonic) (rd : Reg) (out : Bool) (result : Word) : State :=
  (({ s with shiftOut := out } : State).writeReg rd result).retire m (some rd)

/-- `x[14:0] || t`. -/
def shiftLeftIn (v : Word) (t : Bool) : Word := v.extractLsb' 0 15 ++ BitVec.ofBool t

/-- `t || x[15:1]`. -/
def shiftRightIn (t : Bool) (v : Word) : Word := BitVec.ofBool t ++ v.extractLsb' 1 15

/-- R155. -/
def execSrli (rd : Reg) (imm : BitVec 4) (s : State) : Result :=
  let immed := s.immSext imm
  let s1 := s.pre
  let v := s1.readReg rd
  guardCount immed (.next (s1.finishShift .srli rd (v.getLsbD 0) (shiftRightIn false v)))

/-- R156: the vacated bit is the sign bit. -/
def execSrai (rd : Reg) (imm : BitVec 4) (s : State) : Result :=
  let immed := s.immSext imm
  let s1 := s.pre
  let v := s1.readReg rd
  guardCount immed (.next (s1.finishShift .srai rd (v.getLsbD 0) (shiftRightIn (v.getLsbD 15) v)))

/-- R153. -/
def execSlli (rd : Reg) (imm : BitVec 4) (s : State) : Result :=
  let immed := s.immSext imm
  let s1 := s.pre
  let v := s1.readReg rd
  guardCount immed (.next (s1.finishShift .slli rd (v.getLsbD 15) (shiftLeftIn v false)))

/-- R157: the bit shifted out before enters bit 15. -/
def execSrxi (rd : Reg) (imm : BitVec 4) (s : State) : Result :=
  let immed := s.immSext imm
  let s1 := s.pre
  let v := s1.readReg rd
  guardCount immed (s1.guardShift (.next (s1.finishShift .srxi rd (v.getLsbD 0) (shiftRightIn s1.shiftOut v))))

/-- R154: the bit shifted out before enters bit 0. -/
def execSlxi (rd : Reg) (imm : BitVec 4) (s : State) : Result :=
  let immed := s.immSext imm
  let s1 := s.pre
  let v := s1.readReg rd
  guardCount immed (s1.guardShift (.next (s1.finishShift .slxi rd (v.getLsbD 15) (shiftLeftIn v s1.shiftOut))))

end Sys2Proof.Machine
end

