-- ==== Sys2Proof/Machine/Dispatch.lean ====
section
/-! DEFINITION. exec: one arm per constructor of Instr, each one direct call of its meaning. -/

namespace Sys2Proof.Machine

def exec (i : Instr) (s : State) : Host.Outcome State Fault Refusal :=
  match i with
  | .add rd ra rb => Sys2Proof.Machine.execAdd rd ra rb s
  | .sub rd ra rb => Sys2Proof.Machine.execSub rd ra rb s
  | .addi rd ra imm => Sys2Proof.Machine.execAddi rd ra imm s
  | .and rd rb => Sys2Proof.Machine.execAnd rd rb s
  | .or rd rb => Sys2Proof.Machine.execOr rd rb s
  | .xor rd rb => Sys2Proof.Machine.execXor rd rb s
  | .andn rd rb => Sys2Proof.Machine.execAndn rd rb s
  | .adc rd rb => Sys2Proof.Machine.execAdc rd rb s
  | .sbc rd rb => Sys2Proof.Machine.execSbc rd rb s
  | .andi rd imm => Sys2Proof.Machine.execAndi rd imm s
  | .ori rd imm => Sys2Proof.Machine.execOri rd imm s
  | .xori rd imm => Sys2Proof.Machine.execXori rd imm s
  | .andni rd imm => Sys2Proof.Machine.execAndni rd imm s
  | .adci rd imm => Sys2Proof.Machine.execAdci rd imm s
  | .sbci rd imm => Sys2Proof.Machine.execSbci rd imm s
  | .srli rd imm => Sys2Proof.Machine.execSrli rd imm s
  | .srai rd imm => Sys2Proof.Machine.execSrai rd imm s
  | .slli rd imm => Sys2Proof.Machine.execSlli rd imm s
  | .srxi rd imm => Sys2Proof.Machine.execSrxi rd imm s
  | .slxi rd imm => Sys2Proof.Machine.execSlxi rd imm s
  | .lw rd ra imm => Sys2Proof.Machine.execLw rd ra imm s
  | .lb rd ra imm => Sys2Proof.Machine.execLb rd ra imm s
  | .sw rd ra imm => Sys2Proof.Machine.execSw rd ra imm s
  | .sb rd ra imm => Sys2Proof.Machine.execSb rd ra imm s
  | .jal rd ra imm => Sys2Proof.Machine.execJal rd ra imm s
  | .br disp => Sys2Proof.Machine.execBr disp s
  | .beq disp => Sys2Proof.Machine.execBeq disp s
  | .bne disp => Sys2Proof.Machine.execBne disp s
  | .bc disp => Sys2Proof.Machine.execBc disp s
  | .bnc disp => Sys2Proof.Machine.execBnc disp s
  | .bv disp => Sys2Proof.Machine.execBv disp s
  | .bnv disp => Sys2Proof.Machine.execBnv disp s
  | .blt disp => Sys2Proof.Machine.execBlt disp s
  | .bge disp => Sys2Proof.Machine.execBge disp s
  | .ble disp => Sys2Proof.Machine.execBle disp s
  | .bgt disp => Sys2Proof.Machine.execBgt disp s
  | .bltu disp => Sys2Proof.Machine.execBltu disp s
  | .bgeu disp => Sys2Proof.Machine.execBgeu disp s
  | .bleu disp => Sys2Proof.Machine.execBleu disp s
  | .bgtu disp => Sys2Proof.Machine.execBgtu disp s
  | .call imm12 => Sys2Proof.Machine.execCall imm12 s
  | .imm imm12 => Sys2Proof.Machine.execImm imm12 s

end Sys2Proof.Machine
end

