-- ==== Sys2Proof/Machine/Step.lean ====
section
/-! DEFINITION. One step (spec/00_scope.md R12): the request input, fetch, decode, the instruction, the interrupt
check; and the placing of an instruction where the step fetches. -/

namespace Sys2Proof.Machine

/-- R12. A word that is no instruction is undefined (30_encoding R100). The bookkeeping of R12's step 4 is part of
each meaning (`State.retire`). -/
def step (s : State) : Host.Outcome State Fault Refusal :=
  match s.acceptRequest.fetch with
  | .error f => .fault f
  | .ok (w, s1) =>
    match decodeWord w with
    | .error _ => .fault .reservedEncoding
    | .ok i => afterNext (exec i s1) State.interruptCheck

/-- The bytes of a table word, stored at the physical address the fetch reads (R80), which the fetch needs
populated. -/
def State.placeWord (s : State) (pa : PhysAddr) (w : Word) : State :=
  { s with
    mem := (s.mem.write pa.toNat (highByte w)).write (pa + 1#26).toNat (lowByte w)
    platform :=
      if s.platform.isPopulated pa && s.platform.isPopulated (pa + 1#26) then s.platform
      else { s.platform with populated := ⟨pa.toNat, 1⟩ :: ⟨(pa + 1#26).toNat, 1⟩ :: s.platform.populated } }

/-- `s` with the instruction placed where the very next step fetches (log 23): the code window and an unsettled
MMU entry, which the fetch would stop at or draw a free value for, are cleared. A pc in I/O space
with no MMU register there is left alone: what a device answers is the environment's, and without one nothing is there. -/
def State.withFetchWord (s : State) (nbits w : Nat) : State :=
  let s1 := { s with staleNext := false, mmuChange := none }
  match s1.fetchLocation with
  | .memory pa => s1.placeWord pa (tableWord nbits w)
  | .mmuReg off => { s1 with mmu := s1.mmu.set (mmuIndex off).toNat (tableWord nbits w) (mmuIndex off).isLt }
  | .device _ => s1
  | .absent _ => s1

end Sys2Proof.Machine
end

