-- ==== Sys2Proof/Machine/Assembler.lean ====
section
/-! DEFINITION. What the assembler makes of its input (spec/47_assembler.md): immediate prefix insertion, hazard
removal, effective addresses, far branches, shift counts, directives, pseudo-instructions and long-word
pseudo-operations, all down to native instructions. Not part of the machine's step. -/

namespace Sys2Proof.Machine

/-! ### Immediates (R231) -/

/-- -8 ≤ v ≤ 7: no prefix for addi and the RI group. -/
def fitsSext (v : Word) : Bool := decide (-8 ≤ v.toInt) && decide (v.toInt ≤ 7)

/-- 0 ≤ v ≤ 15: no prefix for lb, sb. -/
def fitsByte (v : Word) : Bool := decide (v.toNat ≤ 15)

/-- Even 0 ≤ v ≤ 30: no prefix for lw, sw, jal (D22: an odd offset takes a prefix). -/
def fitsWord (v : Word) : Bool := decide (v.toNat ≤ 30) && decide (v.toNat % 2 = 0)

/-- `v[15:4]`, what the inserted imm carries. -/
def highTwelve (v : Word) : BitVec 12 := v.extractLsb' 4 12

/-- `v[3:0]`. -/
def lowNibble (v : Word) : BitVec 4 := v.extractLsb' 0 4

/-- `(k & 0xE) | (k >> 4)`: the unprefixed field of an even word offset (30_encoding R93). -/
def wordField (v : Word) : BitVec 4 := lowNibble (v &&& 0x000E#16) ||| lowNibble (v >>> 4)

/-- `imm v[15:4]` and the instruction with field `v[3:0]`. -/
def prefixedPair (v : Word) (mk : BitVec 4 → Instr) : List Instr := [.imm (highTwelve v), mk (lowNibble v)]

/-- An instruction with a sign-extended immediate. -/
def withSext (v : Word) (mk : BitVec 4 → Instr) : List Instr :=
  if fitsSext v then [mk (lowNibble v)] else prefixedPair v mk

/-- An instruction with a byte offset. -/
def withByte (v : Word) (mk : BitVec 4 → Instr) : List Instr :=
  if fitsByte v then [mk (lowNibble v)] else prefixedPair v mk

/-- An instruction with a word offset. -/
def withWord (v : Word) (mk : BitVec 4 → Instr) : List Instr :=
  if fitsWord v then [mk (wordField v)] else prefixedPair v mk

/-! ### Effective addresses (R237) -/

/-- `{symbol|const} {[+|-] const}* {(reg)}`: the constants fold into one immediate; no base is r0. -/
def foldAddress (symbol : Option Word) (consts : List Word) (base : Option Reg) : Word × Reg :=
  (consts.foldl (· + ·) (symbol.getD 0#16), base.getD 0#4)

/-! ### Pseudo-instructions (R243 to R255) and long words (R259 to R270) -/

/-- rx´ (R259): 0 for 0, x + 1 for 1..11, none above. -/
def partner (x : Reg) : Option Reg := if x = 0#4 then some 0#4 else if x.toNat ≤ 11 then some (x + 1#4) else none

/-- `mov rd,ra` (R250). -/
def movInstr (rd ra : Reg) : Instr := .add rd ra 0#4

/-- `movopt rd,ra` (R243). -/
def movOpt (rd ra : Reg) : List Instr := if rd = ra then [] else [movInstr rd ra]

/-- `nop` (R245). -/
def nopInstr : Instr := .and 0#4 0#4

/-- The pseudo-instructions, with 16-bit immediates (`lil` has 32 bits). -/
inductive Pseudo where
  | cmp (ra rb : Reg)
  | cmpi (ra : Reg) (v : Word)
  | j (v : Word) (ra : Reg)
  | lea (rd : Reg) (v : Word) (ra : Reg)
  | lbs (rd : Reg) (v : Word) (ra : Reg)
  | nop
  | mov (rd ra : Reg)
  | ret
  | reti
  | sext (rd ra : Reg)
  | subi (rd ra : Reg) (v : Word)
  | zext (rd ra : Reg)
  | addl (rd ra rb : Reg)
  | andl (rd rb : Reg)
  | andnl (rd rb : Reg)
  | orl (rd rb : Reg)
  | xorl (rd rb : Reg)
  | ll (rd : Reg) (v : Word) (ra : Reg)
  | lil (rd : Reg) (v : BitVec 32)
  | movl (rd ra : Reg)
  | subl (rd ra rb : Reg)
  | sl (rd : Reg) (v : Word) (ra : Reg)
deriving DecidableEq, Repr

/-- `subi rd,ra,v` (R254). -/
def subiInstrs (rd ra : Reg) (v : Word) : List Instr := withSext (-v) (.addi rd ra)

/-- `xori rd,0x80` / `subi rd,rd,0x80`: the sign extension of a byte (R244, R253). -/
def signByte (rd : Reg) : List Instr := withSext 0x0080#16 (.xori rd) ++ subiInstrs rd rd 0x0080#16

/-- The two halves of a register-register long operation (R261 to R264). -/
def longPair (mk : Reg → Reg → Instr) (rd rb : Reg) : Option (List Instr) :=
  match partner rd, partner rb with
  | some rd', some rb' => some [mk rd rb, mk rd' rb']
  | _, _ => none

/-- `movopt rd´,ra´` (omit if rd = ra) / low half / high half (R260, R268). -/
def longChain (lo : Reg → Reg → Reg → Instr) (hi : Reg → Reg → Instr) (rd ra rb : Reg) : Option (List Instr) :=
  match partner rd, partner ra, partner rb with
  | some rd', some ra', some rb' =>
    some ((if rd = ra then [] else movOpt rd' ra') ++ [lo rd ra rb, hi rd' rb'])
  | _, _, _ => none

/-- The native instructions of a pseudo-instruction; none where a long word has no partner register. -/
def Pseudo.expand : Pseudo → Option (List Instr)
  | .cmp ra rb => some [.sub 0#4 ra rb]
  | .cmpi ra v => some (withSext (-v) (.addi 0#4 ra))
  | .j v ra => some (withWord v (.jal 0#4 ra))
  | .lea rd v ra => some (withSext v (.addi rd ra))
  | .lbs rd v ra => some (withByte v (.lb rd ra) ++ signByte rd)
  | .nop => some [nopInstr]
  | .mov rd ra => some [movInstr rd ra]
  | .ret => some [.jal 0#4 15#4 0#4]
  | .reti => some [Machine.reti]
  | .sext rd ra => some (movOpt rd ra ++ withSext 0x00FF#16 (.andi rd) ++ signByte rd)
  | .subi rd ra v => some (subiInstrs rd ra v)
  | .zext rd ra => some (movOpt rd ra ++ withSext 0x00FF#16 (.andi rd))
  | .addl rd ra rb => longChain .add .adc rd ra rb
  | .andl rd rb => longPair .and rd rb
  | .andnl rd rb => longPair .andn rd rb
  | .orl rd rb => longPair .or rd rb
  | .xorl rd rb => longPair .xor rd rb
  | .ll rd v ra => (partner rd).map fun rd' => withWord (v + 2#16) (.lw rd ra) ++ withWord v (.lw rd' ra)
  | .lil rd v =>
    (partner rd).map fun rd' =>
      withSext (v.extractLsb' 0 16) (.addi rd 0#4) ++ withSext (v.extractLsb' 16 16) (.addi rd' 0#4)
  | .movl rd ra =>
    match partner rd, partner ra with
    | some rd', some ra' => some [movInstr rd ra, movInstr rd' ra']
    | _, _ => none
  | .subl rd ra rb => longChain .sub .sbc rd ra rb
  | .sl rd v ra => (partner rd).map fun rd' => withWord (v + 2#16) (.sw rd ra) ++ withWord v (.sw rd' ra)

/-- A constant shift count above 0 as one-bit shifts (R239). DESIGN CHOICE (log 32), where the source gives nothing: a
count of 0 has no expansion, and slxi and srxi with a count above 1 are repeated like the others. -/
def shiftSeries (mk : BitVec 4 → Instr) (count : Nat) : Option (List Instr) :=
  if count = 0 then none else some (List.replicate count (mk 1#4))

/-! ### Branches (R180, R238) -/

/-- `disp8 = (target - A - 4) / 2`, where the displacement reaches. -/
def branchDisp (a target : Word) : Option (BitVec 8) :=
  let d := (target - a - 4#16).toInt
  if d % 2 = 0 ∧ -256 ≤ d ∧ d ≤ 254 then some (BitVec.ofInt 8 (d / 2)) else none

/-- The complementary condition: the other one of each pair of R99. -/
def Cond.complement : Cond → Cond
  | .eq => .ne
  | .ne => .eq
  | .c => .nc
  | .nc => .c
  | .v => .nv
  | .nv => .v
  | .lt => .ge
  | .ge => .lt
  | .le => .gt
  | .gt => .le
  | .ltu => .geu
  | .geu => .ltu
  | .leu => .gtu
  | .gtu => .leu

/-- The branch on a condition (R99). -/
def Cond.instr (disp : BitVec 8) : Cond → Instr
  | .eq => .beq disp
  | .ne => .bne disp
  | .c => .bc disp
  | .nc => .bnc disp
  | .v => .bv disp
  | .nv => .bnv disp
  | .lt => .blt disp
  | .ge => .bge disp
  | .le => .ble disp
  | .gt => .bgt disp
  | .ltu => .bltu disp
  | .geu => .bgeu disp
  | .leu => .bleu disp
  | .gtu => .bgtu disp

/-- `imm L[15:4]` / `jal r0,L[3:0](r0)`: a far `br` (R238). -/
def farJump (target : Word) : List Instr := prefixedPair target (.jal 0#4 0#4)

/-- The complementary branch over the far jump (R238; "not yet implemented" in the source's assembler, log 32). -/
def farBranch (cond : Cond) (target : Word) : List Instr := cond.complement.instr 1#8 :: farJump target

/-! ### Result hazards (R232 to R235) -/

/-- The register an instruction writes (70_reset R350). -/
def Instr.dest : Instr → Option Reg
  | .add rd _ _ | .sub rd _ _ | .addi rd _ _ => some rd
  | .and rd _ | .or rd _ | .xor rd _ | .andn rd _ | .adc rd _ | .sbc rd _ => some rd
  | .andi rd _ | .ori rd _ | .xori rd _ | .andni rd _ | .adci rd _ | .sbci rd _ => some rd
  | .srli rd _ | .srai rd _ | .slli rd _ | .srxi rd _ | .slxi rd _ => some rd
  | .lw rd _ _ | .lb rd _ _ | .jal rd _ _ => some rd
  | .call _ => some 15#4
  | .sw _ _ _ | .sb _ _ _ | .imm _ | .br _ => none
  | .beq _ | .bne _ | .bc _ | .bnc _ | .bv _ | .bnv _ | .blt _ | .bge _ | .ble _ | .bgt _
  | .bltu _ | .bgeu _ | .bleu _ | .bgtu _ => none

/-- The register that may not be the previous result (70_reset R350). -/
def Instr.hazardReg : Instr → Option Reg
  | .add _ _ rb | .sub _ _ rb => some rb
  | .and _ rb | .or _ rb | .xor _ rb | .andn _ rb | .adc _ rb | .sbc _ rb => some rb
  | .sw rd _ _ | .sb rd _ _ => some rd
  | .addi _ _ _ | .lw _ _ _ | .lb _ _ _ | .jal _ _ _ | .call _ | .imm _ | .br _ => none
  | .andi _ _ | .ori _ _ | .xori _ _ | .andni _ _ | .adci _ _ | .sbci _ _ => none
  | .srli _ _ | .srai _ _ | .slli _ _ | .srxi _ _ | .slxi _ _ => none
  | .beq _ | .bne _ | .bc _ | .bnc _ | .bv _ | .bnv _ | .blt _ | .bge _ | .ble _ | .bgt _
  | .bltu _ | .bgeu _ | .bleu _ | .bgtu _ => none

/-- Whether an instruction right after one that left `dests` is undefined by R350. -/
def Instr.hazardAfter (dests : List Reg) (i : Instr) : Bool :=
  match Instr.hazardReg i with
  | some r => decide (r ∈ dests)
  | none => false

/-- Operand reordering (R232): add alone, where ra is not itself the previous result. -/
def Instr.reorder (dests : List Reg) : Instr → Option Instr
  | .add rd ra rb => if ra ∈ dests then none else some (.add rd rb ra)
  | _ => none

/-- Hazard removal over native instructions in address order (R232, R233, R235): reorder, else insert a nop. DESIGN
CHOICE (log 32): also between a carry producer and adc or sbc, where R233 leaves the assembler's doing open. -/
def removeHazards : List Reg → List Instr → List Instr
  | _, [] => []
  | dests, i :: is =>
    if Instr.hazardAfter dests i then
      match Instr.reorder dests i with
      | some i' => i' :: removeHazards (destSet (Instr.dest i')) is
      | none => nopInstr :: i :: removeHazards (destSet (Instr.dest i)) is
    else i :: removeHazards (destSet (Instr.dest i)) is

/-- No instruction has a result hazard on the one before it, the first on `dests` (70_reset R350). -/
def hazardFree : List Reg → List Instr → Bool
  | _, [] => true
  | dests, i :: is => !Instr.hazardAfter dests i && hazardFree (destSet (Instr.dest i)) is

/-- What hazard removal may make of a list (R232, R233): every instruction in its place, an add with its operands
swapped, and nops put in between. -/
inductive Repaired : List Instr → List Instr → Prop where
  | nil : Repaired [] []
  | keep (i : Instr) {is js : List Instr} : Repaired is js → Repaired (i :: is) (i :: js)
  | swap (rd ra rb : Reg) {is js : List Instr} :
      Repaired is js → Repaired (.add rd ra rb :: is) (.add rd rb ra :: js)
  | nop {is js : List Instr} : Repaired is js → Repaired is (nopInstr :: js)

/-! ### Directives (R240 to R242) -/

/-- The directives. -/
inductive Directive where
  | text
  | data
  | byte (v : Byte)
  | word (v : Word)
  | align (alignment : Nat)
deriving DecidableEq, Repr

/-- The two sections and which of them is current. -/
structure Sections where
  inData : Bool
  text : List Byte
  data : List Byte
deriving DecidableEq, Repr

/-- Bytes added to the current section. -/
def Sections.emit (s : Sections) (bytes : List Byte) : Sections :=
  if s.inData then { s with data := s.data ++ bytes } else { s with text := s.text ++ bytes }

/-- The length of the current section. -/
def Sections.length (s : Sections) : Nat := if s.inData then s.data.length else s.text.length

/-- R242: zero bytes until the length is a multiple of the alignment. -/
def padding (length alignment : Nat) : List Byte :=
  List.replicate ((alignment - length % alignment) % alignment) 0x00#8

/-- R240 to R242: a word goes most significant byte first; an alignment that is no power of two is refused. DESIGN
CHOICE (log 32): `word` does not align itself, which R241 leaves open. -/
def Sections.apply (s : Sections) : Directive → Option Sections
  | .text => some { s with inData := false }
  | .data => some { s with inData := true }
  | .byte v => some (s.emit [v])
  | .word v => some (s.emit [highByte v, lowByte v])
  | .align n => if n = 2 ^ n.log2 then some (s.emit (padding s.length n)) else none

/-- Native instructions added to the current section (R80). -/
def Sections.instrs (s : Sections) (is : List Instr) : Sections := s.emit (is.flatMap encodeBytes)

end Sys2Proof.Machine
end

