-- ==== Sys2Proof/Safety.lean ====
section
/-! DEFINITION. What counts as a good state and a completed step, in the terms the statements use. -/

namespace Sys2Proof.Machine

/-- A step or an instruction that completed. -/
def Completes (r : Result) (P : State → Prop) : Prop := ∃ t, r = .next t ∧ P t

/-- Instructions executed one after another, with no interrupt between them: the first that stops, stops the run. -/
def runInstrs : List Instr → State → Result
  | [], s => .next s
  | i :: is, s =>
    match exec i s with
    | .next t => runInstrs is t
    | .fault f => .fault f
    | .refused r => .refused r

/-! ### Frames: `s` before, `t` after -/

/-- Every byte of memory, the MMU, the parameters and inputs, the devices and the pending request are as before. -/
structure Kept (s t : State) : Prop where
  memory : ∀ x, t.mem.read x = s.mem.read x
  mmu : t.mmu = s.mmu
  platform : t.platform = s.platform
  requests : t.intRequests = s.intRequests
  pending : t.interruptPending = s.interruptPending
  devices : t.ioLog = s.ioLog
  counter : t.freeCount = s.freeCount

/-- What `PRE` leaves when no control transfer follows (30_encoding R90): the next sequential pc, no pending
prefix, and the code window of 20_memory R66 moved on by one word. -/
structure Sequential (s t : State) : Prop where
  pc : t.readPc = s.readPc + 2#16
  noPrefix : t.hasImmPrefix = false
  prefixBits : t.immPrefix = s.immPrefix
  windowNext : t.staleNext = s.staleSecond
  windowSecond : t.staleSecond = false
  settled : t.mmuChange = none

/-- A control transfer to `target`: the code window is empty (20_memory R66). -/
structure Transferred (s t : State) (target : Word) : Prop where
  pc : t.readPc = target
  noPrefix : t.hasImmPrefix = false
  prefixBits : t.immPrefix = s.immPrefix
  windowNext : t.staleNext = false
  windowSecond : t.staleSecond = false
  settled : t.mmuChange = none

/-- rd holds `v` unless it is r0, every other register is as before, and `prev` records it (10_state R30). -/
structure WritesReg (s t : State) (m : Mnemonic) (rd : Reg) (v : Word) : Prop where
  value : t.readReg rd = if rd = 0#4 then 0#16 else v
  others : ∀ r, r ≠ rd → t.readReg r = s.readReg r
  prev : t.prev = ⟨.instr m, if rd = 0#4 then [] else [rd]⟩

/-- No register is written (10_state R30). -/
structure WritesNoReg (s t : State) (m : Mnemonic) : Prop where
  registers : ∀ r, t.readReg r = s.readReg r
  prev : t.prev = ⟨.instr m, []⟩

/-- `a`, `b`, `carry_out` and `shift_out` are as before, the carry is no longer valid, and an interrupt can occur:
the invisible state after an instruction that is no carry producer, no shift and not interlocked. -/
structure Uninvolved (s t : State) : Prop where
  a : t.a = s.a
  b : t.b = s.b
  carryOut : t.carryOut = s.carryOut
  shiftOut : t.shiftOut = s.shiftOut
  carryValid : t.carryValid = false
  canInterrupt : t.canInterrupt = true

/-- The effect common to the seven arithmetic instructions (40_arithmetic): rd, the operands "as if add", the
carry or borrow, the interlock, and the frame. -/
structure ArithEffect (s t : State) (m : Mnemonic) (rd : Reg) (a : Word) (b result : Nat) (carry : Prop) : Prop where
  writes : WritesReg s t m rd (BitVec.ofNat 16 result)
  a : t.a = a
  b : t.b = BitVec.ofNat 16 b
  carryOut : t.carryOut = true ↔ carry
  carryValid : t.carryValid = true
  interlocked : t.canInterrupt = false
  shiftOut : t.shiftOut = s.shiftOut
  sequential : Sequential s t
  kept : Kept s t

/-- The effect common to the logical instructions and loads from memory: rd and the frame. -/
structure ResultEffect (s t : State) (m : Mnemonic) (rd : Reg) (v : Word) : Prop where
  writes : WritesReg s t m rd v
  uninvolved : Uninvolved s t
  sequential : Sequential s t
  kept : Kept s t

/-- The effect common to the shifts (42_shift R150): rd, the bit shifted out, and the frame. -/
structure ShiftEffect (s t : State) (m : Mnemonic) (rd : Reg) (v : Word) (out : Bool) : Prop where
  writes : WritesReg s t m rd v
  shiftOut : t.shiftOut = out
  a : t.a = s.a
  b : t.b = s.b
  carryOut : t.carryOut = s.carryOut
  carryValid : t.carryValid = false
  canInterrupt : t.canInterrupt = true
  sequential : Sequential s t
  kept : Kept s t

/-- The frame of a store, but for memory, the MMU, the devices, the counter and the code window (43_load_store R166). -/
structure StoreFrame (s t : State) (m : Mnemonic) : Prop where
  writes : WritesNoReg s t m
  uninvolved : Uninvolved s t
  pc : t.readPc = s.readPc + 2#16
  noPrefix : t.hasImmPrefix = false
  prefixBits : t.immPrefix = s.immPrefix
  platform : t.platform = s.platform
  requests : t.intRequests = s.intRequests
  pending : t.interruptPending = s.interruptPending

/-- The effect of a branch (44_branch R197): nothing but pc, taken or not. -/
structure BranchEffect (s t : State) (m : Mnemonic) (disp : BitVec 8) (taken : Prop) : Prop where
  writes : WritesNoReg s t m
  uninvolved : Uninvolved s t
  kept : Kept s t
  whenTaken : taken → Transferred s t (s.readPc + 4#16 + 2#16 * disp.signExtend 16)
  whenNot : ¬ taken → Sequential s t

/-- One instruction and then a branch complete, and the branch is taken when `taken` holds and only then; pc is
counted from the first of the two (44_branch R180). -/
def BranchesWhen (first : List Instr) (branch : Instr) (taken : Prop) (disp : BitVec 8) (s : State) : Prop :=
  Completes (runInstrs (first ++ [branch]) s) fun t =>
    (taken → t.readPc = s.readPc + 6#16 + 2#16 * disp.signExtend 16) ∧ (¬ taken → t.readPc = s.readPc + 4#16)

/-- The ten relational branches with what each compares (44_branch R198). -/
def relations (x y : Word) (disp : BitVec 8) : List (Instr × Prop) :=
  [(.beq disp, x = y), (.bne disp, x ≠ y),
   (.blt disp, x.toInt < y.toInt), (.bge disp, y.toInt ≤ x.toInt),
   (.ble disp, x.toInt ≤ y.toInt), (.bgt disp, y.toInt < x.toInt),
   (.bltu disp, x.toNat < y.toNat), (.bgeu disp, y.toNat ≤ x.toNat),
   (.bleu disp, x.toNat ≤ y.toNat), (.bgtu disp, y.toNat < x.toNat)]

/-- The branches on the carry of a sum. -/
def sumCarries (x y : Word) (disp : BitVec 8) : List (Instr × Prop) :=
  [(.bc disp, 65536 ≤ x.toNat + y.toNat), (.bnc disp, x.toNat + y.toNat < 65536)]

/-- The branches on the signed overflow of a sum. -/
def sumOverflows (x y : Word) (disp : BitVec 8) : List (Instr × Prop) :=
  [(.bv disp, x.toInt + y.toInt < -32768 ∨ 32767 < x.toInt + y.toInt),
   (.bnv disp, -32768 ≤ x.toInt + y.toInt ∧ x.toInt + y.toInt ≤ 32767)]

/-- The state invariant. Each clause is a rule of the spec or of the model's own representation. -/
structure Inv (s : State) : Prop where
  /-- Memory is in canonical form (log 2). -/
  memory : Memory.wf s.mem = true
  /-- pc bit 0 is 0 (10_state R20). -/
  pcEven : s.pc.getLsbD 0 = false
  /-- r0's own cell holds 0 (10_state R22). -/
  zeroReg : s.regs.get 0 = 0#16
  /-- `prev.dests` never contains r0 (10_state R30, D5). -/
  destsNoZero : 0#4 ∉ s.prev.dests
  /-- `prev.dests` is a set. -/
  destsNodup : s.prev.dests.Nodup
  /-- A prefix is pending exactly after `imm` (10_state R29, 46_imm_prefix R221). -/
  prefixAfterImm : s.hasImmPrefix = true ↔ s.prev.kind = .instr .imm
  /-- The carry may be read only after a carry producer, or after `imm` (10_state R27, R30). -/
  carryAfterProducer : s.carryValid = true → ∃ m, s.prev.kind = .instr m ∧ (m ∈ carryProducers ∨ m = .imm)
  /-- Right after a carry producer the carry may be read (R27). -/
  producerCarry : ∀ m ∈ carryProducers, s.prev.kind = .instr m → s.carryValid = true
  /-- An interrupt cannot occur exactly after an interlocked instruction (60_exceptions R303). -/
  interlock : s.canInterrupt = false ↔ ∃ m ∈ interlockedMnemonics, s.prev.kind = .instr m
  /-- The handler starts outside every interlocked sequence and every code window (60_exceptions R302). -/
  handlerEntry : s.prev.kind = .int → 14#4 ∈ s.prev.dests ∧ s.staleNext = false ∧ s.staleSecond = false
  /-- Only a store leaves the word at pc + 2 in the code window (20_memory R66). -/
  windowAfterStore : s.staleSecond = true → s.prev.kind = .instr .sw ∨ s.prev.kind = .instr .sb
  /-- Only a store leaves an MMU entry unsettled (60_exceptions R323); an interrupt entry may stand between. -/
  changeAfterStore :
    s.mmuChange ≠ none → s.prev.kind = .instr .sw ∨ s.prev.kind = .instr .sb ∨ s.prev.kind = .int

end Sys2Proof.Machine
end

