-- ==== Sys2Proof/WellFormed.lean ====
section
/-! DEFINITION. Well-formed instructions. Every field is exactly as wide as its bits, so every term has an
encoding and no range is left to check (30_encoding R81: "no format has a don't-care bit"); what is checked is
that the spec gives the instruction a meaning in some context: the count of a shift (42_shift R152). -/

namespace Sys2Proof

/-- R152: "the defined encodings are the field value 1". A well-formed shift can still stop in a given state
(under a prefix other than 0x000, R152; slxi and srxi without a shift before them, R151). -/
def Instr.WellFormed : Instr → Bool
  | .srli _ n => n == 1#4
  | .srai _ n => n == 1#4
  | .slli _ n => n == 1#4
  | .srxi _ n => n == 1#4
  | .slxi _ n => n == 1#4
  | .add _ _ _ | .sub _ _ _ | .addi _ _ _ => true
  | .and _ _ | .or _ _ | .xor _ _ | .andn _ _ | .adc _ _ | .sbc _ _ => true
  | .andi _ _ | .ori _ _ | .xori _ _ | .andni _ _ | .adci _ _ | .sbci _ _ => true
  | .lw _ _ _ | .lb _ _ _ | .sw _ _ _ | .sb _ _ _ | .jal _ _ _ => true
  | .br _ | .beq _ | .bne _ | .bc _ | .bnc _ | .bv _ | .bnv _ | .blt _ | .bge _ | .ble _ | .bgt _ => true
  | .bltu _ | .bgeu _ | .bleu _ | .bgtu _ | .call _ | .imm _ => true

end Sys2Proof
end

