-- ==== Sys2Proof/Certificates/Slice0/Obligations.lean ====
section
/-! DEFINITION. The statements for the provers. Each says which rule of spec/ it formalises; frames and effects
are the structures of Safety.lean. -/

open Sys2Proof Sys2Proof.Machine

/-! ### Operands, registers, memory -/

/-- R91 to R93: the immediates, with and without a pending prefix. -/
def Obligations.ImmediateForms : Prop :=
  ∀ (s : State) (imm : BitVec 4),
    (s.hasImmPrefix = true →
      (s.immSext imm).toNat = 16 * s.immPrefix.toNat + imm.toNat ∧ s.immByte imm = s.immSext imm ∧
      s.immWord imm = s.immSext imm) ∧
    (s.hasImmPrefix = false →
      (s.immSext imm).toInt = imm.toInt ∧ (s.immByte imm).toNat = imm.toNat ∧
      (s.immWord imm).toNat = 16 * (imm.toNat % 2) + 2 * (imm.toNat / 2))

/-- R22: r0 reads 0 and its writes are ignored; every other register reads what was last written to it. -/
def Obligations.RegisterFile : Prop :=
  ∀ (s : State) (r x : Reg) (v : Word),
    s.readReg 0#4 = 0#16 ∧ s.writeReg 0#4 v = s ∧
    (s.writeReg r v).readReg x = if x = r ∧ r ≠ 0#4 then v else s.readReg x

/-- R52, R53, R56: in a memory in canonical form a word store lays its high byte at the lower address, is read
back whole and byte by byte, and leaves every other byte alone. -/
def Obligations.WordStoreIsBigEndian : Prop :=
  ∀ (s t : State) (pa : PhysAddr) (v : Word), Memory.wf s.mem = true →
    s.platform.isPopulated pa = true → s.platform.isPopulated (pa + 1#26) = true →
    s.writeWordAt (.memory pa) v = .ok t →
      Memory.wf t.mem = true ∧
      t.readWordAt (.memory pa) = .ok (v, t) ∧
      t.readByteAt (.memory pa) = .ok (highByte v, t) ∧
      t.readByteAt (.memory (pa + 1#26)) = .ok (lowByte v, t) ∧
      ∀ x, x ≠ pa.toNat → x ≠ (pa + 1#26).toNat → t.mem.read x = s.mem.read x

/-! ### Arithmetic -/

/-- R114: the encoding, the rb hazard, and the effect. That add records a carry is the spec's own decision D1 ("not
in the source's operation"), which the model follows (log 7). -/
def Obligations.AddSumsAndRecordsCarry : Prop :=
  ∀ (s : State) (rd ra rb : Reg),
    decodeWord (nibbles 0x0#4 rd ra rb) = .ok (.add rd ra rb) ∧
    (rb ∈ s.prev.dests → exec (.add rd ra rb) s = .fault .rbHazard) ∧
    (rb ∉ s.prev.dests → Completes (exec (.add rd ra rb) s) fun t =>
      ArithEffect s t .add rd (s.readReg ra) (s.readReg rb).toNat
        ((s.readReg ra).toNat + (s.readReg rb).toNat)
        (65536 ≤ (s.readReg ra).toNat + (s.readReg rb).toNat))

/-- R115. That sub records a borrow is the spec's own decision D1, which the model follows (log 7). -/
def Obligations.SubDiffersAndRecordsBorrow : Prop :=
  ∀ (s : State) (rd ra rb : Reg),
    decodeWord (nibbles 0x1#4 rd ra rb) = .ok (.sub rd ra rb) ∧
    (rb ∈ s.prev.dests → exec (.sub rd ra rb) s = .fault .rbHazard) ∧
    (rb ∉ s.prev.dests → Completes (exec (.sub rd ra rb) s) fun t =>
      ArithEffect s t .sub rd (s.readReg ra) (65536 - (s.readReg rb).toNat)
        ((s.readReg ra).toNat + (65536 - (s.readReg rb).toNat))
        ((s.readReg ra).toNat < (s.readReg rb).toNat))

/-- R116: the immediate is that of PRE_SEXT (R91). That addi records a carry is the spec's own decision D1, which the
model follows (log 7). -/
def Obligations.AddiAddsImmediate : Prop :=
  ∀ (s : State) (rd ra : Reg) (imm : BitVec 4),
    decodeWord (nibbles 0x2#4 rd ra imm) = .ok (.addi rd ra imm) ∧
    Completes (exec (.addi rd ra imm) s) fun t =>
      ArithEffect s t .addi rd (s.readReg ra) (s.immSext imm).toNat
        ((s.readReg ra).toNat + (s.immSext imm).toNat)
        (65536 ≤ (s.readReg ra).toNat + (s.immSext imm).toNat)

/-- R117, as the spec repairs it (D1). The model's choice (log 7): the carry in is the recorded one, whichever carry
producer recorded it, so that a chain after sub or sbc runs too, which U9 would make a fault. -/
def Obligations.AdcAddsCarry : Prop :=
  ∀ (s : State) (rd rb : Reg),
    decodeWord (nibbles 0x3#4 rd 0x4#4 rb) = .ok (.adc rd rb) ∧
    (rb ∈ s.prev.dests → exec (.adc rd rb) s = .fault .rbHazard) ∧
    (rb ∉ s.prev.dests → s.carryValid = false → exec (.adc rd rb) s = .fault .noCarryProducer) ∧
    (rb ∉ s.prev.dests → s.carryValid = true → Completes (exec (.adc rd rb) s) fun t =>
      ArithEffect s t .adc rd (s.readReg rd) (s.readReg rb).toNat
        ((s.readReg rd).toNat + (s.readReg rb).toNat + (if s.carryOut then 1 else 0))
        (65536 ≤ (s.readReg rd).toNat + (s.readReg rb).toNat + (if s.carryOut then 1 else 0)))

/-- R118, as the spec repairs it (D1: the borrow, where the source has carry_sum). The model's choice (log 7): the
recorded bit is consumed as a borrow whichever carry producer recorded it, add and adc included. -/
def Obligations.SbcSubtractsBorrow : Prop :=
  ∀ (s : State) (rd rb : Reg),
    decodeWord (nibbles 0x3#4 rd 0x5#4 rb) = .ok (.sbc rd rb) ∧
    (rb ∈ s.prev.dests → exec (.sbc rd rb) s = .fault .rbHazard) ∧
    (rb ∉ s.prev.dests → s.carryValid = false → exec (.sbc rd rb) s = .fault .noCarryProducer) ∧
    (rb ∉ s.prev.dests → s.carryValid = true → Completes (exec (.sbc rd rb) s) fun t =>
      ArithEffect s t .sbc rd (s.readReg rd) (65536 - (s.readReg rb).toNat)
        ((s.readReg rd).toNat + (65536 - (s.readReg rb).toNat) + (65536 - (if s.carryOut then 1 else 0)))
        ((s.readReg rd).toNat < (s.readReg rb).toNat + (if s.carryOut then 1 else 0)))

/-- R119, as the spec repairs it (D1). The model's choice (log 7): a chain after sub, sbc or sbci runs too. -/
def Obligations.AdciAddsCarryAndImmediate : Prop :=
  ∀ (s : State) (rd : Reg) (imm : BitVec 4),
    decodeWord (nibbles 0x4#4 rd 0x4#4 imm) = .ok (.adci rd imm) ∧
    (s.carryValid = false → exec (.adci rd imm) s = .fault .noCarryProducer) ∧
    (s.carryValid = true → Completes (exec (.adci rd imm) s) fun t =>
      ArithEffect s t .adci rd (s.readReg rd) (s.immSext imm).toNat
        ((s.readReg rd).toNat + (s.immSext imm).toNat + (if s.carryOut then 1 else 0))
        (65536 ≤ (s.readReg rd).toNat + (s.immSext imm).toNat + (if s.carryOut then 1 else 0)))

/-- R120, as the spec repairs it (D1: the borrow, where the source has carry_sum). The model's choice (log 7): a chain
after add, addi, adc or adci runs too. -/
def Obligations.SbciSubtractsBorrowAndImmediate : Prop :=
  ∀ (s : State) (rd : Reg) (imm : BitVec 4),
    decodeWord (nibbles 0x4#4 rd 0x5#4 imm) = .ok (.sbci rd imm) ∧
    (s.carryValid = false → exec (.sbci rd imm) s = .fault .noCarryProducer) ∧
    (s.carryValid = true → Completes (exec (.sbci rd imm) s) fun t =>
      ArithEffect s t .sbci rd (s.readReg rd) (65536 - (s.immSext imm).toNat)
        ((s.readReg rd).toNat + (65536 - (s.immSext imm).toNat) + (65536 - (if s.carryOut then 1 else 0)))
        ((s.readReg rd).toNat < (s.immSext imm).toNat + (if s.carryOut then 1 else 0)))

/-! ### Logical -/

/-- R131 to R134, whole: and, or, xor, andn. -/
def Obligations.LogicalRegisterForms : Prop :=
  ∀ (s : State) (rd rb : Reg),
    ∀ p ∈ [(Instr.and rd rb, (0x0#4, s.readReg rd &&& s.readReg rb)),
           (Instr.or rd rb, (0x1#4, s.readReg rd ||| s.readReg rb)),
           (Instr.xor rd rb, (0x2#4, s.readReg rd ^^^ s.readReg rb)),
           (Instr.andn rd rb, (0x3#4, s.readReg rd &&& ~~~ s.readReg rb))],
      decodeWord (nibbles 0x3#4 rd p.2.1 rb) = .ok p.1 ∧
      (rb ∈ s.prev.dests → exec p.1 s = .fault .rbHazard) ∧
      (rb ∉ s.prev.dests → Completes (exec p.1 s) fun t => ResultEffect s t p.1.mnemonic rd p.2.2)

/-- R135 to R138, whole: andi, ori, xori, andni. -/
def Obligations.LogicalImmediateForms : Prop :=
  ∀ (s : State) (rd : Reg) (imm : BitVec 4),
    ∀ p ∈ [(Instr.andi rd imm, (0x0#4, s.readReg rd &&& s.immSext imm)),
           (Instr.ori rd imm, (0x1#4, s.readReg rd ||| s.immSext imm)),
           (Instr.xori rd imm, (0x2#4, s.readReg rd ^^^ s.immSext imm)),
           (Instr.andni rd imm, (0x3#4, s.readReg rd &&& ~~~ s.immSext imm))],
      decodeWord (nibbles 0x4#4 rd p.2.1 imm) = .ok p.1 ∧
      Completes (exec p.1 s) fun t => ResultEffect s t p.1.mnemonic rd p.2.2

/-! ### Shifts -/

/-- R153, R155, R156, whole: doubling, halving and arithmetic halving, with the bit shifted out. -/
def Obligations.PlainShifts : Prop :=
  ∀ (s : State) (rd : Reg) (imm : BitVec 4),
    ∀ p ∈ [(Instr.slli rd imm, (0x8#4, (BitVec.ofNat 16 (2 * (s.readReg rd).toNat), (s.readReg rd).getLsbD 15))),
           (Instr.srli rd imm, (0x6#4, (BitVec.ofNat 16 ((s.readReg rd).toNat / 2), (s.readReg rd).getLsbD 0))),
           (Instr.srai rd imm, (0x7#4, (BitVec.ofInt 16 ((s.readReg rd).toInt / 2), (s.readReg rd).getLsbD 0)))],
      decodeWord (nibbles 0x4#4 rd p.2.1 imm) = .ok p.1 ∧
      (s.immSext imm ≠ 1#16 → exec p.1 s = .fault .shiftCountNotOne) ∧
      (s.immSext imm = 1#16 → Completes (exec p.1 s) fun t =>
        ShiftEffect s t p.1.mnemonic rd p.2.2.1 p.2.2.2)

/-- R154, R157, whole: the bit shifted out before enters the vacated place. -/
def Obligations.ExtendedShifts : Prop :=
  ∀ (s : State) (rd : Reg) (imm : BitVec 4),
    ∀ p ∈ [(Instr.slxi rd imm, (0xA#4,
              (BitVec.ofNat 16 (2 * (s.readReg rd).toNat + (if s.shiftOut then 1 else 0)), (s.readReg rd).getLsbD 15))),
           (Instr.srxi rd imm, (0x9#4,
              (BitVec.ofNat 16 ((if s.shiftOut then 32768 else 0) + (s.readReg rd).toNat / 2), (s.readReg rd).getLsbD 0)))],
      decodeWord (nibbles 0x4#4 rd p.2.1 imm) = .ok p.1 ∧
      (s.immSext imm ≠ 1#16 → exec p.1 s = .fault .shiftCountNotOne) ∧
      (s.immSext imm = 1#16 → s.prev.kind.isShift = false → exec p.1 s = .fault .noShiftBefore) ∧
      (s.immSext imm = 1#16 → s.prev.kind.isShift = true → Completes (exec p.1 s) fun t =>
        ShiftEffect s t p.1.mnemonic rd p.2.2.1 p.2.2.2)

/-! ### Loads and stores -/

/-- R167 for an address in memory: the encoding, an odd address, the value, and the stop at an unpopulated address,
which is R62's (D12). The model's choice (log 36): with the MMU, MEM_POPULATED is asked about the translated address. -/
def Obligations.LoadWordFromMemory : Prop :=
  ∀ (s : State) (rd ra : Reg) (imm : BitVec 4) (ea : Word), ea = s.readReg ra + s.immWord imm →
    decodeWord (nibbles 0x5#4 rd ra imm) = .ok (.lw rd ra imm) ∧
    (ea.toNat % 2 = 1 → exec (.lw rd ra imm) s = .fault .misalignedWord) ∧
    (ea.toNat % 2 = 0 → ∀ pa, s.locate ea = .memory pa →
      ((s.platform.isPopulated pa && s.platform.isPopulated (pa + 1#26)) = false →
        exec (.lw rd ra imm) s = .fault .unpopulatedAddress) ∧
      ((s.platform.isPopulated pa && s.platform.isPopulated (pa + 1#26)) = true →
        Completes (exec (.lw rd ra imm) s) fun t =>
          ResultEffect s t .lw rd
            (BitVec.ofNat 16 (256 * (s.mem.read pa.toNat).toNat + (s.mem.read (pa + 1#26).toNat).toNat))))

/-- R168 for an address in memory: zero extension, and the stop at an unpopulated address, which is R62's (D12). The
model's choice (log 36): with the MMU, MEM_POPULATED is asked about the translated address. -/
def Obligations.LoadByteFromMemory : Prop :=
  ∀ (s : State) (rd ra : Reg) (imm : BitVec 4) (ea : Word), ea = s.readReg ra + s.immByte imm →
    decodeWord (nibbles 0x6#4 rd ra imm) = .ok (.lb rd ra imm) ∧
    (∀ pa, s.locate ea = .memory pa →
      (s.platform.isPopulated pa = false → exec (.lb rd ra imm) s = .fault .unpopulatedAddress) ∧
      (s.platform.isPopulated pa = true → Completes (exec (.lb rd ra imm) s) fun t =>
        ResultEffect s t .lb rd (BitVec.ofNat 16 (s.mem.read pa.toNat).toNat)))

/-- R169 for an address in memory on a writable page: the two bytes at the address the meaning computes change, and
no other byte does; and the stop at an unpopulated address, which is R62's (D12). The model's choice (log 36): with
the MMU, MEM_POPULATED is asked about the translated address. -/
def Obligations.StoreWordToMemory : Prop :=
  ∀ (s : State) (rd ra : Reg) (imm : BitVec 4) (ea : Word), ea = s.wordAddress ra imm →
    decodeWord (nibbles 0x8#4 rd ra imm) = .ok (.sw rd ra imm) ∧
    (rd ∈ s.prev.dests → exec (.sw rd ra imm) s = .fault .storeDataHazard) ∧
    (rd ∉ s.prev.dests → ea.toNat % 2 = 1 → exec (.sw rd ra imm) s = .fault .misalignedWord) ∧
    (rd ∉ s.prev.dests → ea.toNat % 2 = 0 → s.writable ea = true → ∀ pa, s.locate ea = .memory pa →
      ((s.platform.isPopulated pa && s.platform.isPopulated (pa + 1#26)) = false →
        exec (.sw rd ra imm) s = .fault .unpopulatedAddress) ∧
      ((s.platform.isPopulated pa && s.platform.isPopulated (pa + 1#26)) = true → Memory.wf s.mem = true →
        Completes (exec (.sw rd ra imm) s) fun t =>
          StoreFrame s t .sw ∧ t.mmu = s.mmu ∧ t.mmuChange = none ∧ t.ioLog = s.ioLog ∧ t.freeCount = s.freeCount ∧
          t.mem.read pa.toNat = highByte (s.readReg rd) ∧
          t.mem.read (pa + 1#26).toNat = lowByte (s.readReg rd) ∧
          ∀ x, x ≠ pa.toNat → x ≠ (pa + 1#26).toNat → t.mem.read x = s.mem.read x))

/-- R170 for an address in memory on a writable page, and the stop at an unpopulated address, which is R62's (D12).
The model's choice (log 36): with the MMU, MEM_POPULATED is asked about the translated address. -/
def Obligations.StoreByteToMemory : Prop :=
  ∀ (s : State) (rd ra : Reg) (imm : BitVec 4) (ea : Word), ea = s.byteAddress ra imm →
    decodeWord (nibbles 0x9#4 rd ra imm) = .ok (.sb rd ra imm) ∧
    (rd ∈ s.prev.dests → exec (.sb rd ra imm) s = .fault .storeDataHazard) ∧
    (rd ∉ s.prev.dests → s.writable ea = true → ∀ pa, s.locate ea = .memory pa →
      (s.platform.isPopulated pa = false → exec (.sb rd ra imm) s = .fault .unpopulatedAddress) ∧
      (s.platform.isPopulated pa = true → Memory.wf s.mem = true →
        Completes (exec (.sb rd ra imm) s) fun t =>
          StoreFrame s t .sb ∧ t.mmu = s.mmu ∧ t.mmuChange = none ∧ t.ioLog = s.ioLog ∧ t.freeCount = s.freeCount ∧
          t.mem.read pa.toNat = BitVec.ofNat 8 ((s.readReg rd).toNat % 256) ∧
          ∀ x, x ≠ pa.toNat → t.mem.read x = s.mem.read x))

/-- R322: on a page whose entry has bit 15 clear, a store completes and changes nothing in memory, the MMU or the
devices; loads and fetches of populated memory go through whatever bit 15 is. The model's choices in the load and
fetch clauses: MEM_POPULATED is asked about the translated address (log 36), and a fetch is translated even through an
entry that nothing has written since reset, where 93 U16 offers a fault (log 19). -/
def Obligations.UnwritableStoreIsDiscarded : Prop :=
  ∀ (s : State) (rd ra : Reg) (imm : BitVec 4), s.platform.mmuPresent = true →
    (rd ∉ s.prev.dests → s.platform.inIo (s.wordAddress ra imm) = false → (s.wordAddress ra imm).toNat % 2 = 0 →
      (s.mmu.get (pageOf (s.wordAddress ra imm)).toFin).getLsbD 15 = false →
      Completes (exec (.sw rd ra imm) s) fun t =>
        Kept s t ∧ Sequential s t ∧ WritesNoReg s t .sw ∧ Uninvolved s t) ∧
    (rd ∉ s.prev.dests → s.platform.inIo (s.byteAddress ra imm) = false →
      (s.mmu.get (pageOf (s.byteAddress ra imm)).toFin).getLsbD 15 = false →
      Completes (exec (.sb rd ra imm) s) fun t =>
        Kept s t ∧ Sequential s t ∧ WritesNoReg s t .sb ∧ Uninvolved s t) ∧
    (∀ pa, s.locate (s.wordAddress ra imm) = .memory pa → (s.wordAddress ra imm).toNat % 2 = 0 →
      s.platform.isPopulated pa = true → s.platform.isPopulated (pa + 1#26) = true →
      Completes (exec (.lw rd ra imm) s) fun t => Kept s t ∧ Sequential s t) ∧
    (∀ pa, s.locate (s.byteAddress ra imm) = .memory pa → s.platform.isPopulated pa = true →
      Completes (exec (.lb rd ra imm) s) fun t => Kept s t ∧ Sequential s t) ∧
    (∀ pa, s.locate s.readPc = .memory pa → s.staleNext = false → s.mmuChange = none →
      s.platform.isPopulated pa = true → s.platform.isPopulated (pa + 1#26) = true →
      s.fetch = .ok (wordOfBytes (s.mem.read pa.toNat) (s.mem.read (pa + 1#26).toNat), s))

/-- R321, whole: with the MMU and the spec's PA_WIDTH of 26 (or more, which is the same), an address outside I/O space
goes to the page its entry names and is writable as bit 15 of the entry says. Without the MMU, virtual is physical
and always writable (20_memory R50). A narrower PA_WIDTH and I/O space are `WhereAddressesGo`. -/
def Obligations.TranslationFormula : Prop :=
  ∀ (s : State) (va : Word), s.platform.inIo va = false →
    (s.platform.mmuPresent = true →
      s.writable va = (s.mmu.get (BitVec.ofNat 4 (va.toNat / 4096)).toFin).getLsbD 15 ∧
      (26 ≤ s.platform.paWidth → ∃ pa, s.locate va = .memory pa ∧
        pa.toNat = (s.mmu.get (BitVec.ofNat 4 (va.toNat / 4096)).toFin).toNat % 16384 * 4096 + va.toNat % 4096)) ∧
    (s.platform.mmuPresent = false →
      s.writable va = true ∧ ∃ pa, s.locate va = .memory pa ∧ pa.toNat = va.toNat)

/-- R323, R60, R316, R320: I/O space is what IO_BASE and IO_SIZE say; there the MMU's entries decide nothing, a store
takes effect, and the address goes untranslated to the MMU's registers, to a device, or, with no device, nowhere: the
access stops as one outside MEM_POPULATED. The model's choices: the MMU's 32 bytes are the first of I/O space wherever
it begins (log 34); of a narrower physical space the low PA_WIDTH bits count (log 35). -/
def Obligations.WhereAddressesGo : Prop :=
  ∀ (s : State) (va : Word),
    (s.platform.inIo va = true ↔
      s.platform.ioBase ≤ va.toNat ∧ va.toNat < s.platform.ioBase + s.platform.ioSize) ∧
    (s.platform.inIo va = true →
      s.writable va = true ∧ (∀ mmu, ({ s with mmu := mmu } : State).locate va = s.locate va) ∧
      (∀ k : BitVec 5, s.platform.mmuPresent = true → va.toNat = s.platform.ioBase + k.toNat →
        s.locate va = .mmuReg k) ∧
      (s.platform.mmuPresent = false ∨ s.platform.ioBase + 32 ≤ va.toNat →
        s.locate va = if s.platform.ioDevice then .device va else .absent va)) ∧
    (s.platform.inIo va = false → s.platform.mmuPresent = true → ∃ pa, s.locate va = .memory pa ∧
      pa.toNat = ((s.mmu.get (BitVec.ofNat 4 (va.toNat / 4096)).toFin).toNat % 16384 * 4096 + va.toNat % 4096) %
        2 ^ s.platform.paWidth) ∧
    (∀ (rd ra : Reg) (imm : BitVec 4),
      (s.locate (s.wordAddress ra imm) = .absent va → (s.wordAddress ra imm).toNat % 2 = 0 →
        exec (.lw rd ra imm) s = .fault .unpopulatedAddress ∧
        (rd ∉ s.prev.dests → exec (.sw rd ra imm) s = .fault .unpopulatedAddress)) ∧
      (s.locate (s.byteAddress ra imm) = .absent va →
        exec (.lb rd ra imm) s = .fault .unpopulatedAddress ∧
        (rd ∉ s.prev.dests → exec (.sb rd ra imm) s = .fault .unpopulatedAddress))) ∧
    (s.fetchLocation = .absent va → s.staleNext = false → step s = .fault .unpopulatedAddress)

/-- R320, R323: with the MMU, a word at the even offset 2*i of its registers is mmu[i], whole, bit 14 with it: sw
writes it, lw reads it, memory is not touched. Where the registers lie is `WhereAddressesGo`. The model's device for
the point R323 leaves open (log 20): the entry and its old value stay noted until the next instruction completes, and
the very next fetch goes where the new entry or the old one says. -/
def Obligations.MmuEntriesAreMemoryMapped : Prop :=
  ∀ (s : State) (rd ra : Reg) (imm : BitVec 4) (off : BitVec 5),
    (s.wordAddress ra imm).toNat % 2 = 0 → s.locate (s.wordAddress ra imm) = .mmuReg off →
    Completes (exec (.lw rd ra imm) s) (fun t =>
      ResultEffect s t .lw rd (s.mmu.get (off.extractLsb' 1 4).toFin)) ∧
    (rd ∉ s.prev.dests →
      Completes (exec (.sw rd ra imm) s) fun t =>
        StoreFrame s t .sw ∧ t.mem = s.mem ∧ t.ioLog = s.ioLog ∧ t.freeCount = s.freeCount ∧
        t.mmu.get (off.extractLsb' 1 4).toFin = s.readReg rd ∧
        (∀ i : Fin 16, i ≠ (off.extractLsb' 1 4).toFin → t.mmu.get i = s.mmu.get i) ∧
        t.mmuChange = some (off.extractLsb' 1 4, s.mmu.get (off.extractLsb' 1 4).toFin) ∧
        (t.fetchLocation = t.platform.locate t.mmu t.readPc ∨ t.fetchLocation = t.platform.locate s.mmu t.readPc))

/-- The model's reading of the byte accesses to an MMU entry that R323 leaves open (log 21): lb reads the
big-endian half, sb makes the entry a free value, about which nothing is said, and draws it from the counter. -/
def Obligations.MmuByteAccessesComplete : Prop :=
  ∀ (s : State) (rd ra : Reg) (imm : BitVec 4) (off : BitVec 5),
    s.locate (s.byteAddress ra imm) = .mmuReg off →
    Completes (exec (.lb rd ra imm) s) (fun t =>
      ResultEffect s t .lb rd
        (BitVec.ofNat 16 (if off.toNat % 2 = 0 then (s.mmu.get (off.extractLsb' 1 4).toFin).toNat / 256
          else (s.mmu.get (off.extractLsb' 1 4).toFin).toNat % 256))) ∧
    (rd ∉ s.prev.dests →
      Completes (exec (.sb rd ra imm) s) fun t =>
        StoreFrame s t .sb ∧ t.mem = s.mem ∧ t.ioLog = s.ioLog ∧ t.freeCount = s.freeCount + 1 ∧
        (∀ i : Fin 16, i ≠ (off.extractLsb' 1 4).toFin → t.mmu.get i = s.mmu.get i) ∧
        t.mmuChange = some (off.extractLsb' 1 4, s.mmu.get (off.extractLsb' 1 4).toFin) ∧
        (t.fetchLocation = t.platform.locate t.mmu t.readPc ∨ t.fetchLocation = t.platform.locate s.mmu t.readPc))

/-- R316, R63 (log 16): with a device function, loads and stores to a device complete, reach the device in
program order and change nothing else but the register, pc and the bookkeeping; what a load reads is the device's
answer (of lb its low byte), about which nothing is said. A load's frame is taken from the state in which the device
has seen the access. -/
def Obligations.DeviceAccessesComplete : Prop :=
  ∀ (s : State) (rd ra : Reg) (imm : BitVec 4) (va : Word),
    (s.locate (s.wordAddress ra imm) = .device va → (s.wordAddress ra imm).toNat % 2 = 0 →
      Completes (exec (.lw rd ra imm) s) (fun t =>
        ResultEffect { s with ioLog := .read va .word :: s.ioLog } t .lw rd (Config.deviceRead s.ioLog va .word)) ∧
      (rd ∉ s.prev.dests →
        Completes (exec (.sw rd ra imm) s) fun t =>
          StoreFrame s t .sw ∧ t.ioLog = .write va .word (s.readReg rd) :: s.ioLog ∧ t.mem = s.mem ∧ t.mmu = s.mmu ∧
          t.mmuChange = none ∧ t.freeCount = s.freeCount)) ∧
    (s.locate (s.byteAddress ra imm) = .device va →
      Completes (exec (.lb rd ra imm) s) (fun t =>
        ResultEffect { s with ioLog := .read va .byte :: s.ioLog } t .lb rd
          (BitVec.ofNat 16 ((Config.deviceRead s.ioLog va .byte).toNat % 256))) ∧
      (rd ∉ s.prev.dests →
        Completes (exec (.sb rd ra imm) s) fun t =>
          StoreFrame s t .sb ∧ t.ioLog = .write va .byte (BitVec.ofNat 16 ((s.readReg rd).toNat % 256)) :: s.ioLog ∧
          t.mem = s.mem ∧ t.mmu = s.mmu ∧ t.mmuChange = none ∧ t.freeCount = s.freeCount))

/-! ### Branches -/

/-- R182 to R187, whole: the branches on equality and on the carry and overflow of the sum. -/
def Obligations.EqualityAndSumBranches : Prop :=
  ∀ (s : State) (disp : BitVec 8),
    ∀ p ∈ ([(Instr.beq disp, 0x2#4, s.a = -s.b),
            (Instr.bne disp, 0x3#4, s.a ≠ -s.b),
            (Instr.bc disp, 0x4#4, 65536 ≤ s.a.toNat + s.b.toNat),
            (Instr.bnc disp, 0x5#4, s.a.toNat + s.b.toNat < 65536),
            (Instr.bv disp, 0x6#4, s.a.toInt + s.b.toInt < -32768 ∨ 32767 < s.a.toInt + s.b.toInt),
            (Instr.bnv disp, 0x7#4, -32768 ≤ s.a.toInt + s.b.toInt ∧ s.a.toInt + s.b.toInt ≤ 32767)] :
            List (Instr × BitVec 4 × Prop)),
      decodeWord (encodeBR p.2.1 disp) = .ok p.1 ∧
      (s.prev.kind.isBranchPrefix = false → exec p.1 s = .fault .noBranchPrefix) ∧
      (s.prev.kind.isBranchPrefix = true → Completes (exec p.1 s) fun t =>
        BranchEffect s t p.1.mnemonic disp p.2.2)

/-- R188 to R195, whole: the signed and unsigned relational branches. -/
def Obligations.RelationalBranches : Prop :=
  ∀ (s : State) (disp : BitVec 8),
    ∀ p ∈ ([(Instr.blt disp, 0x8#4, s.a.toInt < (-s.b).toInt),
            (Instr.bge disp, 0x9#4, s.a.toInt ≥ (-s.b).toInt),
            (Instr.ble disp, 0xA#4, s.a.toInt ≤ (-s.b).toInt),
            (Instr.bgt disp, 0xB#4, s.a.toInt > (-s.b).toInt),
            (Instr.bltu disp, 0xC#4, s.a.toNat < (-s.b).toNat),
            (Instr.bgeu disp, 0xD#4, s.a.toNat ≥ (-s.b).toNat),
            (Instr.bleu disp, 0xE#4, s.a.toNat ≤ (-s.b).toNat),
            (Instr.bgtu disp, 0xF#4, s.a.toNat > (-s.b).toNat)] :
            List (Instr × BitVec 4 × Prop)),
      decodeWord (encodeBR p.2.1 disp) = .ok p.1 ∧
      (s.prev.kind.isBranchPrefix = false → exec p.1 s = .fault .noBranchPrefix) ∧
      (s.prev.kind.isBranchPrefix = true → Completes (exec p.1 s) fun t =>
        BranchEffect s t p.1.mnemonic disp p.2.2)

/-- R196, whole: br is taken in every state. -/
def Obligations.BrAlwaysBranches : Prop :=
  ∀ (s : State) (disp : BitVec 8),
    decodeWord (encodeBR 0x0#4 disp) = .ok (.br disp) ∧
    Completes (exec (.br disp) s) fun t => BranchEffect s t .br disp True

/-- R198, whole: after `sub` (so after `cmp`) and after `addi` (so after `cmpi`) the ten relational branches
compare the operands as they were; bc, bnc, bv, bnv test the sum, with the edges after `sub` that the rule names. -/
def Obligations.CompareThenBranch : Prop :=
  ∀ (s : State) (rd ra rb : Reg) (imm : BitVec 4) (disp : BitVec 8),
    (rb ∉ s.prev.dests →
      (∀ p ∈ relations (s.readReg ra) (s.readReg rb) disp, BranchesWhen [.sub rd ra rb] p.1 p.2 disp s) ∧
      (∀ p ∈ ([(Instr.bc disp, s.readReg rb ≠ 0#16 ∧ (s.readReg rb).toNat ≤ (s.readReg ra).toNat),
               (Instr.bnc disp, ¬ (s.readReg rb ≠ 0#16 ∧ (s.readReg rb).toNat ≤ (s.readReg ra).toNat))] :
               List (Instr × Prop)), BranchesWhen [.sub rd ra rb] p.1 p.2 disp s) ∧
      (∀ p ∈ sumOverflows (s.readReg ra) (-s.readReg rb) disp, BranchesWhen [.sub rd ra rb] p.1 p.2 disp s) ∧
      (s.readReg rb = 0x8000#16 →
        BranchesWhen [.sub rd ra rb] (.bv disp) ((s.readReg ra).toInt < 0) disp s) ∧
      (∀ p ∈ sumCarries (s.readReg ra) (s.readReg rb) disp ++ sumOverflows (s.readReg ra) (s.readReg rb) disp,
        BranchesWhen [.add rd ra rb] p.1 p.2 disp s)) ∧
    (∀ p ∈ relations (s.readReg ra) (-s.immSext imm) disp ++ sumCarries (s.readReg ra) (s.immSext imm) disp ++
        sumOverflows (s.readReg ra) (s.immSext imm) disp,
      BranchesWhen [.addi rd ra imm] p.1 p.2 disp s)

/-! ### Jumps and the prefix -/

/-- R210, whole: jal in every state; the target comes from the old value of ra. -/
def Obligations.JalJumpsAndLinks : Prop :=
  ∀ (s : State) (rd ra : Reg) (imm : BitVec 4),
    decodeWord (nibbles 0xA#4 rd ra imm) = .ok (.jal rd ra imm) ∧
    Completes (exec (.jal rd ra imm) s) fun t =>
      WritesReg s t .jal rd (s.readPc + 2#16) ∧ Uninvolved s t ∧ Kept s t ∧
      Transferred s t (BitVec.ofNat 16 ((s.readReg ra + s.immWord imm).toNat / 2 * 2))

/-- R211, whole: call in every state. -/
def Obligations.CallJumpsAndLinks : Prop :=
  ∀ (s : State) (imm12 : BitVec 12),
    decodeWord (encodeI12 0xC#4 imm12) = .ok (.call imm12) ∧
    Completes (exec (.call imm12) s) fun t =>
      WritesReg s t .call 15#4 (s.readPc + 2#16) ∧ Uninvolved s t ∧ Kept s t ∧
      Transferred s t (BitVec.ofNat 16 (16 * imm12.toNat))

/-- R220, whole: imm in every state; the one instruction that leaves the carry's validity as it is. -/
def Obligations.ImmRecordsPrefix : Prop :=
  ∀ (s : State) (imm12 : BitVec 12),
    decodeWord (encodeI12 0xD#4 imm12) = .ok (.imm imm12) ∧
    Completes (exec (.imm imm12) s) fun t =>
      t.hasImmPrefix = true ∧ t.immPrefix = imm12 ∧ t.canInterrupt = false ∧ t.readPc = s.readPc + 2#16 ∧
      WritesNoReg s t .imm ∧ Kept s t ∧
      t.a = s.a ∧ t.b = s.b ∧ t.carryOut = s.carryOut ∧ t.shiftOut = s.shiftOut ∧ t.carryValid = s.carryValid ∧
      t.staleNext = s.staleSecond ∧ t.staleSecond = false ∧ t.mmuChange = none

/-- R221: right after imm every immediate is `imm12 || field`; after the instruction that follows no prefix is
pending, unless it is another imm, which replaces it. -/
def Obligations.PrefixServesOneInstruction : Prop :=
  ∀ (s : State) (hi : BitVec 12),
    Completes (exec (.imm hi) s) fun t =>
      (∀ f : BitVec 4, (t.immSext f).toNat = 16 * hi.toNat + f.toNat ∧
        (t.immByte f).toNat = 16 * hi.toNat + f.toNat ∧ (t.immWord f).toNat = 16 * hi.toNat + f.toNat) ∧
      ∀ (i : Instr) (u : State), exec i t = .next u →
        match i with
        | .imm hi2 => u.hasImmPrefix = true ∧ u.immPrefix = hi2
        | _ => u.hasImmPrefix = false

/-! ### Interrupts -/

/-- R301: the interrupt entry, and that without its condition nothing changes. -/
def Obligations.InterruptEntry : Prop :=
  ∀ s : State,
    (s.interruptPending = true → s.canInterrupt = true →
      (∀ r, s.interruptCheck.readReg r = if r = 14#4 then s.readPc else s.readReg r) ∧
      s.interruptCheck.readPc = 0x0010#16 ∧ s.interruptCheck.interruptPending = false ∧
      s.interruptCheck.prev.kind = .int ∧
      (∀ r, r ∈ s.interruptCheck.prev.dests ↔ r = 14#4 ∨ r ∈ s.prev.dests) ∧
      s.interruptCheck.carryValid = false ∧
      s.interruptCheck.mem = s.mem ∧ s.interruptCheck.mmu = s.mmu ∧ s.interruptCheck.mmuChange = s.mmuChange ∧
      s.interruptCheck.a = s.a ∧ s.interruptCheck.b = s.b ∧ s.interruptCheck.carryOut = s.carryOut ∧
      s.interruptCheck.shiftOut = s.shiftOut ∧ s.interruptCheck.hasImmPrefix = s.hasImmPrefix ∧
      s.interruptCheck.immPrefix = s.immPrefix ∧ s.interruptCheck.canInterrupt = s.canInterrupt ∧
      s.interruptCheck.platform = s.platform ∧ s.interruptCheck.intRequests = s.intRequests ∧
      s.interruptCheck.ioLog = s.ioLog ∧ s.interruptCheck.freeCount = s.freeCount) ∧
    (s.interruptPending = false ∨ s.canInterrupt = false → s.interruptCheck = s)

/-- R303, whole: the eight interlocked instructions, and only they, end with `can_interrupt = false`; a step of one
of them is never followed by an interrupt entry and the request stays held; a step of any other takes a held one. -/
def Obligations.InterlockHoldsRequest : Prop :=
  (∀ (i : Instr) (s t : State), exec i s = .next t →
    (t.canInterrupt = false ↔ i.mnemonic ∈ [.add, .sub, .addi, .adc, .adci, .sbc, .sbci, .imm])) ∧
  (∀ (s t s1 : State) (w : Word) (i : Instr),
    s.acceptRequest.fetch = .ok (w, s1) → decodeWord w = .ok i → step s = .next t →
      (i.mnemonic ∈ [.add, .sub, .addi, .adc, .adci, .sbc, .sbci, .imm] →
        exec i s1 = .next t ∧ t.prev.kind = .instr i.mnemonic ∧
        t.interruptPending = s.acceptRequest.interruptPending) ∧
      (i.mnemonic ∉ [.add, .sub, .addi, .adc, .adci, .sbc, .sbci, .imm] →
        s.acceptRequest.interruptPending = true → t.prev.kind = .int ∧ t.interruptPending = false))

/-- R301, R303: after any completed step, a request still held means the last instruction was interlocked. -/
def Obligations.HeldRequestMeansInterlocked : Prop :=
  ∀ s t : State, step s = .next t → t.interruptPending = true →
    t.canInterrupt = false ∧
    ∃ m ∈ ([.add, .sub, .addi, .adc, .adci, .sbc, .sbci, .imm] : List Mnemonic), t.prev.kind = .instr m

/-- R302: at the handler's first instruction pc is 0x0010, r14 is in the hazard set, and no prefix, carry, branch
prefix or shift is left for it to use. -/
def Obligations.HandlerEntryState : Prop :=
  ∀ s t : State, step s = .next t → t.prev.kind = .int →
    t.readPc = 0x0010#16 ∧ 14#4 ∈ t.prev.dests ∧ t.hasImmPrefix = false ∧ t.carryValid = false ∧
    t.interruptPending = false ∧ t.prev.kind.isBranchPrefix = false ∧ t.prev.kind.isShift = false

/-- R304, whole: with no prefix pending reti completes in every state, resumes at the address in r14, restores and
changes nothing else, and is interruptible; right after an entry it resumes at the interrupted pc, with every
register but r14 as it was; a request held at reti is taken right after it, with the same return address. -/
def Obligations.ReturnFromInterrupt : Prop :=
  ∀ s : State, s.hasImmPrefix = false →
    decodeWord 0xA0E0#16 = .ok reti ∧
    (Completes (exec reti s) fun t =>
      t.readPc = BitVec.ofNat 16 ((s.readReg 14#4).toNat / 2 * 2) ∧ (∀ r, t.readReg r = s.readReg r) ∧
      Kept s t ∧ Uninvolved s t ∧
      (s.interruptPending = true →
        t.interruptCheck.readPc = 0x0010#16 ∧
        t.interruptCheck.readReg 14#4 = BitVec.ofNat 16 ((s.readReg 14#4).toNat / 2 * 2))) ∧
    (Completes (exec reti s.takeInterrupt) fun t =>
      t.readPc = s.readPc ∧ ∀ r, r ≠ 14#4 → t.readReg r = s.readReg r)

/-- R300, with the requests as the model's input list (log 14, DESIGN CHOICE): a request at a step boundary makes the
pending bit true and the list one shorter, and nothing else changes; an empty list changes nothing. -/
def Obligations.RequestSetsPending : Prop :=
  ∀ s : State,
    (∀ (r : Bool) (rest : List Bool), s.intRequests = r :: rest →
      s.acceptRequest = { s with interruptPending := s.interruptPending || r, intRequests := rest }) ∧
    (s.intRequests = [] → s.acceptRequest = s)

/-! ### What every instruction obeys -/

/-- R350, first table: the ten instructions with a result hazard stop on it. -/
def Obligations.ResultHazardStops : Prop :=
  ∀ (s : State) (x y r : Reg) (imm : BitVec 4), r ∈ s.prev.dests →
    (∀ i ∈ [Instr.add x y r, .sub x y r, .and x r, .or x r, .xor x r, .andn x r, .adc x r, .sbc x r],
      exec i s = .fault .rbHazard) ∧
    (∀ i ∈ [Instr.sw r y imm, .sb r y imm], exec i s = .fault .storeDataHazard)

/-- R30, R350, second table: what a completed instruction leaves in `prev`, and that it changes no other register. -/
def Obligations.ResultSetOfEveryInstruction : Prop :=
  ∀ (i : Instr) (s t : State), exec i s = .next t →
    t.prev.kind = .instr i.mnemonic ∧
    (∀ r, r ∉ t.prev.dests → t.readReg r = s.readReg r) ∧
    t.prev.dests =
      match i with
      | .add rd _ _ | .sub rd _ _ | .addi rd _ _ | .and rd _ | .or rd _ | .xor rd _ | .andn rd _ | .adc rd _
      | .sbc rd _ | .andi rd _ | .ori rd _ | .xori rd _ | .andni rd _ | .adci rd _ | .sbci rd _ | .srli rd _
      | .srai rd _ | .slli rd _ | .srxi rd _ | .slxi rd _ | .lw rd _ _ | .lb rd _ _ | .jal rd _ _ =>
        if rd = 0#4 then [] else [rd]
      | .call _ => [15#4]
      | _ => []

/-- R27, R30, D2: a completed instruction leaves the carry valid exactly if it is a carry producer, or imm after
one. -/
def Obligations.CarryValidityOfEveryInstruction : Prop :=
  ∀ (i : Instr) (s t : State), exec i s = .next t →
    (t.carryValid = true ↔
      i.mnemonic ∈ [.add, .addi, .sub, .adc, .adci, .sbc, .sbci] ∨ (i.mnemonic = .imm ∧ s.carryValid = true))

/-- R21: only a branch, jal or call leaves pc anywhere but at the next instruction. -/
def Obligations.OnlyTransfersMovePc : Prop :=
  ∀ (i : Instr) (s t : State), exec i s = .next t →
    t.readPc = s.readPc + 2#16 ∨
    i.mnemonic ∈ [.br, .beq, .bne, .bc, .bnc, .bv, .bnv, .blt, .bge, .ble, .bgt, .bltu, .bgeu, .bleu, .bgtu,
      .jal, .call]

/-- R50: only sw and sb change memory or the MMU, and only they and the loads reach a device. -/
def Obligations.OnlyStoresChangeMemory : Prop :=
  ∀ (i : Instr) (s t : State), exec i s = .next t →
    (i.mnemonic ∉ [.sw, .sb] → t.mem = s.mem ∧ t.mmu = s.mmu ∧ t.freeCount = s.freeCount) ∧
    (i.mnemonic ∉ [.sw, .sb, .lw, .lb] → t.ioLog = s.ioLog)

/-- 10_state R37 (log 1): the parameters are no state; no step changes them. -/
def Obligations.ParametersNeverChange : Prop :=
  ∀ s t : State, step s = .next t → t.platform = s.platform

/-- R66 (log 13): without an MMU, a completed sw or sb marks exactly the word it stored to when that is one of the two
after it; with one, a store that takes effect marks that word at least; executing into a marked word stops; a jump and
an interrupt entry end the window. -/
def Obligations.CodeWindowOfStores : Prop :=
  (∀ (s t : State) (rd ra : Reg) (imm : BitVec 4), s.platform.mmuPresent = false →
    (exec (.sw rd ra imm) s = .next t →
      (t.staleNext = true ↔ s.staleSecond = true ∨ s.wordAddress ra imm = s.readPc + 2#16) ∧
      (t.staleSecond = true ↔ s.wordAddress ra imm = s.readPc + 4#16)) ∧
    (exec (.sb rd ra imm) s = .next t →
      (t.staleNext = true ↔ s.staleSecond = true ∨
        (s.byteAddress ra imm).toNat / 2 = (s.readPc + 2#16).toNat / 2) ∧
      (t.staleSecond = true ↔ (s.byteAddress ra imm).toNat / 2 = (s.readPc + 4#16).toNat / 2))) ∧
  (∀ (s t : State) (rd ra : Reg) (imm : BitVec 4),
    (exec (.sw rd ra imm) s = .next t → s.writable (s.wordAddress ra imm) = true →
      (s.wordAddress ra imm = s.readPc + 2#16 → t.staleNext = true) ∧
      (s.wordAddress ra imm = s.readPc + 4#16 → t.staleSecond = true)) ∧
    (exec (.sb rd ra imm) s = .next t → s.writable (s.byteAddress ra imm) = true →
      ((s.byteAddress ra imm).toNat / 2 = (s.readPc + 2#16).toNat / 2 → t.staleNext = true) ∧
      ((s.byteAddress ra imm).toNat / 2 = (s.readPc + 4#16).toNat / 2 → t.staleSecond = true))) ∧
  (∀ s : State, s.staleNext = true → step s = .fault .staleFetch) ∧
  (∀ (s t : State) (i : Instr), i.mnemonic ∈ [.jal, .call, .br] → exec i s = .next t →
    t.staleNext = false ∧ t.staleSecond = false) ∧
  (∀ s : State, s.interruptPending = true → s.canInterrupt = true →
    s.interruptCheck.staleNext = false ∧ s.interruptCheck.staleSecond = false)

/-! ### The step, decoding, reset, the invariant -/

/-- R12: a step accepts a request, fetches the big-endian word at pc, runs the instruction it decodes to, and
checks for an interrupt; the bytes may be in memory or anywhere else the fetch reads. A fetch right after a store to
an MMU entry draws its free choice (log 20), every other one leaves the state as it is. -/
def Obligations.StepRunsTheDecodedInstruction : Prop :=
  (∀ (s : State) (pa : PhysAddr) (i : Instr),
    s.staleNext = false → s.fetchLocation = .memory pa →
    s.platform.isPopulated pa = true → s.platform.isPopulated (pa + 1#26) = true →
    decode [s.mem.read pa.toNat, s.mem.read (pa + 1#26).toNat] = .ok (i, []) →
      (∀ t, exec i s.acceptRequest.drawForFetch = .next t → step s = .next t.interruptCheck) ∧
      (∀ f, exec i s.acceptRequest.drawForFetch = .fault f → step s = .fault f) ∧
      (∀ r, exec i s.acceptRequest.drawForFetch = .refused r → step s = .refused r)) ∧
  (∀ s : State, s.mmuChange = none →
    s.fetchLocation = s.locate s.readPc ∧ s.acceptRequest.drawForFetch = s.acceptRequest) ∧
  (∀ (s s1 : State) (w : Word) (i : Instr), s.acceptRequest.fetch = .ok (w, s1) → decodeWord w = .ok i →
      (∀ t, exec i s1 = .next t → step s = .next t.interruptCheck) ∧
      (∀ f, exec i s1 = .fault f → step s = .fault f) ∧
      (∀ r, exec i s1 = .refused r → step s = .refused r))

/-- R100: a word that is no instruction stops the step. -/
def Obligations.ReservedWordStops : Prop :=
  ∀ (s s1 : State) (w : Word) (e : DecodeError), s.acceptRequest.fetch = .ok (w, s1) → decodeWord w = .error e →
    step s = .fault .reservedEncoding

/-- Words written out from the encodings of 40_arithmetic to 46_imm_prefix, one or two a format. -/
def Obligations.SampleWordsDecode : Prop :=
  decodeWord 0x0231#16 = .ok (.add 2#4 3#4 1#4) ∧ decodeWord 0x3445#16 = .ok (.adc 4#4 5#4) ∧
  decodeWord 0x4137#16 = .ok (.andni 1#4 7#4) ∧ decodeWord 0x42A1#16 = .ok (.slxi 2#4 1#4) ∧
  decodeWord 0x81D4#16 = .ok (.sw 1#4 13#4 4#4) ∧ decodeWord 0xAF32#16 = .ok (.jal 15#4 3#4 2#4) ∧
  decodeWord 0xB3FD#16 = .ok (.bne 0xFD#8) ∧ decodeWord 0xC034#16 = .ok (.call 0x034#12) ∧
  decodeWord 0xD123#16 = .ok (.imm 0x123#12)

/-- R95 to R99: decoding an encoded instruction gives it back, with every operand at every value, from its word
and from its bytes with any bytes after them. -/
def Obligations.DecodeOfEncode : Prop :=
  ∀ (i : Instr) (rest : List Byte),
    decodeWord (encode i) = .ok i ∧ decode (encodeBytes i ++ rest) = .ok (i, rest)

/-- R81 ("no format has a don't-care bit"): a word that decodes is the encoding of what it decodes to. -/
def Obligations.EncodeOfDecode : Prop :=
  ∀ (w : Word) (i : Instr), decodeWord w = .ok i → encode i = w

/-- R100: "the unassigned words are exactly" the rows of its table. -/
def Obligations.ReservedWordsExactly : Prop :=
  ∀ w : Word, (∃ e, decodeWord w = .error e) ↔
    w.toNat / 4096 = 7 ∨ w.toNat / 4096 = 14 ∨ w.toNat / 4096 = 15 ∨
    (w.toNat / 4096 = 3 ∧ 6 ≤ w.toNat / 16 % 16) ∨
    (w.toNat / 4096 = 4 ∧ 11 ≤ w.toNat / 16 % 16) ∨
    w.toNat / 256 = 0xB1

/-- R38, R340: the state after reset, on every platform and with every image. pc and r0 are the source's; the values of
has_imm_prefix, interrupt_pending, carry_valid and prev are the spec's own decision D11, which the model follows (log
5), and that the platform and the image are arguments is the model's form (logs 1, 23). -/
def Obligations.ResetState : Prop :=
  ∀ (p : Platform) (image : Memory),
    (State.resetWith p image).readPc = 0#16 ∧ (State.resetWith p image).readReg 0#4 = 0#16 ∧
    (State.resetWith p image).hasImmPrefix = false ∧ (State.resetWith p image).interruptPending = false ∧
    (State.resetWith p image).carryValid = false ∧ (State.resetWith p image).prev = ⟨.none, []⟩ ∧
    (State.resetWith p image).mem = image ∧ (State.resetWith p image).platform = p

/-- The invariant holds after reset, on every platform and with every image in canonical form. -/
def Obligations.ResetMeetsInvariant : Prop :=
  Inv State.reset ∧ ∀ (p : Platform) (image : Memory), Memory.wf image = true → Inv (State.resetWith p image)

/-- Every step keeps the invariant, from every state that meets it: memory's canonical form, the hard-wired bit
and register, and the ties between `prev` and the prefix, the carry, the interlock, the handler's entry and the
code window. -/
def Obligations.StepKeepsInvariant : Prop :=
  ∀ s t : State, Inv s → step s = .next t → Inv t

/-! ### Sequences the spec builds -/

/-- R260: `addl` computes the 32-bit sum of the pairs, where the expansion does not overwrite a source it still
reads. -/
def Obligations.AddlComputesLongSum : Prop :=
  ∀ (s : State) (rd ra rb rd' ra' rb' : Reg) (is : List Instr),
    Inv s → partner rd = some rd' → partner ra = some ra' → partner rb = some rb' → rd ≠ 0#4 →
    rd' ≠ ra → rd' ≠ rb → rb' ≠ rd → (rd ≠ rb ∨ rd = ra) → rb ∉ s.prev.dests →
    (Pseudo.addl rd ra rb).expand = some is →
      Completes (runInstrs is s) fun t =>
        (t.readReg rd).toNat + 65536 * (t.readReg rd').toNat =
          ((s.readReg ra).toNat + 65536 * (s.readReg ra').toNat +
            ((s.readReg rb).toNat + 65536 * (s.readReg rb').toNat)) % 4294967296

/-- R268: `subl` computes the 32-bit difference of the pairs, under the same conditions. -/
def Obligations.SublComputesLongDifference : Prop :=
  ∀ (s : State) (rd ra rb rd' ra' rb' : Reg) (is : List Instr),
    Inv s → partner rd = some rd' → partner ra = some ra' → partner rb = some rb' → rd ≠ 0#4 →
    rd' ≠ ra → rd' ≠ rb → rb' ≠ rd → (rd ≠ rb ∨ rd = ra) → rb ∉ s.prev.dests →
    (Pseudo.subl rd ra rb).expand = some is →
      Completes (runInstrs is s) fun t =>
        (t.readReg rd).toNat + 65536 * (t.readReg rd').toNat =
          ((s.readReg ra).toNat + 65536 * (s.readReg ra').toNat + 4294967296 -
            ((s.readReg rb).toNat + 65536 * (s.readReg rb').toNat)) % 4294967296

/-- R154, R157, R270: the shift pairs shift a 32-bit value held in two registers by one bit. -/
def Obligations.ShiftPairsShiftLongs : Prop :=
  ∀ (s : State) (lo hi : Reg), lo ≠ 0#4 → hi ≠ 0#4 → lo ≠ hi → s.hasImmPrefix = false →
    Completes (runInstrs [.slli lo 1#4, .slxi hi 1#4] s) (fun t =>
      (t.readReg lo).toNat + 65536 * (t.readReg hi).toNat =
        2 * ((s.readReg lo).toNat + 65536 * (s.readReg hi).toNat) % 4294967296) ∧
    Completes (runInstrs [.srli hi 1#4, .srxi lo 1#4] s) (fun t =>
      (t.readReg lo).toNat + 65536 * (t.readReg hi).toNat =
        ((s.readReg lo).toNat + 65536 * (s.readReg hi).toNat) / 2) ∧
    Completes (runInstrs [.srai hi 1#4, .srxi lo 1#4] s) (fun t =>
      ((t.readReg lo).toNat : Int) + 65536 * (t.readReg hi).toInt =
        (((s.readReg lo).toNat : Int) + 65536 * (s.readReg hi).toInt) / 2)

/-- R244: `lbs` loads a byte of memory sign-extended, at any 16-bit offset. -/
def Obligations.LbsLoadsSigned : Prop :=
  ∀ (s : State) (rd ra : Reg) (v : Word) (pa : PhysAddr) (is : List Instr), rd ≠ 0#4 → s.hasImmPrefix = false →
    s.locate (s.readReg ra + v) = .memory pa → s.platform.isPopulated pa = true →
    (Pseudo.lbs rd v ra).expand = some is →
      Completes (runInstrs is s) fun t => (t.readReg rd).toInt = (s.mem.read pa.toNat).toInt

/-- R231: with or without the prefix the assembler inserts, the instruction sees the 16-bit value written. -/
def Obligations.InsertedPrefixGivesTheValue : Prop :=
  ∀ (s : State) (rd ra : Reg) (v : Word), s.hasImmPrefix = false →
    Completes (runInstrs (withSext v (.addi rd ra)) s) (fun t =>
      t.readReg rd = if rd = 0#4 then 0#16 else s.readReg ra + v) ∧
    Completes (runInstrs (withWord v (.jal rd ra)) s) (fun t => t.readPc = evenWord (s.readReg ra + v)) ∧
    (∀ pa, s.locate (s.readReg ra + v) = .memory pa → s.platform.isPopulated pa = true →
      Completes (runInstrs (withByte v (.lb rd ra)) s) fun t =>
        t.readReg rd = if rd = 0#4 then 0#16 else (s.mem.read pa.toNat).setWidth 16)

/-- R232, R233: after hazard removal no instruction has a hazard on the one before it, whatever stood there; the result
is the input, instruction by instruction, up to the operand swap of add and the inserted nops; a list without
hazards is left alone. That it also repairs a hazard between a carry producer and adc or sbc is the model's choice
(log 32). -/
def Obligations.HazardRemovalLeavesNone : Prop :=
  ∀ (dests : List Reg) (is : List Instr), 0#4 ∉ dests →
    (∀ i rest, removeHazards dests is = i :: rest → Machine.Instr.hazardAfter dests i = false) ∧
    (∀ pre i j post, removeHazards dests is = pre ++ i :: j :: post →
      Machine.Instr.hazardAfter (destSet (Machine.Instr.dest i)) j = false) ∧
    Repaired is (removeHazards dests is) ∧
    (hazardFree dests is = true → removeHazards dests is = is)
end

