-- ==== Sys2Proof/Laws/Memory.lean ====
section
/-! SUPPORT. Memory: a byte written reads back, every other byte keeps its value, and every write keeps the
canonical form. -/

namespace Sys2Proof.Machine

@[simp] theorem Memory.read_nil (x : Nat) : Memory.read [] x = Memory.unlisted := rfl

/-- An address below every listed one is unlisted. -/
theorem Memory.read_below (m : Memory) (x : Nat) (h : m.all (fun c => decide (x < c.1)) = true) :
    m.read x = Memory.unlisted := by
  induction m with
  | nil => rfl
  | cons c m ih =>
    simp only [List.all_cons, Bool.and_eq_true, decide_eq_true_eq] at h
    have : ¬ c.1 = x := by omega
    simp [Memory.read, this, ih h.2]

theorem Memory.wf_cons (c : Host.Cell) (m : Memory) :
    Memory.wf (c :: m) = true ↔
      c.2 ≠ Memory.unlisted ∧ (∀ d ∈ m, c.1 < d.1) ∧ Memory.wf m = true := by
  simp [Memory.wf, and_assoc]

/-- What a byte reads after a write, in a memory in canonical form. -/
theorem Memory.read_write (m : Memory) (x y : Nat) (v : Byte) (h : m.wf = true) :
    (m.write x v).read y = if y = x then v else m.read y := by
  induction m with
  | nil =>
    by_cases hv : v = Memory.unlisted <;> by_cases hy : y = x
    · simp [Memory.write, hv]
    · simp [Memory.write, hv]
    · simp [Memory.write, hv, Memory.read, hy]
    · simp [Memory.write, hv, Memory.read, hy, Ne.symm hy]
  | cons c m ih =>
    obtain ⟨k, u⟩ := c
    rw [Memory.wf_cons] at h
    obtain ⟨-, hlt, hm⟩ := h
    have hbelow : ∀ z, z ≤ k → Memory.read m z = Memory.unlisted := fun z hz =>
      Memory.read_below m z (by
        simp only [List.all_eq_true, decide_eq_true_eq]
        intro d hd; have := hlt d hd; omega)
    unfold Memory.write
    by_cases h1 : x < k
    · by_cases hv : v = Memory.unlisted
      · simp only [h1, if_true, hv]
        by_cases hy : y = x
        · subst hy
          have : ¬ k = y := by omega
          simp [Memory.read, this, hbelow y (by omega)]
        · simp [hy]
      · simp only [h1, if_true, hv, if_false]
        by_cases hy : y = x
        · simp [Memory.read, hy]
        · have : ¬ x = y := fun e => hy e.symm
          simp [Memory.read, hy, this]
    · by_cases h2 : x = k
      · subst h2
        by_cases hv : v = Memory.unlisted
        · by_cases hy : y = x
          · subst hy; simp [hv, hbelow y (le_refl y)]
          · have : ¬ x = y := fun e => hy e.symm
            simp [hv, hy, Memory.read, this]
        · by_cases hy : y = x
          · simp [hv, Memory.read, hy]
          · have : ¬ x = y := fun e => hy e.symm
            simp [hv, hy, Memory.read, this]
      · simp only [h1, h2, if_false]
        by_cases hk : k = y
        · subst hk
          have : ¬ k = x := fun e => h2 e.symm
          simp [Memory.read, this]
        · simp [Memory.read, hk, ih hm]

theorem Memory.mem_write (m : Memory) (x : Nat) (v : Byte) (d : Host.Cell) (h : d ∈ m.write x v) :
    d.1 = x ∨ d ∈ m := by
  induction m with
  | nil =>
    unfold Memory.write at h
    split at h
    · simp at h
    · simp only [List.mem_singleton] at h; simp [h]
  | cons c m ih =>
    unfold Memory.write at h
    split at h
    · split at h
      · exact .inr h
      · rcases List.mem_cons.1 h with h | h
        · simp [h]
        · exact .inr h
    · split at h
      · split at h
        · exact .inr (List.mem_cons_of_mem _ h)
        · rcases List.mem_cons.1 h with h | h
          · simp [h]
          · exact .inr (List.mem_cons_of_mem _ h)
      · rcases List.mem_cons.1 h with h | h
        · exact .inr (h ▸ List.mem_cons_self)
        · rcases ih h with h | h
          · exact .inl h
          · exact .inr (List.mem_cons_of_mem _ h)

/-- A write keeps the canonical form. -/
theorem Memory.write_wf (m : Memory) (x : Nat) (v : Byte) (h : m.wf = true) : (m.write x v).wf = true := by
  induction m with
  | nil =>
    unfold Memory.write
    split
    · rfl
    · simpa [Memory.wf]
  | cons c m ih =>
    have hc := h
    rw [Memory.wf_cons] at h
    obtain ⟨hu, hlt, hm⟩ := h
    unfold Memory.write
    split
    · rename_i hx
      split
      · exact hc
      · rename_i hv
        rw [Memory.wf_cons]
        refine ⟨hv, ?_, hc⟩
        intro d hd
        rcases List.mem_cons.1 hd with hd | hd
        · rw [hd]; exact hx
        · exact Nat.lt_trans hx (hlt d hd)
    · split
      · rename_i hx
        split
        · exact hm
        · rename_i hv
          rw [Memory.wf_cons]
          exact ⟨hv, fun d hd => hx ▸ hlt d hd, hm⟩
      · rename_i h1 h2
        rw [Memory.wf_cons]
        refine ⟨hu, ?_, ih hm⟩
        intro d hd
        rcases Memory.mem_write m x v d hd with hd | hd
        · have : ¬ x = c.1 := h2
          have : ¬ x < c.1 := h1
          omega
        · exact hlt d hd

/-- Reset's memory is in canonical form. -/
theorem reset_memory_wf : State.reset.mem.wf = true := rfl

/-- A word is the concatenation of its bytes. -/
@[simp] theorem wordOfBytes_split (w : Word) : wordOfBytes (highByte w) (lowByte w) = w := by
  apply BitVec.eq_of_getLsbD_eq
  intro i hi
  simp only [wordOfBytes, highByte, lowByte, BitVec.getLsbD_append, BitVec.getLsbD_extractLsb']
  by_cases h : i < 8
  · simp [h]
  · have : i - 8 < 8 := by omega
    simp [h, this, show 8 + (i - 8) = i by omega]

end Sys2Proof.Machine
end

