-- ==== Sys2Proof/Laws/State.lean ====
section
/-! SUPPORT. One lemma per field per update, so that no proof unfolds a record update. -/

namespace Sys2Proof.Machine

variable (s : State)

/-! ### writePc -/

@[simp] theorem State.writePc_pc (v : Word) : (s.writePc v).pc = evenWord v := rfl
@[simp] theorem State.writePc_regs (v : Word) : (s.writePc v).regs = s.regs := rfl
@[simp] theorem State.writePc_mem (v : Word) : (s.writePc v).mem = s.mem := rfl
@[simp] theorem State.writePc_a (v : Word) : (s.writePc v).a = s.a := rfl
@[simp] theorem State.writePc_b (v : Word) : (s.writePc v).b = s.b := rfl
@[simp] theorem State.writePc_carryOut (v : Word) : (s.writePc v).carryOut = s.carryOut := rfl
@[simp] theorem State.writePc_carryValid (v : Word) : (s.writePc v).carryValid = s.carryValid := rfl
@[simp] theorem State.writePc_shiftOut (v : Word) : (s.writePc v).shiftOut = s.shiftOut := rfl
@[simp] theorem State.writePc_hasImmPrefix (v : Word) : (s.writePc v).hasImmPrefix = s.hasImmPrefix := rfl
@[simp] theorem State.writePc_immPrefix (v : Word) : (s.writePc v).immPrefix = s.immPrefix := rfl
@[simp] theorem State.writePc_canInterrupt (v : Word) : (s.writePc v).canInterrupt = s.canInterrupt := rfl
@[simp] theorem State.writePc_interruptPending (v : Word) : (s.writePc v).interruptPending = s.interruptPending := rfl
@[simp] theorem State.writePc_prev (v : Word) : (s.writePc v).prev = s.prev := rfl
@[simp] theorem State.writePc_staleNext (v : Word) : (s.writePc v).staleNext = s.staleNext := rfl
@[simp] theorem State.writePc_staleSecond (v : Word) : (s.writePc v).staleSecond = s.staleSecond := rfl
@[simp] theorem State.writePc_mmu (v : Word) : (s.writePc v).mmu = s.mmu := rfl
@[simp] theorem State.writePc_mmuChange (v : Word) : (s.writePc v).mmuChange = s.mmuChange := rfl
@[simp] theorem State.writePc_platform (v : Word) : (s.writePc v).platform = s.platform := rfl
@[simp] theorem State.writePc_intRequests (v : Word) : (s.writePc v).intRequests = s.intRequests := rfl
@[simp] theorem State.writePc_ioLog (v : Word) : (s.writePc v).ioLog = s.ioLog := rfl
@[simp] theorem State.writePc_freeCount (v : Word) : (s.writePc v).freeCount = s.freeCount := rfl
@[simp] theorem State.writePc_readReg (v : Word) (x : Reg) : (s.writePc v).readReg x = s.readReg x := rfl

/-! ### PRE -/

@[simp] theorem State.pre_pc : (s.pre).pc = evenWord (s.readPc + 2#16) := rfl
@[simp] theorem State.pre_regs : (s.pre).regs = s.regs := rfl
@[simp] theorem State.pre_mem : (s.pre).mem = s.mem := rfl
@[simp] theorem State.pre_a : (s.pre).a = s.a := rfl
@[simp] theorem State.pre_b : (s.pre).b = s.b := rfl
@[simp] theorem State.pre_carryOut : (s.pre).carryOut = s.carryOut := rfl
@[simp] theorem State.pre_carryValid : (s.pre).carryValid = s.carryValid := rfl
@[simp] theorem State.pre_shiftOut : (s.pre).shiftOut = s.shiftOut := rfl
@[simp] theorem State.pre_hasImmPrefix : (s.pre).hasImmPrefix = false := rfl
@[simp] theorem State.pre_immPrefix : (s.pre).immPrefix = s.immPrefix := rfl
@[simp] theorem State.pre_canInterrupt : (s.pre).canInterrupt = true := rfl
@[simp] theorem State.pre_interruptPending : (s.pre).interruptPending = s.interruptPending := rfl
@[simp] theorem State.pre_prev : (s.pre).prev = s.prev := rfl
@[simp] theorem State.pre_staleNext : (s.pre).staleNext = s.staleSecond := rfl
@[simp] theorem State.pre_staleSecond : (s.pre).staleSecond = false := rfl
@[simp] theorem State.pre_mmu : (s.pre).mmu = s.mmu := rfl
@[simp] theorem State.pre_mmuChange : (s.pre).mmuChange = none := rfl
@[simp] theorem State.pre_platform : (s.pre).platform = s.platform := rfl
@[simp] theorem State.pre_intRequests : (s.pre).intRequests = s.intRequests := rfl
@[simp] theorem State.pre_ioLog : (s.pre).ioLog = s.ioLog := rfl
@[simp] theorem State.pre_freeCount : (s.pre).freeCount = s.freeCount := rfl
@[simp] theorem State.pre_readReg (x : Reg) : (s.pre).readReg x = s.readReg x := rfl

/-! ### jumpTo -/

@[simp] theorem State.jumpTo_pc (v : Word) : (s.jumpTo v).pc = evenWord v := rfl
@[simp] theorem State.jumpTo_regs (v : Word) : (s.jumpTo v).regs = s.regs := rfl
@[simp] theorem State.jumpTo_mem (v : Word) : (s.jumpTo v).mem = s.mem := rfl
@[simp] theorem State.jumpTo_a (v : Word) : (s.jumpTo v).a = s.a := rfl
@[simp] theorem State.jumpTo_b (v : Word) : (s.jumpTo v).b = s.b := rfl
@[simp] theorem State.jumpTo_carryOut (v : Word) : (s.jumpTo v).carryOut = s.carryOut := rfl
@[simp] theorem State.jumpTo_carryValid (v : Word) : (s.jumpTo v).carryValid = s.carryValid := rfl
@[simp] theorem State.jumpTo_shiftOut (v : Word) : (s.jumpTo v).shiftOut = s.shiftOut := rfl
@[simp] theorem State.jumpTo_hasImmPrefix (v : Word) : (s.jumpTo v).hasImmPrefix = s.hasImmPrefix := rfl
@[simp] theorem State.jumpTo_immPrefix (v : Word) : (s.jumpTo v).immPrefix = s.immPrefix := rfl
@[simp] theorem State.jumpTo_canInterrupt (v : Word) : (s.jumpTo v).canInterrupt = s.canInterrupt := rfl
@[simp] theorem State.jumpTo_interruptPending (v : Word) : (s.jumpTo v).interruptPending = s.interruptPending := rfl
@[simp] theorem State.jumpTo_prev (v : Word) : (s.jumpTo v).prev = s.prev := rfl
@[simp] theorem State.jumpTo_staleNext (v : Word) : (s.jumpTo v).staleNext = false := rfl
@[simp] theorem State.jumpTo_staleSecond (v : Word) : (s.jumpTo v).staleSecond = false := rfl
@[simp] theorem State.jumpTo_mmu (v : Word) : (s.jumpTo v).mmu = s.mmu := rfl
@[simp] theorem State.jumpTo_mmuChange (v : Word) : (s.jumpTo v).mmuChange = s.mmuChange := rfl
@[simp] theorem State.jumpTo_platform (v : Word) : (s.jumpTo v).platform = s.platform := rfl
@[simp] theorem State.jumpTo_intRequests (v : Word) : (s.jumpTo v).intRequests = s.intRequests := rfl
@[simp] theorem State.jumpTo_ioLog (v : Word) : (s.jumpTo v).ioLog = s.ioLog := rfl
@[simp] theorem State.jumpTo_freeCount (v : Word) : (s.jumpTo v).freeCount = s.freeCount := rfl
@[simp] theorem State.jumpTo_readReg (v : Word) (x : Reg) : (s.jumpTo v).readReg x = s.readReg x := rfl

/-! ### retire -/

@[simp] theorem State.retire_pc (m : Mnemonic) (d : Option Reg) : (s.retire m d).pc = s.pc := rfl
@[simp] theorem State.retire_regs (m : Mnemonic) (d : Option Reg) : (s.retire m d).regs = s.regs := rfl
@[simp] theorem State.retire_mem (m : Mnemonic) (d : Option Reg) : (s.retire m d).mem = s.mem := rfl
@[simp] theorem State.retire_a (m : Mnemonic) (d : Option Reg) : (s.retire m d).a = s.a := rfl
@[simp] theorem State.retire_b (m : Mnemonic) (d : Option Reg) : (s.retire m d).b = s.b := rfl
@[simp] theorem State.retire_carryOut (m : Mnemonic) (d : Option Reg) : (s.retire m d).carryOut = s.carryOut := rfl
@[simp] theorem State.retire_carryValid (m : Mnemonic) (d : Option Reg) : (s.retire m d).carryValid = if carryProducers.contains m then true else if m = .imm then s.carryValid else false := rfl
@[simp] theorem State.retire_shiftOut (m : Mnemonic) (d : Option Reg) : (s.retire m d).shiftOut = s.shiftOut := rfl
@[simp] theorem State.retire_hasImmPrefix (m : Mnemonic) (d : Option Reg) : (s.retire m d).hasImmPrefix = s.hasImmPrefix := rfl
@[simp] theorem State.retire_immPrefix (m : Mnemonic) (d : Option Reg) : (s.retire m d).immPrefix = s.immPrefix := rfl
@[simp] theorem State.retire_canInterrupt (m : Mnemonic) (d : Option Reg) : (s.retire m d).canInterrupt = s.canInterrupt := rfl
@[simp] theorem State.retire_interruptPending (m : Mnemonic) (d : Option Reg) : (s.retire m d).interruptPending = s.interruptPending := rfl
@[simp] theorem State.retire_prev (m : Mnemonic) (d : Option Reg) : (s.retire m d).prev = ⟨.instr m, destSet d⟩ := rfl
@[simp] theorem State.retire_staleNext (m : Mnemonic) (d : Option Reg) : (s.retire m d).staleNext = s.staleNext := rfl
@[simp] theorem State.retire_staleSecond (m : Mnemonic) (d : Option Reg) : (s.retire m d).staleSecond = s.staleSecond := rfl
@[simp] theorem State.retire_mmu (m : Mnemonic) (d : Option Reg) : (s.retire m d).mmu = s.mmu := rfl
@[simp] theorem State.retire_mmuChange (m : Mnemonic) (d : Option Reg) : (s.retire m d).mmuChange = s.mmuChange := rfl
@[simp] theorem State.retire_platform (m : Mnemonic) (d : Option Reg) : (s.retire m d).platform = s.platform := rfl
@[simp] theorem State.retire_intRequests (m : Mnemonic) (d : Option Reg) : (s.retire m d).intRequests = s.intRequests := rfl
@[simp] theorem State.retire_ioLog (m : Mnemonic) (d : Option Reg) : (s.retire m d).ioLog = s.ioLog := rfl
@[simp] theorem State.retire_freeCount (m : Mnemonic) (d : Option Reg) : (s.retire m d).freeCount = s.freeCount := rfl
@[simp] theorem State.retire_readReg (m : Mnemonic) (d : Option Reg) (x : Reg) : (s.retire m d).readReg x = s.readReg x := rfl
@[simp] theorem State.retire_readPc (m : Mnemonic) (d : Option Reg) : (s.retire m d).readPc = s.readPc := rfl

/-! ### writeReg -/

@[simp] theorem State.writeReg_pc (r : Reg) (v : Word) : (s.writeReg r v).pc = s.pc := by
  unfold State.writeReg; split <;> rfl
@[simp] theorem State.writeReg_mem (r : Reg) (v : Word) : (s.writeReg r v).mem = s.mem := by
  unfold State.writeReg; split <;> rfl
@[simp] theorem State.writeReg_a (r : Reg) (v : Word) : (s.writeReg r v).a = s.a := by
  unfold State.writeReg; split <;> rfl
@[simp] theorem State.writeReg_b (r : Reg) (v : Word) : (s.writeReg r v).b = s.b := by
  unfold State.writeReg; split <;> rfl
@[simp] theorem State.writeReg_carryOut (r : Reg) (v : Word) : (s.writeReg r v).carryOut = s.carryOut := by
  unfold State.writeReg; split <;> rfl
@[simp] theorem State.writeReg_carryValid (r : Reg) (v : Word) : (s.writeReg r v).carryValid = s.carryValid := by
  unfold State.writeReg; split <;> rfl
@[simp] theorem State.writeReg_shiftOut (r : Reg) (v : Word) : (s.writeReg r v).shiftOut = s.shiftOut := by
  unfold State.writeReg; split <;> rfl
@[simp] theorem State.writeReg_hasImmPrefix (r : Reg) (v : Word) : (s.writeReg r v).hasImmPrefix = s.hasImmPrefix := by
  unfold State.writeReg; split <;> rfl
@[simp] theorem State.writeReg_immPrefix (r : Reg) (v : Word) : (s.writeReg r v).immPrefix = s.immPrefix := by
  unfold State.writeReg; split <;> rfl
@[simp] theorem State.writeReg_canInterrupt (r : Reg) (v : Word) : (s.writeReg r v).canInterrupt = s.canInterrupt := by
  unfold State.writeReg; split <;> rfl
@[simp] theorem State.writeReg_interruptPending (r : Reg) (v : Word) : (s.writeReg r v).interruptPending = s.interruptPending := by
  unfold State.writeReg; split <;> rfl
@[simp] theorem State.writeReg_prev (r : Reg) (v : Word) : (s.writeReg r v).prev = s.prev := by
  unfold State.writeReg; split <;> rfl
@[simp] theorem State.writeReg_staleNext (r : Reg) (v : Word) : (s.writeReg r v).staleNext = s.staleNext := by
  unfold State.writeReg; split <;> rfl
@[simp] theorem State.writeReg_staleSecond (r : Reg) (v : Word) : (s.writeReg r v).staleSecond = s.staleSecond := by
  unfold State.writeReg; split <;> rfl
@[simp] theorem State.writeReg_mmu (r : Reg) (v : Word) : (s.writeReg r v).mmu = s.mmu := by
  unfold State.writeReg; split <;> rfl
@[simp] theorem State.writeReg_mmuChange (r : Reg) (v : Word) : (s.writeReg r v).mmuChange = s.mmuChange := by
  unfold State.writeReg; split <;> rfl
@[simp] theorem State.writeReg_platform (r : Reg) (v : Word) : (s.writeReg r v).platform = s.platform := by
  unfold State.writeReg; split <;> rfl
@[simp] theorem State.writeReg_intRequests (r : Reg) (v : Word) : (s.writeReg r v).intRequests = s.intRequests := by
  unfold State.writeReg; split <;> rfl
@[simp] theorem State.writeReg_ioLog (r : Reg) (v : Word) : (s.writeReg r v).ioLog = s.ioLog := by
  unfold State.writeReg; split <;> rfl
@[simp] theorem State.writeReg_freeCount (r : Reg) (v : Word) : (s.writeReg r v).freeCount = s.freeCount := by
  unfold State.writeReg; split <;> rfl

@[simp] theorem State.writeReg_readPc (r : Reg) (v : Word) : (s.writeReg r v).readPc = s.readPc := by
  simp [State.readPc]

/-! ### writeMmu -/

@[simp] theorem State.writeMmu_pc (i : BitVec 4) (v : Word) : (s.writeMmu i v).pc = s.pc := rfl
@[simp] theorem State.writeMmu_regs (i : BitVec 4) (v : Word) : (s.writeMmu i v).regs = s.regs := rfl
@[simp] theorem State.writeMmu_mem (i : BitVec 4) (v : Word) : (s.writeMmu i v).mem = s.mem := rfl
@[simp] theorem State.writeMmu_a (i : BitVec 4) (v : Word) : (s.writeMmu i v).a = s.a := rfl
@[simp] theorem State.writeMmu_b (i : BitVec 4) (v : Word) : (s.writeMmu i v).b = s.b := rfl
@[simp] theorem State.writeMmu_carryOut (i : BitVec 4) (v : Word) : (s.writeMmu i v).carryOut = s.carryOut := rfl
@[simp] theorem State.writeMmu_carryValid (i : BitVec 4) (v : Word) : (s.writeMmu i v).carryValid = s.carryValid := rfl
@[simp] theorem State.writeMmu_shiftOut (i : BitVec 4) (v : Word) : (s.writeMmu i v).shiftOut = s.shiftOut := rfl
@[simp] theorem State.writeMmu_hasImmPrefix (i : BitVec 4) (v : Word) : (s.writeMmu i v).hasImmPrefix = s.hasImmPrefix := rfl
@[simp] theorem State.writeMmu_immPrefix (i : BitVec 4) (v : Word) : (s.writeMmu i v).immPrefix = s.immPrefix := rfl
@[simp] theorem State.writeMmu_canInterrupt (i : BitVec 4) (v : Word) : (s.writeMmu i v).canInterrupt = s.canInterrupt := rfl
@[simp] theorem State.writeMmu_interruptPending (i : BitVec 4) (v : Word) : (s.writeMmu i v).interruptPending = s.interruptPending := rfl
@[simp] theorem State.writeMmu_prev (i : BitVec 4) (v : Word) : (s.writeMmu i v).prev = s.prev := rfl
@[simp] theorem State.writeMmu_staleNext (i : BitVec 4) (v : Word) : (s.writeMmu i v).staleNext = s.staleNext := rfl
@[simp] theorem State.writeMmu_staleSecond (i : BitVec 4) (v : Word) : (s.writeMmu i v).staleSecond = s.staleSecond := rfl
@[simp] theorem State.writeMmu_mmu (i : BitVec 4) (v : Word) : (s.writeMmu i v).mmu = s.mmu.set i.toNat v i.isLt := rfl
@[simp] theorem State.writeMmu_mmuChange (i : BitVec 4) (v : Word) : (s.writeMmu i v).mmuChange = some (i, s.mmu.get i.toFin) := rfl
@[simp] theorem State.writeMmu_platform (i : BitVec 4) (v : Word) : (s.writeMmu i v).platform = s.platform := rfl
@[simp] theorem State.writeMmu_intRequests (i : BitVec 4) (v : Word) : (s.writeMmu i v).intRequests = s.intRequests := rfl
@[simp] theorem State.writeMmu_ioLog (i : BitVec 4) (v : Word) : (s.writeMmu i v).ioLog = s.ioLog := rfl
@[simp] theorem State.writeMmu_freeCount (i : BitVec 4) (v : Word) : (s.writeMmu i v).freeCount = s.freeCount := rfl
@[simp] theorem State.writeMmu_readReg (i : BitVec 4) (v : Word) (x : Reg) : (s.writeMmu i v).readReg x = s.readReg x := rfl
@[simp] theorem State.writeMmu_readPc (i : BitVec 4) (v : Word) : (s.writeMmu i v).readPc = s.readPc := rfl

/-! ### markStored: `s` is the state marked, `u` the one before the store -/

@[simp] theorem State.markStored_pc (u : State) (l : List Word) : (s.markStored u l).pc = s.pc := rfl
@[simp] theorem State.markStored_regs (u : State) (l : List Word) : (s.markStored u l).regs = s.regs := rfl
@[simp] theorem State.markStored_mem (u : State) (l : List Word) : (s.markStored u l).mem = s.mem := rfl
@[simp] theorem State.markStored_a (u : State) (l : List Word) : (s.markStored u l).a = s.a := rfl
@[simp] theorem State.markStored_b (u : State) (l : List Word) : (s.markStored u l).b = s.b := rfl
@[simp] theorem State.markStored_carryOut (u : State) (l : List Word) : (s.markStored u l).carryOut = s.carryOut := rfl
@[simp] theorem State.markStored_carryValid (u : State) (l : List Word) : (s.markStored u l).carryValid = s.carryValid := rfl
@[simp] theorem State.markStored_shiftOut (u : State) (l : List Word) : (s.markStored u l).shiftOut = s.shiftOut := rfl
@[simp] theorem State.markStored_hasImmPrefix (u : State) (l : List Word) : (s.markStored u l).hasImmPrefix = s.hasImmPrefix := rfl
@[simp] theorem State.markStored_immPrefix (u : State) (l : List Word) : (s.markStored u l).immPrefix = s.immPrefix := rfl
@[simp] theorem State.markStored_canInterrupt (u : State) (l : List Word) : (s.markStored u l).canInterrupt = s.canInterrupt := rfl
@[simp] theorem State.markStored_interruptPending (u : State) (l : List Word) : (s.markStored u l).interruptPending = s.interruptPending := rfl
@[simp] theorem State.markStored_prev (u : State) (l : List Word) : (s.markStored u l).prev = s.prev := rfl
@[simp] theorem State.markStored_staleNext (u : State) (l : List Word) : (s.markStored u l).staleNext = (s.staleNext || u.storeHits l u.readPc) := rfl
@[simp] theorem State.markStored_staleSecond (u : State) (l : List Word) : (s.markStored u l).staleSecond = (s.staleSecond || u.storeHits l (u.readPc + 2#16)) := rfl
@[simp] theorem State.markStored_mmu (u : State) (l : List Word) : (s.markStored u l).mmu = s.mmu := rfl
@[simp] theorem State.markStored_mmuChange (u : State) (l : List Word) : (s.markStored u l).mmuChange = s.mmuChange := rfl
@[simp] theorem State.markStored_platform (u : State) (l : List Word) : (s.markStored u l).platform = s.platform := rfl
@[simp] theorem State.markStored_intRequests (u : State) (l : List Word) : (s.markStored u l).intRequests = s.intRequests := rfl
@[simp] theorem State.markStored_ioLog (u : State) (l : List Word) : (s.markStored u l).ioLog = s.ioLog := rfl
@[simp] theorem State.markStored_freeCount (u : State) (l : List Word) : (s.markStored u l).freeCount = s.freeCount := rfl
@[simp] theorem State.markStored_readReg (u : State) (l : List Word) (x : Reg) :
    (s.markStored u l).readReg x = s.readReg x := rfl
@[simp] theorem State.markStored_readPc (u : State) (l : List Word) : (s.markStored u l).readPc = s.readPc := rfl

/-! ### finishArith -/

@[simp] theorem State.finishArith_pc (m : Mnemonic) (r : Reg) (p q : Word) (c : Bool) (v : Word) : (s.finishArith m r p q c v).pc = s.pc := by
  simp [State.finishArith]
@[simp] theorem State.finishArith_mem (m : Mnemonic) (r : Reg) (p q : Word) (c : Bool) (v : Word) : (s.finishArith m r p q c v).mem = s.mem := by
  simp [State.finishArith]
@[simp] theorem State.finishArith_a (m : Mnemonic) (r : Reg) (p q : Word) (c : Bool) (v : Word) : (s.finishArith m r p q c v).a = p := by
  simp [State.finishArith]
@[simp] theorem State.finishArith_b (m : Mnemonic) (r : Reg) (p q : Word) (c : Bool) (v : Word) : (s.finishArith m r p q c v).b = q := by
  simp [State.finishArith]
@[simp] theorem State.finishArith_carryOut (m : Mnemonic) (r : Reg) (p q : Word) (c : Bool) (v : Word) : (s.finishArith m r p q c v).carryOut = c := by
  simp [State.finishArith]
@[simp] theorem State.finishArith_carryValid (m : Mnemonic) (r : Reg) (p q : Word) (c : Bool) (v : Word) : (s.finishArith m r p q c v).carryValid = (if carryProducers.contains m then true else if m = .imm then s.carryValid else false) := by
  simp [State.finishArith]
@[simp] theorem State.finishArith_shiftOut (m : Mnemonic) (r : Reg) (p q : Word) (c : Bool) (v : Word) : (s.finishArith m r p q c v).shiftOut = s.shiftOut := by
  simp [State.finishArith]
@[simp] theorem State.finishArith_hasImmPrefix (m : Mnemonic) (r : Reg) (p q : Word) (c : Bool) (v : Word) : (s.finishArith m r p q c v).hasImmPrefix = s.hasImmPrefix := by
  simp [State.finishArith]
@[simp] theorem State.finishArith_immPrefix (m : Mnemonic) (r : Reg) (p q : Word) (c : Bool) (v : Word) : (s.finishArith m r p q c v).immPrefix = s.immPrefix := by
  simp [State.finishArith]
@[simp] theorem State.finishArith_canInterrupt (m : Mnemonic) (r : Reg) (p q : Word) (c : Bool) (v : Word) : (s.finishArith m r p q c v).canInterrupt = false := by
  simp [State.finishArith]
@[simp] theorem State.finishArith_interruptPending (m : Mnemonic) (r : Reg) (p q : Word) (c : Bool) (v : Word) : (s.finishArith m r p q c v).interruptPending = s.interruptPending := by
  simp [State.finishArith]
@[simp] theorem State.finishArith_prev (m : Mnemonic) (r : Reg) (p q : Word) (c : Bool) (v : Word) : (s.finishArith m r p q c v).prev = ⟨.instr m, destSet (some r)⟩ := by
  simp [State.finishArith]
@[simp] theorem State.finishArith_staleNext (m : Mnemonic) (r : Reg) (p q : Word) (c : Bool) (v : Word) : (s.finishArith m r p q c v).staleNext = s.staleNext := by
  simp [State.finishArith]
@[simp] theorem State.finishArith_staleSecond (m : Mnemonic) (r : Reg) (p q : Word) (c : Bool) (v : Word) : (s.finishArith m r p q c v).staleSecond = s.staleSecond := by
  simp [State.finishArith]
@[simp] theorem State.finishArith_mmu (m : Mnemonic) (r : Reg) (p q : Word) (c : Bool) (v : Word) : (s.finishArith m r p q c v).mmu = s.mmu := by
  simp [State.finishArith]
@[simp] theorem State.finishArith_mmuChange (m : Mnemonic) (r : Reg) (p q : Word) (c : Bool) (v : Word) : (s.finishArith m r p q c v).mmuChange = s.mmuChange := by
  simp [State.finishArith]
@[simp] theorem State.finishArith_platform (m : Mnemonic) (r : Reg) (p q : Word) (c : Bool) (v : Word) : (s.finishArith m r p q c v).platform = s.platform := by
  simp [State.finishArith]
@[simp] theorem State.finishArith_intRequests (m : Mnemonic) (r : Reg) (p q : Word) (c : Bool) (v : Word) : (s.finishArith m r p q c v).intRequests = s.intRequests := by
  simp [State.finishArith]
@[simp] theorem State.finishArith_ioLog (m : Mnemonic) (r : Reg) (p q : Word) (c : Bool) (v : Word) : (s.finishArith m r p q c v).ioLog = s.ioLog := by
  simp [State.finishArith]
@[simp] theorem State.finishArith_freeCount (m : Mnemonic) (r : Reg) (p q : Word) (c : Bool) (v : Word) : (s.finishArith m r p q c v).freeCount = s.freeCount := by
  simp [State.finishArith]

@[simp] theorem State.finishArith_readPc (m : Mnemonic) (r : Reg) (p q : Word) (c : Bool) (v : Word) :
    (s.finishArith m r p q c v).readPc = s.readPc := by
  simp [State.readPc]

/-! ### finishResult -/

@[simp] theorem State.finishResult_pc (m : Mnemonic) (r : Reg) (v : Word) : (s.finishResult m r v).pc = s.pc := by
  simp [State.finishResult]
@[simp] theorem State.finishResult_mem (m : Mnemonic) (r : Reg) (v : Word) : (s.finishResult m r v).mem = s.mem := by
  simp [State.finishResult]
@[simp] theorem State.finishResult_a (m : Mnemonic) (r : Reg) (v : Word) : (s.finishResult m r v).a = s.a := by
  simp [State.finishResult]
@[simp] theorem State.finishResult_b (m : Mnemonic) (r : Reg) (v : Word) : (s.finishResult m r v).b = s.b := by
  simp [State.finishResult]
@[simp] theorem State.finishResult_carryOut (m : Mnemonic) (r : Reg) (v : Word) : (s.finishResult m r v).carryOut = s.carryOut := by
  simp [State.finishResult]
@[simp] theorem State.finishResult_carryValid (m : Mnemonic) (r : Reg) (v : Word) : (s.finishResult m r v).carryValid = (if carryProducers.contains m then true else if m = .imm then s.carryValid else false) := by
  simp [State.finishResult]
@[simp] theorem State.finishResult_shiftOut (m : Mnemonic) (r : Reg) (v : Word) : (s.finishResult m r v).shiftOut = s.shiftOut := by
  simp [State.finishResult]
@[simp] theorem State.finishResult_hasImmPrefix (m : Mnemonic) (r : Reg) (v : Word) : (s.finishResult m r v).hasImmPrefix = s.hasImmPrefix := by
  simp [State.finishResult]
@[simp] theorem State.finishResult_immPrefix (m : Mnemonic) (r : Reg) (v : Word) : (s.finishResult m r v).immPrefix = s.immPrefix := by
  simp [State.finishResult]
@[simp] theorem State.finishResult_canInterrupt (m : Mnemonic) (r : Reg) (v : Word) : (s.finishResult m r v).canInterrupt = s.canInterrupt := by
  simp [State.finishResult]
@[simp] theorem State.finishResult_interruptPending (m : Mnemonic) (r : Reg) (v : Word) : (s.finishResult m r v).interruptPending = s.interruptPending := by
  simp [State.finishResult]
@[simp] theorem State.finishResult_prev (m : Mnemonic) (r : Reg) (v : Word) : (s.finishResult m r v).prev = ⟨.instr m, destSet (some r)⟩ := by
  simp [State.finishResult]
@[simp] theorem State.finishResult_staleNext (m : Mnemonic) (r : Reg) (v : Word) : (s.finishResult m r v).staleNext = s.staleNext := by
  simp [State.finishResult]
@[simp] theorem State.finishResult_staleSecond (m : Mnemonic) (r : Reg) (v : Word) : (s.finishResult m r v).staleSecond = s.staleSecond := by
  simp [State.finishResult]
@[simp] theorem State.finishResult_mmu (m : Mnemonic) (r : Reg) (v : Word) : (s.finishResult m r v).mmu = s.mmu := by
  simp [State.finishResult]
@[simp] theorem State.finishResult_mmuChange (m : Mnemonic) (r : Reg) (v : Word) : (s.finishResult m r v).mmuChange = s.mmuChange := by
  simp [State.finishResult]
@[simp] theorem State.finishResult_platform (m : Mnemonic) (r : Reg) (v : Word) : (s.finishResult m r v).platform = s.platform := by
  simp [State.finishResult]
@[simp] theorem State.finishResult_intRequests (m : Mnemonic) (r : Reg) (v : Word) : (s.finishResult m r v).intRequests = s.intRequests := by
  simp [State.finishResult]
@[simp] theorem State.finishResult_ioLog (m : Mnemonic) (r : Reg) (v : Word) : (s.finishResult m r v).ioLog = s.ioLog := by
  simp [State.finishResult]
@[simp] theorem State.finishResult_freeCount (m : Mnemonic) (r : Reg) (v : Word) : (s.finishResult m r v).freeCount = s.freeCount := by
  simp [State.finishResult]

@[simp] theorem State.finishResult_readPc (m : Mnemonic) (r : Reg) (v : Word) :
    (s.finishResult m r v).readPc = s.readPc := by
  simp [State.readPc]

/-! ### finishShift -/

@[simp] theorem State.finishShift_pc (m : Mnemonic) (r : Reg) (o : Bool) (v : Word) : (s.finishShift m r o v).pc = s.pc := by
  simp [State.finishShift]
@[simp] theorem State.finishShift_mem (m : Mnemonic) (r : Reg) (o : Bool) (v : Word) : (s.finishShift m r o v).mem = s.mem := by
  simp [State.finishShift]
@[simp] theorem State.finishShift_a (m : Mnemonic) (r : Reg) (o : Bool) (v : Word) : (s.finishShift m r o v).a = s.a := by
  simp [State.finishShift]
@[simp] theorem State.finishShift_b (m : Mnemonic) (r : Reg) (o : Bool) (v : Word) : (s.finishShift m r o v).b = s.b := by
  simp [State.finishShift]
@[simp] theorem State.finishShift_carryOut (m : Mnemonic) (r : Reg) (o : Bool) (v : Word) : (s.finishShift m r o v).carryOut = s.carryOut := by
  simp [State.finishShift]
@[simp] theorem State.finishShift_carryValid (m : Mnemonic) (r : Reg) (o : Bool) (v : Word) : (s.finishShift m r o v).carryValid = (if carryProducers.contains m then true else if m = .imm then s.carryValid else false) := by
  simp [State.finishShift]
@[simp] theorem State.finishShift_shiftOut (m : Mnemonic) (r : Reg) (o : Bool) (v : Word) : (s.finishShift m r o v).shiftOut = o := by
  simp [State.finishShift]
@[simp] theorem State.finishShift_hasImmPrefix (m : Mnemonic) (r : Reg) (o : Bool) (v : Word) : (s.finishShift m r o v).hasImmPrefix = s.hasImmPrefix := by
  simp [State.finishShift]
@[simp] theorem State.finishShift_immPrefix (m : Mnemonic) (r : Reg) (o : Bool) (v : Word) : (s.finishShift m r o v).immPrefix = s.immPrefix := by
  simp [State.finishShift]
@[simp] theorem State.finishShift_canInterrupt (m : Mnemonic) (r : Reg) (o : Bool) (v : Word) : (s.finishShift m r o v).canInterrupt = s.canInterrupt := by
  simp [State.finishShift]
@[simp] theorem State.finishShift_interruptPending (m : Mnemonic) (r : Reg) (o : Bool) (v : Word) : (s.finishShift m r o v).interruptPending = s.interruptPending := by
  simp [State.finishShift]
@[simp] theorem State.finishShift_prev (m : Mnemonic) (r : Reg) (o : Bool) (v : Word) : (s.finishShift m r o v).prev = ⟨.instr m, destSet (some r)⟩ := by
  simp [State.finishShift]
@[simp] theorem State.finishShift_staleNext (m : Mnemonic) (r : Reg) (o : Bool) (v : Word) : (s.finishShift m r o v).staleNext = s.staleNext := by
  simp [State.finishShift]
@[simp] theorem State.finishShift_staleSecond (m : Mnemonic) (r : Reg) (o : Bool) (v : Word) : (s.finishShift m r o v).staleSecond = s.staleSecond := by
  simp [State.finishShift]
@[simp] theorem State.finishShift_mmu (m : Mnemonic) (r : Reg) (o : Bool) (v : Word) : (s.finishShift m r o v).mmu = s.mmu := by
  simp [State.finishShift]
@[simp] theorem State.finishShift_mmuChange (m : Mnemonic) (r : Reg) (o : Bool) (v : Word) : (s.finishShift m r o v).mmuChange = s.mmuChange := by
  simp [State.finishShift]
@[simp] theorem State.finishShift_platform (m : Mnemonic) (r : Reg) (o : Bool) (v : Word) : (s.finishShift m r o v).platform = s.platform := by
  simp [State.finishShift]
@[simp] theorem State.finishShift_intRequests (m : Mnemonic) (r : Reg) (o : Bool) (v : Word) : (s.finishShift m r o v).intRequests = s.intRequests := by
  simp [State.finishShift]
@[simp] theorem State.finishShift_ioLog (m : Mnemonic) (r : Reg) (o : Bool) (v : Word) : (s.finishShift m r o v).ioLog = s.ioLog := by
  simp [State.finishShift]
@[simp] theorem State.finishShift_freeCount (m : Mnemonic) (r : Reg) (o : Bool) (v : Word) : (s.finishShift m r o v).freeCount = s.freeCount := by
  simp [State.finishShift]

@[simp] theorem State.finishShift_readPc (m : Mnemonic) (r : Reg) (o : Bool) (v : Word) :
    (s.finishShift m r o v).readPc = s.readPc := by
  simp [State.readPc]

/-! ### branchIf -/

@[simp] theorem State.branchIf_regs (t : Bool) (d : BitVec 8) : (s.branchIf t d).regs = s.regs := by
  unfold State.branchIf; split <;> rfl
@[simp] theorem State.branchIf_mem (t : Bool) (d : BitVec 8) : (s.branchIf t d).mem = s.mem := by
  unfold State.branchIf; split <;> rfl
@[simp] theorem State.branchIf_a (t : Bool) (d : BitVec 8) : (s.branchIf t d).a = s.a := by
  unfold State.branchIf; split <;> rfl
@[simp] theorem State.branchIf_b (t : Bool) (d : BitVec 8) : (s.branchIf t d).b = s.b := by
  unfold State.branchIf; split <;> rfl
@[simp] theorem State.branchIf_carryOut (t : Bool) (d : BitVec 8) : (s.branchIf t d).carryOut = s.carryOut := by
  unfold State.branchIf; split <;> rfl
@[simp] theorem State.branchIf_carryValid (t : Bool) (d : BitVec 8) : (s.branchIf t d).carryValid = s.carryValid := by
  unfold State.branchIf; split <;> rfl
@[simp] theorem State.branchIf_shiftOut (t : Bool) (d : BitVec 8) : (s.branchIf t d).shiftOut = s.shiftOut := by
  unfold State.branchIf; split <;> rfl
@[simp] theorem State.branchIf_hasImmPrefix (t : Bool) (d : BitVec 8) : (s.branchIf t d).hasImmPrefix = s.hasImmPrefix := by
  unfold State.branchIf; split <;> rfl
@[simp] theorem State.branchIf_immPrefix (t : Bool) (d : BitVec 8) : (s.branchIf t d).immPrefix = s.immPrefix := by
  unfold State.branchIf; split <;> rfl
@[simp] theorem State.branchIf_canInterrupt (t : Bool) (d : BitVec 8) : (s.branchIf t d).canInterrupt = s.canInterrupt := by
  unfold State.branchIf; split <;> rfl
@[simp] theorem State.branchIf_interruptPending (t : Bool) (d : BitVec 8) : (s.branchIf t d).interruptPending = s.interruptPending := by
  unfold State.branchIf; split <;> rfl
@[simp] theorem State.branchIf_prev (t : Bool) (d : BitVec 8) : (s.branchIf t d).prev = s.prev := by
  unfold State.branchIf; split <;> rfl
@[simp] theorem State.branchIf_mmu (t : Bool) (d : BitVec 8) : (s.branchIf t d).mmu = s.mmu := by
  unfold State.branchIf; split <;> rfl
@[simp] theorem State.branchIf_mmuChange (t : Bool) (d : BitVec 8) : (s.branchIf t d).mmuChange = s.mmuChange := by
  unfold State.branchIf; split <;> rfl
@[simp] theorem State.branchIf_platform (t : Bool) (d : BitVec 8) : (s.branchIf t d).platform = s.platform := by
  unfold State.branchIf; split <;> rfl
@[simp] theorem State.branchIf_intRequests (t : Bool) (d : BitVec 8) : (s.branchIf t d).intRequests = s.intRequests := by
  unfold State.branchIf; split <;> rfl
@[simp] theorem State.branchIf_ioLog (t : Bool) (d : BitVec 8) : (s.branchIf t d).ioLog = s.ioLog := by
  unfold State.branchIf; split <;> rfl
@[simp] theorem State.branchIf_freeCount (t : Bool) (d : BitVec 8) : (s.branchIf t d).freeCount = s.freeCount := by
  unfold State.branchIf; split <;> rfl
@[simp] theorem State.branchIf_readReg (t : Bool) (d : BitVec 8) (x : Reg) : (s.branchIf t d).readReg x = s.readReg x := by
  unfold State.branchIf; split <;> rfl

/-! ### takeInterrupt -/

@[simp] theorem State.takeInterrupt_pc : s.takeInterrupt.pc = 0x0010#16 := rfl
@[simp] theorem State.takeInterrupt_mem : s.takeInterrupt.mem = s.mem := by
  simp [State.takeInterrupt]
@[simp] theorem State.takeInterrupt_a : s.takeInterrupt.a = s.a := by
  simp [State.takeInterrupt]
@[simp] theorem State.takeInterrupt_b : s.takeInterrupt.b = s.b := by
  simp [State.takeInterrupt]
@[simp] theorem State.takeInterrupt_carryOut : s.takeInterrupt.carryOut = s.carryOut := by
  simp [State.takeInterrupt]
@[simp] theorem State.takeInterrupt_carryValid : s.takeInterrupt.carryValid = false := rfl
@[simp] theorem State.takeInterrupt_shiftOut : s.takeInterrupt.shiftOut = s.shiftOut := by
  simp [State.takeInterrupt]
@[simp] theorem State.takeInterrupt_hasImmPrefix : s.takeInterrupt.hasImmPrefix = s.hasImmPrefix := by
  simp [State.takeInterrupt]
@[simp] theorem State.takeInterrupt_immPrefix : s.takeInterrupt.immPrefix = s.immPrefix := by
  simp [State.takeInterrupt]
@[simp] theorem State.takeInterrupt_canInterrupt : s.takeInterrupt.canInterrupt = s.canInterrupt := by
  simp [State.takeInterrupt]
@[simp] theorem State.takeInterrupt_interruptPending : s.takeInterrupt.interruptPending = false := rfl
@[simp] theorem State.takeInterrupt_prev : s.takeInterrupt.prev = ⟨.int, withLink s.prev.dests⟩ := rfl
@[simp] theorem State.takeInterrupt_staleNext : s.takeInterrupt.staleNext = false := rfl
@[simp] theorem State.takeInterrupt_staleSecond : s.takeInterrupt.staleSecond = false := rfl
@[simp] theorem State.takeInterrupt_mmu : s.takeInterrupt.mmu = s.mmu := by
  simp [State.takeInterrupt]
@[simp] theorem State.takeInterrupt_mmuChange : s.takeInterrupt.mmuChange = s.mmuChange := by
  simp [State.takeInterrupt]
@[simp] theorem State.takeInterrupt_platform : s.takeInterrupt.platform = s.platform := by
  simp [State.takeInterrupt]
@[simp] theorem State.takeInterrupt_intRequests : s.takeInterrupt.intRequests = s.intRequests := by
  simp [State.takeInterrupt]
@[simp] theorem State.takeInterrupt_ioLog : s.takeInterrupt.ioLog = s.ioLog := by
  simp [State.takeInterrupt]
@[simp] theorem State.takeInterrupt_freeCount : s.takeInterrupt.freeCount = s.freeCount := by
  simp [State.takeInterrupt]

end Sys2Proof.Machine
end

