-- ==== Sys2Proof/Laws/Registers.lean ====
section
/-! SUPPORT. Registers and pc: r0 and pc bit 0 are hard-wired (10_state R20, R22), a write reads back, and every
other register keeps its value. -/

namespace Sys2Proof.Machine

@[simp] theorem evenWord_zero : evenWord 0#16 = 0#16 := rfl

/-- Clearing bit 0 is a shift right and back. -/
theorem evenWord_eq_shift (v : Word) : evenWord v = (v >>> 1) <<< 1 := by
  apply BitVec.eq_of_getLsbD_eq
  intro i hi
  have e : (0xFFFE#16).getLsbD i = decide (i ≠ 0) := by
    have : ∀ j < 16, (0xFFFE#16).getLsbD j = decide (j ≠ 0) := by decide
    exact this i hi
  cases i with
  | zero => simp [evenWord]
  | succ i =>
    simp only [evenWord, BitVec.getLsbD_and, e, BitVec.getLsbD_shiftLeft, BitVec.getLsbD_ushiftRight]
    simp [hi, Nat.add_comm]

theorem evenWord_toNat (v : Word) : (evenWord v).toNat = v.toNat / 2 * 2 := by
  have := v.isLt
  rw [evenWord_eq_shift, BitVec.toNat_shiftLeft, BitVec.toNat_ushiftRight, Nat.shiftRight_eq_div_pow,
    Nat.shiftLeft_eq]
  omega

@[simp] theorem evenWord_evenWord (v : Word) : evenWord (evenWord v) = evenWord v := by
  apply BitVec.eq_of_toNat_eq; rw [evenWord_toNat, evenWord_toNat]; omega

/-- An even word plus an even word is even. -/
theorem evenWord_add (u v : Word) : evenWord (evenWord u + evenWord v) = evenWord u + evenWord v := by
  apply BitVec.eq_of_toNat_eq
  rw [evenWord_toNat, BitVec.toNat_add, evenWord_toNat, evenWord_toNat]; omega

@[simp] theorem evenWord_two : evenWord 2#16 = 2#16 := rfl

@[simp] theorem evenWord_bit0 (v : Word) : (evenWord v).getLsbD 0 = false := by
  simp [evenWord]

@[simp] theorem State.evenWord_readPc (s : State) : evenWord s.readPc = s.readPc := by simp [State.readPc]

@[simp] theorem State.writePc_readPc (s : State) (v : Word) : (s.writePc v).readPc = evenWord v := by
  simp [State.readPc]

@[simp] theorem State.jumpTo_readPc (s : State) (v : Word) : (s.jumpTo v).readPc = evenWord v := by
  simp [State.readPc]

@[simp] theorem State.pre_readPc (s : State) : s.pre.readPc = s.readPc + 2#16 := by
  have := evenWord_add s.readPc 2#16
  simp only [State.evenWord_readPc, evenWord_two] at this
  simp [State.readPc] at *
  exact this

@[simp] theorem State.readReg_zero (s : State) : s.readReg 0#4 = 0#16 := rfl

/-- What a register reads after a write. -/
theorem State.readReg_writeReg (s : State) (r x : Reg) (v : Word) :
    (s.writeReg r v).readReg x = if x = r ∧ r ≠ 0#4 then v else s.readReg x := by
  unfold State.writeReg State.readReg
  by_cases hr : r = 0#4
  · simp [hr]
  · by_cases hx : x = 0#4
    · have : ¬ (x = r) := fun h => hr (h ▸ hx)
      simp [hx]
      intro h; exact absurd h.symm hr
    · simp only [hr, hx, if_false]
      by_cases e : x = r
      · subst e; simp [hx, Vector.get_eq_getElem]
      · have : r.toNat ≠ x.toNat := fun h => e (BitVec.eq_of_toNat_eq h.symm)
        simp [e, Vector.get_eq_getElem, this]

@[simp] theorem State.readReg_writeReg_self (s : State) (r : Reg) (v : Word) (h : r ≠ 0#4) :
    (s.writeReg r v).readReg r = v := by simp [State.readReg_writeReg, h]

theorem State.readReg_writeReg_other (s : State) (r x : Reg) (v : Word) (h : x ≠ r) :
    (s.writeReg r v).readReg x = s.readReg x := by simp [State.readReg_writeReg, h]

/-- r0's own cell is never written. -/
theorem State.writeReg_regs_zero (s : State) (r : Reg) (v : Word) :
    (s.writeReg r v).regs.get 0 = s.regs.get 0 := by
  unfold State.writeReg
  by_cases hr : r = 0#4
  · simp [hr]
  · have : r.toNat ≠ 0 := fun h => hr (BitVec.eq_of_toNat_eq h)
    simp [hr, Vector.get_eq_getElem, this]

theorem State.readReg_finishArith (s : State) (m : Mnemonic) (r x : Reg) (p q : Word) (c : Bool) (v : Word) :
    (s.finishArith m r p q c v).readReg x = if x = r ∧ r ≠ 0#4 then v else s.readReg x := by
  simp [State.finishArith, State.readReg_writeReg]; rfl

theorem State.readReg_finishResult (s : State) (m : Mnemonic) (r x : Reg) (v : Word) :
    (s.finishResult m r v).readReg x = if x = r ∧ r ≠ 0#4 then v else s.readReg x := by
  simp [State.finishResult, State.readReg_writeReg]

theorem State.readReg_finishShift (s : State) (m : Mnemonic) (r x : Reg) (o : Bool) (v : Word) :
    (s.finishShift m r o v).readReg x = if x = r ∧ r ≠ 0#4 then v else s.readReg x := by
  simp [State.finishShift, State.readReg_writeReg]; rfl

theorem State.readReg_takeInterrupt (s : State) (x : Reg) :
    s.takeInterrupt.readReg x = if x = 14#4 then s.readPc else s.readReg x := by
  have h : s.takeInterrupt.readReg x = (s.writeReg 14#4 s.readPc).readReg x := rfl
  rw [h, State.readReg_writeReg]
  simp

end Sys2Proof.Machine
end

