-- ==== Sys2Proof/Laws/Access.lean ====
section
/-! SUPPORT. What each shared operation can do, said once: the guards, the reads, the stores, the interrupt check
and the step. -/

namespace Sys2Proof.Machine

/-! ### Guards: a guard that lets the instruction go on has its condition -/

theorem guardRb_next {s t : State} {rb : Reg} {k : Result} :
    s.guardRb rb k = .next t ↔ rb ∉ s.prev.dests ∧ k = .next t := by
  unfold State.guardRb; split <;> simp_all

theorem guardStoreData_next {s t : State} {rd : Reg} {k : Result} :
    s.guardStoreData rd k = .next t ↔ rd ∉ s.prev.dests ∧ k = .next t := by
  unfold State.guardStoreData; split <;> simp_all

theorem guardCarry_next {s t : State} {k : Result} :
    s.guardCarry k = .next t ↔ s.carryValid = true ∧ k = .next t := by
  unfold State.guardCarry; split <;> simp_all

theorem guardBranchPrefix_next {s t : State} {k : Result} :
    s.guardBranchPrefix k = .next t ↔ s.prev.kind.isBranchPrefix = true ∧ k = .next t := by
  unfold State.guardBranchPrefix; split <;> simp_all

theorem guardCount_next {immed : Word} {t : State} {k : Result} :
    guardCount immed k = .next t ↔ immed = 0x0001#16 ∧ k = .next t := by
  unfold guardCount; split <;> simp_all

theorem guardShift_next {s t : State} {k : Result} :
    s.guardShift k = .next t ↔ s.prev.kind.isShift = true ∧ k = .next t := by
  unfold State.guardShift; split <;> simp_all

theorem guardAligned_next {ea : Word} {t : State} {k : Result} :
    guardAligned ea k = .next t ↔ ea.getLsbD 0 = false ∧ k = .next t := by
  unfold guardAligned; split <;> simp_all

theorem afterAccess_next {α : Type} {r : Except Fault α} {k : α → Result} {t : State} :
    afterAccess r k = .next t ↔ ∃ x, r = .ok x ∧ k x = .next t := by
  unfold afterAccess; cases r <;> simp

theorem afterNext_next {r : Result} {k : State → State} {t : State} :
    afterNext r k = .next t ↔ ∃ u, r = .next u ∧ t = k u := by
  unfold afterNext; cases r <;> simp [eq_comm]

/-! ### Locations -/

/-- Every place an address can go, with what sends it there. -/
theorem locate_cases (s : State) (va : Word) :
    (s.platform.inIo va = true ∧
      ((∃ off, s.platform.mmuPresent = true ∧ va.toNat < s.platform.ioBase + 32 ∧ s.locate va = .mmuReg off) ∨
       (s.platform.ioDevice = true ∧ s.locate va = .device va) ∨
       (s.platform.ioDevice = false ∧ s.locate va = .absent va))) ∨
    (s.platform.inIo va = false ∧
      ((s.platform.mmuPresent = true ∧
          s.locate va = .memory (s.platform.physical (translate (s.mmu.get (pageOf va).toFin) va))) ∨
       (s.platform.mmuPresent = false ∧ s.locate va = .memory (va.setWidth 26)))) := by
  unfold State.locate Platform.locate
  split
  · rename_i hio
    refine .inl ⟨hio, ?_⟩
    split
    · rename_i hm
      rw [Bool.and_eq_true, decide_eq_true_eq] at hm
      exact .inl ⟨_, hm.1, hm.2, rfl⟩
    · split
      · rename_i hd; exact .inr (.inl ⟨hd, rfl⟩)
      · rename_i hd; exact .inr (.inr ⟨by simpa using hd, rfl⟩)
  · rename_i hio
    refine .inr ⟨by simpa using hio, ?_⟩
    split
    · rename_i hm; exact .inl ⟨hm, rfl⟩
    · rename_i hm; exact .inr ⟨by simpa using hm, rfl⟩

/-- Only an address in I/O space goes anywhere but to memory. -/
theorem inIo_of_locate {s : State} {va : Word} {l : Location} (h : s.locate va = l)
    (hl : ∀ pa, l ≠ .memory pa) : s.platform.inIo va = true := by
  rcases locate_cases s va with ⟨hio, -⟩ | ⟨-, ⟨-, h'⟩ | ⟨-, h'⟩⟩
  · exact hio
  · exact absurd (h.symm.trans h') (hl _)
  · exact absurd (h.symm.trans h') (hl _)

/-- A store in I/O space takes effect (60_exceptions R323). -/
theorem writable_of_inIo {s : State} {va : Word} (h : s.platform.inIo va = true) : s.writable va = true := by
  simp [State.writable, h]

/-- Without the MMU different addresses go to different places. -/
theorem locate_inj {s : State} (hm : s.platform.mmuPresent = false) {u v : Word} :
    s.locate u = s.locate v ↔ u = v := by
  constructor
  · intro h
    rcases locate_cases s u with ⟨-, ⟨_, hm', -⟩ | ⟨-, hu⟩ | ⟨-, hu⟩⟩ | ⟨-, ⟨hm', -⟩ | ⟨-, hu⟩⟩ <;>
    rcases locate_cases s v with ⟨-, ⟨_, hm'', -⟩ | ⟨-, hv⟩ | ⟨-, hv⟩⟩ | ⟨-, ⟨hm'', -⟩ | ⟨-, hv⟩⟩ <;>
    first
    | (exact absurd (hm.symm.trans hm') (by decide))
    | (exact absurd (hm.symm.trans hm'') (by decide))
    | skip
    all_goals rw [hu, hv] at h
    all_goals first
    | (cases h; done)
    | (cases h; rfl)
    | (injection h with h
       apply BitVec.eq_of_toNat_eq
       have e := congrArg BitVec.toNat h
       rw [BitVec.toNat_setWidth, BitVec.toNat_setWidth] at e
       have := u.isLt
       have := v.isLt
       omega)
  · rintro rfl; rfl

/-- The fetch uses the entries as they are, or as they were before the store the last instruction made to one. -/
theorem fetchMmu_cases (s : State) :
    s.fetchMmu = s.mmu ∨ ∃ i old, s.mmuChange = some (i, old) ∧ s.fetchMmu = s.mmu.set i.toNat old i.isLt := by
  unfold State.fetchMmu
  split
  · rename_i i old h
    split
    · exact .inl rfl
    · exact .inr ⟨i, old, h, rfl⟩
  · exact .inl rfl

/-! ### Reads: a read that answers leaves the state as it was, but for what a device has seen -/

theorem readByteAt_ok {s t : State} {l : Location} {v : Byte} (h : s.readByteAt l = .ok (v, t)) :
    (∃ pa, l = .memory pa ∧ s.platform.isPopulated pa = true ∧ v = s.mem.read pa.toNat ∧ t = s) ∨
    (∃ off, l = .mmuReg off ∧
      v = (if off.getLsbD 0 then lowByte else highByte) (s.mmu.get (mmuIndex off).toFin) ∧ t = s) ∨
    (∃ va, l = .device va ∧ v = lowByte (Config.deviceRead s.ioLog va .byte) ∧
      t = { s with ioLog := .read va .byte :: s.ioLog }) := by
  cases l with
  | memory pa =>
    simp only [State.readByteAt] at h
    split at h
    · rename_i hp; cases h; exact .inl ⟨pa, rfl, hp, rfl, rfl⟩
    · cases h
  | mmuReg off =>
    simp only [State.readByteAt] at h
    cases h; refine .inr (.inl ⟨off, rfl, ?_, rfl⟩); split <;> rfl
  | device va => simp only [State.readByteAt] at h; cases h; exact .inr (.inr ⟨va, rfl, rfl, rfl⟩)
  | absent va => simp only [State.readByteAt] at h; cases h

theorem readWordAt_ok {s t : State} {l : Location} {v : Word} (h : s.readWordAt l = .ok (v, t)) :
    (∃ pa, l = .memory pa ∧ s.platform.isPopulated pa = true ∧ s.platform.isPopulated (pa + 1#26) = true ∧
      v = wordOfBytes (s.mem.read pa.toNat) (s.mem.read (pa + 1#26).toNat) ∧ t = s) ∨
    (∃ off, l = .mmuReg off ∧ v = s.mmu.get (mmuIndex off).toFin ∧ t = s) ∨
    (∃ va, l = .device va ∧ v = Config.deviceRead s.ioLog va .word ∧
      t = { s with ioLog := .read va .word :: s.ioLog }) := by
  cases l with
  | memory pa =>
    simp only [State.readWordAt] at h
    split at h
    · rename_i hp
      rw [Bool.and_eq_true] at hp
      cases h; exact .inl ⟨pa, rfl, hp.1, hp.2, rfl, rfl⟩
    · cases h
  | mmuReg off => simp only [State.readWordAt] at h; cases h; exact .inr (.inl ⟨off, rfl, rfl, rfl⟩)
  | device va => simp only [State.readWordAt] at h; cases h; exact .inr (.inr ⟨va, rfl, rfl, rfl⟩)
  | absent va => simp only [State.readWordAt] at h; cases h

/-- A read changes nothing but the device log. -/
theorem readByteAt_state {s t : State} {l : Location} {v : Byte} (h : s.readByteAt l = .ok (v, t)) :
    ∃ log, t = { s with ioLog := log } := by
  rcases readByteAt_ok h with ⟨_, _, _, _, rfl⟩ | ⟨_, _, _, rfl⟩ | ⟨_, _, _, rfl⟩
  · exact ⟨t.ioLog, rfl⟩
  · exact ⟨t.ioLog, rfl⟩
  · exact ⟨_, rfl⟩

theorem readWordAt_state {s t : State} {l : Location} {v : Word} (h : s.readWordAt l = .ok (v, t)) :
    ∃ log, t = { s with ioLog := log } := by
  rcases readWordAt_ok h with ⟨_, _, _, _, _, rfl⟩ | ⟨_, _, _, rfl⟩ | ⟨_, _, _, rfl⟩
  · exact ⟨t.ioLog, rfl⟩
  · exact ⟨t.ioLog, rfl⟩
  · exact ⟨_, rfl⟩

/-! ### Stores -/

theorem writeByteAt_ok {s t : State} {l : Location} {v : Byte} (h : s.writeByteAt l v = .ok t) :
    (∃ pa, l = .memory pa ∧ s.platform.isPopulated pa = true ∧ t = { s with mem := s.mem.write pa.toNat v }) ∨
    (∃ off, l = .mmuReg off ∧
      t = { s.writeMmu (mmuIndex off)
              (Config.mmuByteWrite s.freeCount (s.mmu.get (mmuIndex off).toFin) (off.getLsbD 0) v) with
            freeCount := s.freeCount + 1 }) ∨
    (∃ va, l = .device va ∧ t = { s with ioLog := .write va .byte (v.setWidth 16) :: s.ioLog }) := by
  cases l with
  | memory pa =>
    simp only [State.writeByteAt] at h
    split at h
    · rename_i hp; cases h; exact .inl ⟨pa, rfl, hp, rfl⟩
    · cases h
  | mmuReg off => simp only [State.writeByteAt] at h; cases h; exact .inr (.inl ⟨off, rfl, rfl⟩)
  | device va => simp only [State.writeByteAt] at h; cases h; exact .inr (.inr ⟨va, rfl, rfl⟩)
  | absent va => simp only [State.writeByteAt] at h; cases h

theorem writeWordAt_ok {s t : State} {l : Location} {v : Word} (h : s.writeWordAt l v = .ok t) :
    (∃ pa, l = .memory pa ∧ s.platform.isPopulated pa = true ∧ s.platform.isPopulated (pa + 1#26) = true ∧
      t = { s with mem := (s.mem.write pa.toNat (highByte v)).write (pa + 1#26).toNat (lowByte v) }) ∨
    (∃ off, l = .mmuReg off ∧ t = s.writeMmu (mmuIndex off) v) ∨
    (∃ va, l = .device va ∧ t = { s with ioLog := .write va .word v :: s.ioLog }) := by
  cases l with
  | memory pa =>
    simp only [State.writeWordAt] at h
    split at h
    · rename_i hp
      rw [Bool.and_eq_true] at hp
      cases h; exact .inl ⟨pa, rfl, hp.1, hp.2, rfl⟩
    · cases h
  | mmuReg off => simp only [State.writeWordAt] at h; cases h; exact .inr (.inl ⟨off, rfl, rfl⟩)
  | device va => simp only [State.writeWordAt] at h; cases h; exact .inr (.inr ⟨va, rfl, rfl⟩)
  | absent va => simp only [State.writeWordAt] at h; cases h

/-- A store that answers either found the page unwritable and changed nothing, or wrote at its location. -/
theorem storeByte_ok {s t : State} {ea : Word} {v : Byte} (h : s.storeByte ea v = .ok t) :
    (s.writable ea = false ∧ t = s) ∨
    (s.writable ea = true ∧ ∃ u, s.writeByteAt (s.locate ea) v = .ok u ∧ t = u.markStored s [ea]) := by
  unfold State.storeByte at h
  split at h
  · rename_i hw
    split at h
    · rename_i u hu; cases h; exact .inr ⟨hw, u, hu, rfl⟩
    · cases h
  · rename_i hw; cases h; exact .inl ⟨by simpa using hw, rfl⟩

theorem storeWord_ok {s t : State} {ea v : Word} (h : s.storeWord ea v = .ok t) :
    (s.writable ea = false ∧ t = s) ∨
    (s.writable ea = true ∧ ∃ u, s.writeWordAt (s.locate ea) v = .ok u ∧ t = u.markStored s [ea, ea + 1#16]) := by
  unfold State.storeWord at h
  split at h
  · rename_i hw
    split at h
    · rename_i u hu; cases h; exact .inr ⟨hw, u, hu, rfl⟩
    · cases h
  · rename_i hw; cases h; exact .inl ⟨by simpa using hw, rfl⟩

/-! ### The interrupt and the step -/

theorem interruptCheck_cases (s : State) :
    (s.interruptPending = true ∧ s.canInterrupt = true ∧ s.interruptCheck = s.takeInterrupt) ∨
    ((s.interruptPending = false ∨ s.canInterrupt = false) ∧ s.interruptCheck = s) := by
  unfold State.interruptCheck
  cases s.interruptPending <;> cases s.canInterrupt <;> simp

/-- A fetch that answers was outside the code window; it changes the device log and the counter alone. -/
theorem fetch_ok {s t : State} {w : Word} (h : s.fetch = .ok (w, t)) :
    s.staleNext = false ∧ s.drawForFetch.readWordAt s.fetchLocation = .ok (w, t) ∧
    ∃ log n, t = { s with ioLog := log, freeCount := n } := by
  unfold State.fetch at h
  split at h
  · cases h
  · rename_i hs
    refine ⟨by simpa using hs, h, ?_⟩
    obtain ⟨log, rfl⟩ := readWordAt_state h
    refine ⟨log, s.drawForFetch.freeCount, ?_⟩
    unfold State.drawForFetch
    split <;> rfl

/-- Every completed step: a request accepted, a word fetched, an instruction decoded and completed, and the
interrupt check. -/
theorem step_next {s t : State} (h : step s = .next t) :
    ∃ w s1 i u, s.acceptRequest.fetch = .ok (w, s1) ∧ decodeWord w = .ok i ∧ exec i s1 = .next u ∧
      t = u.interruptCheck := by
  unfold step at h
  split at h
  · cases h
  · rename_i w s1 hf
    split at h
    · cases h
    · rename_i i hd
      obtain ⟨u, hu, rfl⟩ := afterNext_next.1 h
      exact ⟨w, s1, i, u, hf, hd, hu, rfl⟩

/-- Accepting a request touches the request alone. -/
theorem acceptRequest_state (s : State) :
    ∃ p q, s.acceptRequest = { s with interruptPending := p, intRequests := q } := by
  unfold State.acceptRequest
  split
  · exact ⟨s.interruptPending, s.intRequests, rfl⟩
  · exact ⟨_, _, rfl⟩

end Sys2Proof.Machine
end

