-- ==== Sys2Proof/Laws/Encoding.lean ====
section
/-! SUPPORT. The fields of a word built from fields (spec/30_encoding.md R81). -/

namespace Sys2Proof

theorem fields_of_nibbles (d c b a : BitVec 4) :
    field3 (nibbles d c b a) = d ∧ field2 (nibbles d c b a) = c ∧
    field1 (nibbles d c b a) = b ∧ field0 (nibbles d c b a) = a := by
  refine ⟨?_, ?_, ?_, ?_⟩ <;>
  · apply BitVec.eq_of_getLsbD_eq
    intro i hi
    simp only [field3, field2, field1, field0, nibbles, BitVec.getLsbD_extractLsb', BitVec.getLsbD_append]
    have : i = 0 ∨ i = 1 ∨ i = 2 ∨ i = 3 := by omega
    rcases this with rfl | rfl | rfl | rfl <;> simp

theorem fields_of_branch (c : BitVec 4) (d : BitVec 8) :
    field3 (encodeBR c d) = 0xB#4 ∧ field2 (encodeBR c d) = c ∧ dispField (encodeBR c d) = d := by
  refine ⟨?_, ?_, ?_⟩ <;>
  · apply BitVec.eq_of_getLsbD_eq
    intro i hi
    simp only [field3, field2, dispField, encodeBR, BitVec.getLsbD_extractLsb', BitVec.getLsbD_append]
    have : i = 0 ∨ i = 1 ∨ i = 2 ∨ i = 3 ∨ i = 4 ∨ i = 5 ∨ i = 6 ∨ i = 7 := by omega
    rcases this with rfl | rfl | rfl | rfl | rfl | rfl | rfl | rfl <;> simp at hi ⊢

theorem fields_of_imm12 (c : BitVec 4) (d : BitVec 12) :
    field3 (encodeI12 c d) = c ∧ imm12Field (encodeI12 c d) = d := by
  constructor
  · apply BitVec.eq_of_getLsbD_eq
    intro i hi
    simp only [field3, encodeI12, BitVec.getLsbD_extractLsb', BitVec.getLsbD_append]
    have : i = 0 ∨ i = 1 ∨ i = 2 ∨ i = 3 := by omega
    rcases this with rfl | rfl | rfl | rfl <;> simp
  · apply BitVec.eq_of_getLsbD_eq
    intro i hi
    simp only [imm12Field, encodeI12, BitVec.getLsbD_extractLsb', BitVec.getLsbD_append]
    simp [hi]

/-- The fields of a word as numbers. -/
theorem fields_toNat (w : Word) :
    (field3 w).toNat = w.toNat / 4096 ∧ (field2 w).toNat = w.toNat / 256 % 16 ∧
    (field1 w).toNat = w.toNat / 16 % 16 ∧ (field0 w).toNat = w.toNat % 16 ∧
    (dispField w).toNat = w.toNat % 256 ∧ (imm12Field w).toNat = w.toNat % 4096 := by
  have := w.isLt
  simp only [field3, field2, field1, field0, dispField, imm12Field, BitVec.extractLsb'_toNat,
    Nat.shiftRight_eq_div_pow]
  norm_num
  omega

/-- Two fields side by side, as numbers. -/
theorem append_toNat {m n : Nat} (x : BitVec m) (y : BitVec n) :
    (x ++ y).toNat = x.toNat * 2 ^ n + y.toNat := by
  rw [BitVec.toNat_append, Nat.shiftLeft_eq, Nat.mul_comm, Nat.two_pow_add_eq_or_of_lt y.isLt]

theorem nibbles_toNat (d c b a : BitVec 4) :
    (nibbles d c b a).toNat = 4096 * d.toNat + 256 * c.toNat + 16 * b.toNat + a.toNat := by
  have h : (nibbles d c b a).toNat = ((d.toNat * 2 ^ 4 + c.toNat) * 2 ^ 4 + b.toNat) * 2 ^ 4 + a.toNat := by
    rw [← append_toNat, ← append_toNat, ← append_toNat]; rfl
  omega

theorem encodeBR_toNat (c : BitVec 4) (d : BitVec 8) :
    (encodeBR c d).toNat = 45056 + 256 * c.toNat + d.toNat := by
  have h : (encodeBR c d).toNat = ((0xB#4).toNat * 2 ^ 4 + c.toNat) * 2 ^ 8 + d.toNat := by
    rw [← append_toNat, ← append_toNat]; rfl
  simp at h; omega

theorem encodeI12_toNat (c : BitVec 4) (d : BitVec 12) :
    (encodeI12 c d).toNat = 4096 * c.toNat + d.toNat := by
  have h : (encodeI12 c d).toNat = c.toNat * 2 ^ 12 + d.toNat := by rw [← append_toNat]; rfl
  omega

theorem wordOfBytes_toNat (hi lo : Byte) : (wordOfBytes hi lo).toNat = 256 * hi.toNat + lo.toNat := by
  have h : (wordOfBytes hi lo).toNat = hi.toNat * 2 ^ 8 + lo.toNat := by rw [← append_toNat]; rfl
  omega

theorem highByte_toNat (w : Word) : (highByte w).toNat = w.toNat / 256 := by
  have := w.isLt
  simp only [highByte, BitVec.extractLsb'_toNat, Nat.shiftRight_eq_div_pow]; omega

theorem lowByte_toNat (w : Word) : (lowByte w).toNat = w.toNat % 256 := by
  simp only [lowByte, BitVec.extractLsb'_toNat, Nat.shiftRight_eq_div_pow]; omega

end Sys2Proof
end

