-- ==== Sys2Proof/Laws/Operands.lean ====
section
/-! SUPPORT. What each operand form and each shift is as a number. -/

namespace Sys2Proof.Machine

theorem prefixedImm_toNat (hi : BitVec 12) (f : BitVec 4) :
    (prefixedImm hi f).toNat = 16 * hi.toNat + f.toNat := by
  have h : (prefixedImm hi f).toNat = hi.toNat * 2 ^ 4 + f.toNat := by rw [← append_toNat]; rfl
  omega

theorem byteOffset_toNat (f : BitVec 4) : (byteOffset f).toNat = f.toNat := by
  have := f.isLt
  simp [byteOffset]; omega

theorem wordOffset_toNat (f : BitVec 4) : (wordOffset f).toNat = 16 * (f.toNat % 2) + 2 * (f.toNat / 2) := by
  have : ∀ g : BitVec 4, (wordOffset g).toNat = 16 * (g.toNat % 2) + 2 * (g.toNat / 2) := by decide
  exact this f

theorem sextImm_toInt (f : BitVec 4) : (sextImm f).toInt = f.toInt :=
  BitVec.toInt_signExtend_of_le (by decide)

theorem callTarget_toNat (f : BitVec 12) : (callTarget f).toNat = 16 * f.toNat := by
  have h : (callTarget f).toNat = f.toNat * 2 ^ 4 + (0#4).toNat := by rw [← append_toNat]; rfl
  simp at h; omega

theorem shiftLeftIn_toNat (v : Word) (t : Bool) :
    (shiftLeftIn v t).toNat = (2 * v.toNat + (if t then 1 else 0)) % 65536 := by
  have h : (shiftLeftIn v t).toNat = (v.extractLsb' 0 15).toNat * 2 ^ 1 + (BitVec.ofBool t).toNat := by
    rw [← append_toNat]; rfl
  rw [BitVec.extractLsb'_toNat] at h
  cases t <;> simp at h ⊢ <;> omega

theorem shiftRightIn_toNat (v : Word) (t : Bool) :
    (shiftRightIn t v).toNat = (if t then 32768 else 0) + v.toNat / 2 := by
  have := v.isLt
  have h : (shiftRightIn t v).toNat = (BitVec.ofBool t).toNat * 2 ^ 15 + (v.extractLsb' 1 15).toNat := by
    rw [← append_toNat]; rfl
  rw [BitVec.extractLsb'_toNat, Nat.shiftRight_eq_div_pow] at h
  cases t <;> simp at h ⊢ <;> omega

/-- Entries, pages and physical addresses of 60_exceptions R321. -/
theorem translate_toNat (e va : Word) : (translate e va).toNat = e.toNat % 16384 * 4096 + va.toNat % 4096 := by
  have h : (translate e va).toNat = (e.extractLsb' 0 14).toNat * 2 ^ 12 + (va.extractLsb' 0 12).toNat := by
    rw [← append_toNat]; rfl
  rw [BitVec.extractLsb'_toNat, BitVec.extractLsb'_toNat] at h
  simpa using h

theorem physical_toNat (p : Platform) (pa : PhysAddr) : (p.physical pa).toNat = pa.toNat % 2 ^ p.paWidth := by
  rw [Platform.physical, BitVec.toNat_ofNat]
  exact Nat.mod_eq_of_lt (Nat.lt_of_le_of_lt (Nat.mod_le _ _) pa.isLt)

/-- With the spec's 26 bits, or more, every translated address counts whole. -/
theorem physical_of_wide {p : Platform} (h : 26 ≤ p.paWidth) (pa : PhysAddr) : p.physical pa = pa := by
  apply BitVec.eq_of_toNat_eq
  rw [physical_toNat]
  exact Nat.mod_eq_of_lt (Nat.lt_of_lt_of_le pa.isLt (Nat.pow_le_pow_right (by decide) h))

theorem pageOf_toNat (va : Word) : (pageOf va).toNat = va.toNat / 4096 := by
  have := va.isLt
  simp only [pageOf, BitVec.extractLsb'_toNat, Nat.shiftRight_eq_div_pow]; omega

end Sys2Proof.Machine
end

