-- ==== Sys2Proof/Machine/CallingConvention.lean ====
section
/-! DEFINITION. The C calling convention (spec/48_calling_convention.md R280 to R290): a convention of compiled
code, which no hardware rule depends on. -/

namespace Sys2Proof.Machine

/-- How C code uses a register (R280). -/
inductive RegUse where
  | alwaysZero
  | reservedForAssembler
  | returnValue
  | argument (n : Nat)
  | temporary
  | localVariable
  | stackPointer
  | interruptReturn
  | returnAddress
deriving DecidableEq, Repr

/-- R280, the Use column. -/
def regUse (r : Reg) : RegUse :=
  match r.toNat with
  | 0 => .alwaysZero
  | 1 => .reservedForAssembler
  | 2 => .returnValue
  | 3 => .argument 1
  | 4 => .argument 2
  | 5 => .argument 3
  | 6 | 7 | 8 | 9 => .temporary
  | 10 | 11 | 12 => .localVariable
  | 13 => .stackPointer
  | 14 => .interruptReturn
  | _ => .returnAddress

/-- Who saves a register across a call (R280, D20). -/
inductive SavePolicy where
  | noneNeeded
  | reserved
  | callerSave
  | calleeSave
deriving DecidableEq, Repr

/-- R280, the Save Policy column as D20 pairs it (rows r0, r1, r2 uncertain, log 31). -/
def savePolicy (r : Reg) : SavePolicy :=
  match r.toNat with
  | 0 => .noneNeeded
  | 1 => .reserved
  | 2 | 3 | 4 | 5 | 6 | 7 | 8 | 9 => .callerSave
  | 10 | 11 | 12 | 13 => .calleeSave
  | 14 => .reserved
  | _ => .calleeSave

/-- The kinds of value a function takes or returns (R281, R282). -/
inductive CType where
  | char
  | word
  | long
  | aggregate (size : Nat)
deriving DecidableEq, Repr

/-- The bytes a value takes in the argument list (R281): a char is padded to a word, an aggregate is passed as a
pointer to a copy. -/
def CType.argBytes : CType → Nat
  | .char => 2
  | .word => 2
  | .long => 4
  | .aggregate _ => 2

/-- Where an argument or a result is. -/
inductive Place where
  | reg (r : Reg)
  /-- Low half in the first register (10_state R24). -/
  | pair (lo hi : Reg)
  /-- At this offset from sp on entry. -/
  | stack (offset : Nat)
  /-- Through the pointer in this register. -/
  | indirect (r : Reg)
  /-- A long across r5 and memory: the source does not say (R283, log 31). -/
  | notStated
deriving DecidableEq, Repr

/-- Where the argument at this offset of the argument list is (R283): the slots at 0, 2, 4 are r3, r4, r5. -/
def argPlace (offset bytes : Nat) : Place :=
  if offset + bytes ≤ 6 then
    let r := BitVec.ofNat 4 (3 + offset / 2)
    if bytes = 4 then .pair r (r + 1#4) else .reg r
  else if 6 ≤ offset then .stack offset
  else .notStated

/-- The places of the arguments from this offset on, left to right, each at the next free slot (R283, log 31). -/
def argPlacesFrom (offset : Nat) : List CType → List Place
  | [] => []
  | t :: ts => argPlace offset t.argBytes :: argPlacesFrom (offset + t.argBytes) ts

/-- R282, R283: an aggregate result takes the first slot with its implicit pointer. -/
def argPlaces (result : Option CType) (args : List CType) : List Place :=
  match result with
  | some (.aggregate _) => argPlacesFrom 2 args
  | _ => argPlacesFrom 0 args

/-- R282. -/
def resultPlace : CType → Place
  | .char => .reg 2#4
  | .word => .reg 2#4
  | .long => .pair 2#4 3#4
  | .aggregate _ => .indirect 3#4

/-- R285: sp down by the record, then the callee save registers at their offsets. -/
def prolog (record : Word) (saves : List (Reg × Word)) : List Instr :=
  subiInstrs 13#4 13#4 record ++ saves.flatMap fun p => withWord p.2 (.sw p.1 13#4)

/-- R285: reload, release the record, return. -/
def epilog (record : Word) (saves : List (Reg × Word)) : List Instr :=
  (saves.flatMap fun p => withWord p.2 (.lw p.1 13#4)) ++ withSext record (.addi 13#4 13#4) ++ [.jal 0#4 15#4 0#4]

/-- R288: a function with variable arguments homes r3, r4, r5 at 0, 2, 4 from sp. -/
def homeArguments : List Instr :=
  withWord 0#16 (.sw 3#4 13#4) ++ withWord 2#16 (.sw 4#4 13#4) ++ withWord 4#16 (.sw 5#4 13#4)

/-- `_WORDS(t)` of R289: the size rounded up to whole words, with sizeof(char*) = 2. -/
def vaWords (size : Nat) : Nat := (size + 1) / 2 * 2

/-- `va_start` of R289: the address after the last named argument. -/
def vaStart (lastNamed : Word) (size : Nat) : Word := lastNamed + BitVec.ofNat 16 (vaWords size)

/-- `va_arg` of R289: the address of the next argument, and the pointer moved past it. -/
def vaArg (ap : Word) (size : Nat) : Word × Word := (ap, ap + BitVec.ofNat 16 (vaWords size))

end Sys2Proof.Machine
end

