-- ==== Sys2Proof/Machine/Timing.lean ====
section
/-! DEFINITION. The cycle table of the xr16 core (spec/70_reset_and_hazards.md R360). Timing is no state and no
rule of behaviour reads it (log 24); the table is here because the spec gives it. -/

namespace Sys2Proof.Machine

/-- The memory latency parameters of R7 and R360, in cycles. -/
structure Latency where
  ti : Nat
  trw : Nat
  trb : Nat
  tww : Nat
  twb : Nat
deriving DecidableEq, Repr

/-- The external RAM of the XS40 board (R360). -/
def Latency.xs40 : Latency where
  ti := 1
  trw := 1
  trb := 1
  tww := 3
  twb := 2

/-- The cycles of an instruction (R360); `taken` matters to conditional branches alone. -/
def Instr.cycles (l : Latency) (taken : Bool) : Instr → Nat
  | .lw _ _ _ => l.ti + l.trw
  | .lb _ _ _ => l.ti + l.trb
  | .sw _ _ _ => l.ti + l.tww
  | .sb _ _ _ => l.ti + l.twb
  | .br _ | .jal _ _ _ | .call _ => 3 * l.ti
  | .beq _ | .bne _ | .bc _ | .bnc _ | .bv _ | .bnv _ | .blt _ | .bge _ | .ble _ | .bgt _
  | .bltu _ | .bgeu _ | .bleu _ | .bgtu _ => if taken then 3 * l.ti else l.ti
  | .add _ _ _ | .sub _ _ _ | .addi _ _ _ | .and _ _ | .or _ _ | .xor _ _ | .andn _ _ | .adc _ _ | .sbc _ _
  | .andi _ _ | .ori _ _ | .xori _ _ | .andni _ _ | .adci _ _ | .sbci _ _
  | .srli _ _ | .srai _ _ | .slli _ _ | .srxi _ _ | .slxi _ _ | .imm _ => l.ti

end Sys2Proof.Machine
end

