-- ==== Sys2Proof/Tests/Slice0.lean ====
section
/-! SUPPORT. Tests: ill-formed terms refused, the words of spec/ decoded, one step of each instruction against the
worked examples of spec/40 to 46 and the vectors of 95_test_vectors.md, the assembler's examples of A1 to A8, and
for every obligation with hypotheses a state and operands that meet them. -/

namespace Sys2Proof.Machine

/-! ### Helpers -/

/-- The reset state with some registers set and pc at 0x0100, as 95_test_vectors part B starts. -/
def startWith (regs : List (Reg × Word)) : State :=
  (regs.foldl (fun s p => s.writeReg p.1 p.2) State.reset).writePc 0x0100#16

/-- The same with bytes of memory set. -/
def startIn (regs : List (Reg × Word)) (bytes : List Host.Cell) : State :=
  let s := startWith regs
  { s with mem := bytes.foldl (fun m c => m.write c.1 c.2) s.mem }

/-- The instruction a word stands for, executed. -/
def runWord (w : Word) (s : State) : Result :=
  match decodeWord w with
  | .ok i => exec i s
  | .error _ => .fault .reservedEncoding

/-- Completed, in a state that passes. -/
def ends (r : Result) (p : State → Bool) : Bool :=
  match r with
  | .next t => p t
  | .fault _ => false
  | .refused _ => false

/-- Stopped with this fault. -/
def stopsWith (r : Result) (f : Fault) : Bool :=
  match r with
  | .next _ => false
  | .fault g => decide (g = f)
  | .refused _ => false

/-- Right after an instruction that left a carry. -/
def afterCarry (m : Mnemonic) (c : Bool) (s : State) : State :=
  { s with prev := ⟨.instr m, [2#4]⟩, carryOut := c, carryValid := true, canInterrupt := false }

/-- Right after `imm hi`. -/
def afterImm (hi : BitVec 12) (s : State) : State :=
  { s with prev := ⟨.instr .imm, []⟩, hasImmPrefix := true, immPrefix := hi, canInterrupt := false }

/-- Right after a shift that shifted out a bit. -/
def afterShift (out : Bool) (s : State) : State := { s with prev := ⟨.instr .slli, [1#4]⟩, shiftOut := out }

/-- Right after `cmp` with these operands, at 0x0102. -/
def afterCompare (x y : Word) : State :=
  { (startWith []).writePc 0x0102#16 with prev := ⟨.instr .sub, []⟩, a := x, b := -y, carryValid := true }

/-- A platform with an MMU. -/
def mmuPlatform : Platform := { Platform.default with mmuPresent := true }

/-- With the MMU, page 0 mapped to physical page `ppn`, writable or not. -/
def mmuState (entry : Word) (regs : List (Reg × Word)) : State :=
  { startWith regs with platform := mmuPlatform, mmu := Vector.replicate 16 entry }

/-- With a device function, and no MMU. -/
def deviceState (regs : List (Reg × Word)) : State :=
  { startWith regs with platform := { Platform.default with ioDevice := true } }

/-! ### Well-formedness: a shift count other than 1 is ill formed -/

theorem test_wellformed_refuses_srli : (Instr.srli 1#4 2#4).WellFormed = false ∧ (Instr.srli 1#4 1#4).WellFormed = true := by
  decide

theorem test_wellformed_refuses_srai : (Instr.srai 1#4 2#4).WellFormed = false ∧ (Instr.srai 1#4 1#4).WellFormed = true := by
  decide

theorem test_wellformed_refuses_slli : (Instr.slli 1#4 2#4).WellFormed = false ∧ (Instr.slli 1#4 1#4).WellFormed = true := by
  decide

theorem test_wellformed_refuses_srxi : (Instr.srxi 1#4 2#4).WellFormed = false ∧ (Instr.srxi 1#4 1#4).WellFormed = true := by
  decide

theorem test_wellformed_refuses_slxi : (Instr.slxi 1#4 2#4).WellFormed = false ∧ (Instr.slxi 1#4 1#4).WellFormed = true := by
  decide

/-! ### Decoding: words written out from the encodings of 40_arithmetic to 46_imm_prefix -/

theorem test_decode_arithmetic :
    [(0x0231, Instr.add 2 3 1),
     (0x1231, Instr.sub 2 3 1),
     (0x2114, Instr.addi 1 1 4),
     (0x3445, Instr.adc 4 5),
     (0x3455, Instr.sbc 4 5),
     (0x4440, Instr.adci 4 0),
     (0x4450, Instr.sbci 4 0)].all
      (fun p => decodeTableWord 16 p.1 == some p.2 && encode p.2 == BitVec.ofNat 16 p.1) = true := by
  decide

theorem test_decode_logical :
    [(0x3102, Instr.and 1 2),
     (0x3112, Instr.or 1 2),
     (0x3122, Instr.xor 1 2),
     (0x3132, Instr.andn 1 2),
     (0x410F, Instr.andi 1 15),
     (0x4115, Instr.ori 1 5),
     (0x4120, Instr.xori 1 0),
     (0x4137, Instr.andni 1 7)].all
      (fun p => decodeTableWord 16 p.1 == some p.2 && encode p.2 == BitVec.ofNat 16 p.1) = true := by
  decide

theorem test_decode_shift :
    [(0x4161, Instr.srli 1 1),
     (0x4171, Instr.srai 1 1),
     (0x4181, Instr.slli 1 1),
     (0x4291, Instr.srxi 2 1),
     (0x42A1, Instr.slxi 2 1)].all
      (fun p => decodeTableWord 16 p.1 == some p.2 && encode p.2 == BitVec.ofNat 16 p.1) = true := by
  decide

theorem test_decode_load_store :
    [(0x5214, Instr.lw 2 1 4),
     (0x6215, Instr.lb 2 1 5),
     (0x81D4, Instr.sw 1 13 4),
     (0x91D3, Instr.sb 1 13 3)].all
      (fun p => decodeTableWord 16 p.1 == some p.2 && encode p.2 == BitVec.ofNat 16 p.1) = true := by
  decide

theorem test_decode_branch :
    [(0xB010, Instr.br 0x10),
     (0xB203, Instr.beq 0x03),
     (0xB3FD, Instr.bne 0xFD),
     (0xB410, Instr.bc 0x10),
     (0xB510, Instr.bnc 0x10),
     (0xB610, Instr.bv 0x10),
     (0xB710, Instr.bnv 0x10),
     (0xB810, Instr.blt 0x10),
     (0xB901, Instr.bge 0x01),
     (0xBA10, Instr.ble 0x10),
     (0xBB10, Instr.bgt 0x10),
     (0xBC10, Instr.bltu 0x10),
     (0xBD10, Instr.bgeu 0x10),
     (0xBE10, Instr.bleu 0x10),
     (0xBF10, Instr.bgtu 0x10)].all
      (fun p => decodeTableWord 16 p.1 == some p.2 && encode p.2 == BitVec.ofNat 16 p.1) = true := by
  decide

theorem test_decode_jump :
    [(0xAF32, Instr.jal 15 3 2),
     (0xC034, Instr.call 0x034),
     (0xD123, Instr.imm 0x123)].all
      (fun p => decodeTableWord 16 p.1 == some p.2 && encode p.2 == BitVec.ofNat 16 p.1) = true := by
  decide

/-- 95_test_vectors B7: reserved words. -/
theorem test_decode_refuses :
    [0x7000, 0xE123, 0xF000, 0x3160, 0x31F2, 0x41B1, 0x41F1, 0xB100, 0xB1FE].all
      (fun w => decodeTableWord 16 w == none) = true := by
  decide

theorem test_decode_bytes :
    decode [0xD1#8, 0x23#8, 0x21#8] = .ok (.imm 0x123#12, [0x21#8]) ∧ decode [0xD1#8] = .error .tooFewBytes := by
  decide

/-! ### One step of each instruction -/

/-- R114, B1 row 1. -/
theorem test_add_wraps :
    ends (runWord 0x0231#16 (startWith [(3#4, 0xFFFF#16), (1#4, 0x0001#16)])) (fun t =>
      t.readReg 2#4 == 0x0000#16 && t.a == 0xFFFF#16 && t.b == 0x0001#16 && t.carryOut && !t.canInterrupt) = true := by
  decide

/-- B1 row 35. -/
theorem test_add_rb_hazard :
    stopsWith (runWord 0x0231#16 ({ startWith [] with prev := ⟨.instr .addi, [1#4]⟩ })) .rbHazard = true := by
  decide

/-- R115, B1 row 6. -/
theorem test_sub_borrows :
    ends (runWord 0x1231#16 (startWith [(3#4, 0x0005#16), (1#4, 0x0007#16)])) (fun t =>
      t.readReg 2#4 == 0xFFFE#16 && t.b == 0xFFF9#16 && t.carryOut) = true := by
  decide

/-- B1 row 8. -/
theorem test_sub_of_0x8000 :
    ends (runWord 0x1231#16 (startWith [(3#4, 0x0000#16), (1#4, 0x8000#16)])) (fun t =>
      t.readReg 2#4 == 0x8000#16 && t.b == 0x8000#16 && t.carryOut) = true := by
  decide

/-- B1 row 13. -/
theorem test_addi_negative :
    ends (runWord 0x2118#16 (startWith [(1#4, 0x0008#16)])) (fun t =>
      t.readReg 1#4 == 0x0000#16 && t.b == 0xFFF8#16 && t.carryOut) = true := by
  decide

/-- R116, B1 row 15. -/
theorem test_addi_prefixed :
    ends (runWord 0x2114#16 (afterImm 0x123#12 (startWith [(1#4, 0x0001#16)]))) (fun t =>
      t.readReg 1#4 == 0x1235#16 && t.b == 0x1234#16 && !t.hasImmPrefix) = true := by
  decide

/-- B1 row 19. -/
theorem test_adc_carries :
    ends (runWord 0x3445#16 (afterCarry .add true (startWith [(4#4, 0xFFFF#16), (5#4, 0xFFFF#16)]))) (fun t =>
      t.readReg 4#4 == 0xFFFF#16 && t.carryOut) = true := by
  decide

/-- B1 row 32. -/
theorem test_adc_without_producer :
    stopsWith (runWord 0x3445#16 ({ startWith [(4#4, 0x0001#16), (5#4, 0x0002#16)] with carryOut := true })) .noCarryProducer = true := by
  decide

/-- B1 row 24. -/
theorem test_sbc_borrows :
    ends (runWord 0x3455#16 (afterCarry .sub true (startWith [(4#4, 0xFFFF#16), (5#4, 0xFFFF#16)]))) (fun t =>
      t.readReg 4#4 == 0xFFFF#16 && t.b == 0x0001#16 && t.carryOut) = true := by
  decide

/-- B1 row 28. -/
theorem test_adci_prefixed :
    ends (runWord 0x4444#16 (afterImm 0x123#12 (afterCarry .addi true (startWith [(4#4, 0x0001#16)])))) (fun t =>
      t.readReg 4#4 == 0x1236#16 && t.b == 0x1234#16 && !t.carryOut) = true := by
  decide

/-- B1 row 31. -/
theorem test_sbci_of_one :
    ends (runWord 0x4451#16 (afterCarry .sub true (startWith []))) (fun t =>
      t.readReg 4#4 == 0xFFFE#16 && t.b == 0xFFFF#16 && t.carryOut) = true := by
  decide

/-- R131, B2 row 1. -/
theorem test_and :
    ends (runWord 0x3102#16 (startWith [(1#4, 0x0F0F#16), (2#4, 0x00FF#16)])) (fun t =>
      t.readReg 1#4 == 0x000F#16 && t.canInterrupt && !t.carryValid) = true := by
  decide

/-- R132, B2 row 3. -/
theorem test_or :
    ends (runWord 0x3112#16 (startWith [(1#4, 0x0F00#16), (2#4, 0x00F0#16)])) (fun t =>
      t.readReg 1#4 == 0x0FF0#16) = true := by
  decide

/-- R133, B2 row 4. -/
theorem test_xor :
    ends (runWord 0x3122#16 (startWith [(1#4, 0xFFFF#16), (2#4, 0x00FF#16)])) (fun t =>
      t.readReg 1#4 == 0xFF00#16) = true := by
  decide

/-- R134, B2 row 6. -/
theorem test_andn :
    ends (runWord 0x3132#16 (startWith [(1#4, 0xFFFF#16), (2#4, 0x00FF#16)])) (fun t =>
      t.readReg 1#4 == 0xFF00#16) = true := by
  decide

/-- R135, B2 row 10. -/
theorem test_andi_prefixed :
    ends (runWord 0x410F#16 (afterImm 0x00F#12 (startWith [(1#4, 0x1234#16)]))) (fun t =>
      t.readReg 1#4 == 0x0034#16) = true := by
  decide

/-- B2 row 12. -/
theorem test_ori_negative :
    ends (runWord 0x4118#16 (startWith [(1#4, 0x0001#16)])) (fun t =>
      t.readReg 1#4 == 0xFFF9#16) = true := by
  decide

/-- B2 row 13. -/
theorem test_xori_complements :
    ends (runWord 0x412F#16 (startWith [(1#4, 0x00FF#16)])) (fun t =>
      t.readReg 1#4 == 0xFF00#16) = true := by
  decide

/-- B2 row 17. -/
theorem test_andni_prefixed :
    ends (runWord 0x4130#16 (afterImm 0xFF0#12 (startWith [(1#4, 0xABCD#16)]))) (fun t =>
      t.readReg 1#4 == 0x00CD#16) = true := by
  decide

/-- R153, B3 row 1. -/
theorem test_slli :
    ends (runWord 0x4181#16 (startWith [(1#4, 0x8001#16)])) (fun t =>
      t.readReg 1#4 == 0x0002#16 && t.shiftOut && t.canInterrupt) = true := by
  decide

/-- B3 row 16. -/
theorem test_slli_prefixed_count :
    stopsWith (runWord 0x4181#16 (afterImm 0x001#12 (startWith [(1#4, 0x0001#16)]))) .shiftCountNotOne = true := by
  decide

/-- R154, B3 row 3. -/
theorem test_slxi :
    ends (runWord 0x42A1#16 (afterShift true (startWith [(2#4, 0x4000#16)]))) (fun t =>
      t.readReg 2#4 == 0x8001#16 && !t.shiftOut) = true := by
  decide

/-- B3 row 17. -/
theorem test_slxi_without_shift :
    stopsWith (runWord 0x42A1#16 ({ startWith [(2#4, 0x0001#16)] with shiftOut := true })) .noShiftBefore = true := by
  decide

/-- R155, B3 row 5. -/
theorem test_srli :
    ends (runWord 0x4161#16 (startWith [(1#4, 0x8001#16)])) (fun t =>
      t.readReg 1#4 == 0x4000#16 && t.shiftOut) = true := by
  decide

/-- R156, B3 row 6. -/
theorem test_srai :
    ends (runWord 0x4171#16 (startWith [(1#4, 0x8001#16)])) (fun t =>
      t.readReg 1#4 == 0xC000#16 && t.shiftOut) = true := by
  decide

/-- R157, B3 row 9. -/
theorem test_srxi :
    ends (runWord 0x4291#16 (afterShift true (startWith [(2#4, 0x0002#16)]))) (fun t =>
      t.readReg 2#4 == 0x8001#16 && !t.shiftOut) = true := by
  decide

/-- B3 row 18. -/
theorem test_srxi_first :
    stopsWith (runWord 0x4291#16 (startWith [(2#4, 0x0001#16)])) .noShiftBefore = true := by
  decide

/-- B4 row 2. -/
theorem test_lw_rotated_offset :
    ends (runWord 0x5211#16 (startIn [(1#4, 0x0200#16)] [(0x0210, 0xAB#8), (0x0211, 0xCD#8)])) (fun t =>
      t.readReg 2#4 == 0xABCD#16) = true := by
  decide

/-- B4 row 7. -/
theorem test_lw_odd :
    stopsWith (runWord 0x5214#16 (startWith [(1#4, 0x0201#16)])) .misalignedWord = true := by
  decide

/-- B4 row 23. -/
theorem test_lb_wraps :
    ends (runWord 0x621F#16 (startIn [(1#4, 0xFFF8#16)] [(0x0007, 0x5A#8)])) (fun t =>
      t.readReg 2#4 == 0x005A#16) = true := by
  decide

/-- B4 row 22, with lb. -/
theorem test_lb_unpopulated :
    stopsWith (runWord 0x6210#16 (startWith [(1#4, 0xFF00#16)])) .unpopulatedAddress = true := by
  decide

/-- R169, B4 row 12. -/
theorem test_sw_big_endian :
    ends (runWord 0x81D4#16 (startWith [(13#4, 0x0200#16), (1#4, 0xBEEF#16)])) (fun t =>
      t.mem == [(0x0204, 0xBE#8), (0x0205, 0xEF#8)] && t.prev.dests == []) = true := by
  decide

/-- B4 row 17. -/
theorem test_sw_data_hazard :
    stopsWith (runWord 0x81D4#16 ({ startWith [(13#4, 0x0200#16)] with prev := ⟨.instr .lw, [1#4]⟩ })) .storeDataHazard = true := by
  decide

/-- R170, B4 row 14. -/
theorem test_sb_low_byte :
    ends (runWord 0x91D3#16 (startIn [(13#4, 0x0200#16), (1#4, 0x12AB#16)] [(0x0202, 0xEE#8), (0x0203, 0xEE#8)])) (fun t =>
      t.mem == [(0x0202, 0xEE#8), (0x0203, 0xAB#8)]) = true := by
  decide

/-- the canonical form of memory (log 2). -/
theorem test_sb_zero_unlists :
    ends (runWord 0x90D3#16 (startIn [(13#4, 0x0200#16)] [(0x0203, 0xEE#8)])) (fun t =>
      t.mem == []) = true := by
  decide

/-- B6 row 2. -/
theorem test_jal_old_base :
    ends (runWord 0xA330#16 (startWith [(3#4, 0x0300#16)])) (fun t =>
      t.readReg 3#4 == 0x0102#16 && t.readPc == 0x0300#16) = true := by
  decide

/-- R210, B6 row 1. -/
theorem test_jal_clears_bit_0 :
    ends (runWord 0xAF32#16 (startWith [(3#4, 0x0201#16)])) (fun t =>
      t.readReg 15#4 == 0x0102#16 && t.readPc == 0x0202#16 && t.canInterrupt) = true := by
  decide

/-- R211, B6 rows 7 and 9. -/
theorem test_call :
    ends (runWord 0xC034#16 (afterImm 0x123#12 (startWith []))) (fun t =>
      t.readReg 15#4 == 0x0102#16 && t.readPc == 0x0340#16 && !t.hasImmPrefix) = true := by
  decide

/-- R220, B6 row 10. -/
theorem test_imm :
    ends (runWord 0xD123#16 (startWith [])) (fun t =>
      t.hasImmPrefix && t.immPrefix == 0x123#12 && !t.canInterrupt && t.readPc == 0x0102#16) = true := by
  decide

/-- B5, displacement table. -/
theorem test_br_to_itself :
    ends (runWord 0xB0FE#16 (startWith [])) (fun t =>
      t.readPc == 0x0100#16 && t.prev.dests == []) = true := by
  decide

/-- B5, displacement table. -/
theorem test_br_wraps :
    ends (runWord 0xB080#16 ((startWith []).writePc 0x0002#16)) (fun t =>
      t.readPc == 0xFF06#16) = true := by
  decide

/-- One row of B5: `cmp` of two values, then each conditional branch with disp8 0x10; T is 0x0126, n is 0x0104. -/
def branchRow (x y : Word) (taken : List Bool) : Bool :=
  ([0xB210#16, 0xB310#16, 0xB410#16, 0xB510#16, 0xB610#16, 0xB710#16, 0xB810#16, 0xB910#16, 0xBA10#16, 0xBB10#16,
    0xBC10#16, 0xBD10#16, 0xBE10#16, 0xBF10#16].zip taken).all fun p =>
      ends (runWord p.1 (afterCompare x y)) fun t => t.readPc == if p.2 then 0x0126#16 else 0x0104#16

/-- B5, first table, row 7: 0x7FFF against 0x8000. -/
theorem test_branches_signed_edge :
    branchRow 0x7FFF#16 0x8000#16
      [false, true, false, true, false, true, false, true, false, true, true, false, true, false] = true := by
  decide

/-- B5, first table, row 1: equal operands. -/
theorem test_branches_equal :
    branchRow 0x0005#16 0x0005#16
      [true, false, true, false, false, true, false, true, true, false, false, true, true, false] = true := by
  decide

/-- B5, first table, row 12: 0xFFFF against 0x8000. -/
theorem test_branches_overflow_edge :
    branchRow 0xFFFF#16 0x8000#16
      [false, true, true, false, true, false, false, true, false, true, false, true, false, true] = true := by
  decide

/-- B2 row 20. -/
theorem test_beq_after_and :
    stopsWith (runWord 0xB200#16 ({ startWith [] with prev := ⟨.instr .and, [1#4]⟩ })) .noBranchPrefix = true := by
  decide

/-! ### The step, the interrupt, reset -/

/-- From reset, the placed word is the next instruction: the all-zero word and `imm 0x123` (B1 row 5, B6 row 10). -/
theorem test_step_runs_placed_word :
    ends (step (State.reset.withFetchWord 16 0x0000)) (fun t => t.prev.kind == .instr .add && t.readPc == 0x0002#16) &&
    ends (step (State.reset.withFetchWord 16 0xD123)) (fun t => t.immPrefix == 0x123#12) = true := by
  decide

/-- B7, C11: a reserved word stops. -/
theorem test_step_reserved : stopsWith (step (State.reset.withFetchWord 16 0x7000)) .reservedEncoding = true := by
  decide

/-- C7 (b), step 3: a request is taken after `slli`, which leaves r1 and r14 in the hazard set. -/
theorem test_interrupt_after_slli :
    ends (step ({ startWith [(1#4, 1#16)] with intRequests := [true] }.withFetchWord 16 0x4181))
      (fun t => t.readReg 14#4 == 0x0102#16 && t.readPc == 0x0010#16 && !t.interruptPending &&
        t.prev == ⟨.int, [14#4, 1#4]⟩) = true := by
  decide

/-- C4 (b), step 1: `addi` is interlocked, the request stays pending. -/
theorem test_interlock_after_addi :
    ends (step ({ startWith [] with intRequests := [true] }.withFetchWord 16 0x2103))
      (fun t => t.interruptPending && t.readPc == 0x0102#16) = true := by
  decide

/-- R66: a word stored to by the instruction before it is not executed. -/
theorem test_stale_fetch :
    stopsWith (match step ({ startWith [(2#4, 0x0102#16)] with prev := ⟨.none, []⟩ }.withFetchWord 16 0x8120) with
      | .next t => step t
      | .fault f => .fault f
      | .refused r => .refused r) .staleFetch = true := by
  decide

/-! ### The assembler's and the calling convention's examples -/

/-- A1: `addi r1,r1,0x1234`, `addi r1,r1,8`, `lw r2,0x24(r1)`. -/
theorem test_prefix_insertion :
    (withSext 0x1234#16 (.addi 1#4 1#4) ++ withSext 8#16 (.addi 1#4 1#4) ++ withWord 0x24#16 (.lw 2#4 1#4)).map encode =
      [0xD123#16, 0x2114#16, 0xD000#16, 0x2118#16, 0xD002#16, 0x5214#16] := by
  decide

/-- A2, rows 1, 2, 4, 5. -/
theorem test_hazard_removal :
    (removeHazards [] [.addi 1 1 1, .add 2 3 1]).map encode = [0x2111#16, 0x0213#16] ∧
    (removeHazards [] [.addi 1 1 1, .add 2 1 1]).map encode = [0x2111#16, 0x3000#16, 0x0211#16] ∧
    (removeHazards [] [.lw 1 13 8, .sw 1 13 4]).map encode = [0x51D8#16, 0x3000#16, 0x81D4#16] ∧
    (removeHazards [] (.lw 1 13 8 :: withWord 0x40#16 (.sw 1 13))).map encode = [0x51D8#16, 0xD004#16, 0x81D0#16] := by
  decide

/-- A3, C9: `blt 0x0300` far; A4: `slli r1,3`. -/
theorem test_far_branch_and_shift_series :
    (farBranch .lt 0x0300#16).map encode = [0xB901#16, 0xD030#16, 0xA000#16] ∧
    (shiftSeries (.slli 1#4) 3).map (fun l => l.map encode) = some [0x4181#16, 0x4181#16, 0x4181#16] := by
  decide

/-- C10: `lbs r2,0(r1)` and `sext r2,r1`. -/
theorem test_lbs_sext_words :
    ((Pseudo.lbs 2#4 0#16 1#4).expand).map (fun l => l.map encode) =
      some [0x6210#16, 0xD008#16, 0x4220#16, 0xDFF8#16, 0x2220#16] ∧
    ((Pseudo.sext 2#4 1#4).expand).map (fun l => l.map encode) =
      some [0x0210#16, 0xD00F#16, 0x420F#16, 0xD008#16, 0x4220#16, 0xDFF8#16, 0x2220#16] := by
  decide

/-- A8: the stores of a function with variable arguments. -/
theorem test_home_arguments : homeArguments.map encode = [0x83D0#16, 0x84D2#16, 0x85D4#16] := by decide

/-- A7 (R283): where arguments are. -/
theorem test_argument_places :
    argPlaces (some .word) [.word, .word, .word, .word, .word] = [.reg 3#4, .reg 4#4, .reg 5#4, .stack 6, .stack 8] ∧
    argPlaces (some (.aggregate 8)) [.word, .aggregate 8, .word, .long, .word] =
      [.reg 4#4, .reg 5#4, .stack 6, .stack 8, .stack 12] ∧ resultPlace (.aggregate 8) = .indirect 3#4 := by
  decide

/-- R242: three bytes are padded to four. -/
theorem test_align : padding 3 4 = [0x00#8] ∧ padding 4 4 = [] := by decide

/-- A10 (R360): typical cycles. -/
theorem test_cycles :
    Machine.Instr.cycles Latency.xs40 false (.sw 1 13 4) = 4 ∧ Machine.Instr.cycles Latency.xs40 true (.bne 0xFD) = 3 ∧
    Machine.Instr.cycles Latency.xs40 false (.bne 0xFD) = 1 ∧ Machine.Instr.cycles Latency.xs40 false (.lb 2 1 5) = 2 := by
  decide

/-! ### Witnesses: a state and operands that meet each obligation's hypotheses, clause by clause -/

theorem witness_ImmediateForms :
    State.reset.hasImmPrefix = false ∧
    (afterImm 0xFFF#12 State.reset).hasImmPrefix = true := by
  decide

theorem witness_WordStoreIsBigEndian :
    Memory.wf State.reset.mem = true ∧
    State.reset.platform.isPopulated 0x0000#26 = true ∧
    State.reset.platform.isPopulated 0xFEFE#26 = true ∧
    State.reset.platform.isPopulated (0xFEFE#26 + 1#26) = true ∧
    (match State.reset.writeWordAt (.memory 0xFEFE#26) 0x1234#16 with | .ok _ => true | .error _ => false) = true := by
  decide

theorem witness_rb_hazard :
    (1#4 : Reg) ∈ (afterShift false State.reset).prev.dests ∧
    (1#4 : Reg) ∉ State.reset.prev.dests ∧
    (0#4 : Reg) ∉ (afterShift false State.reset).prev.dests := by
  decide

theorem witness_carry :
    5#4 ∉ (afterCarry .add true State.reset).prev.dests ∧
    (afterCarry .add true State.reset).carryValid = true ∧
    State.reset.carryValid = false ∧
    5#4 ∉ State.reset.prev.dests := by
  decide

theorem witness_shifts :
    State.reset.immSext 2#4 ≠ 1#16 ∧
    State.reset.immSext 1#4 = 1#16 ∧
    (afterImm 0x000#12 State.reset).immSext 1#4 = 1#16 ∧
    State.reset.prev.kind.isShift = false ∧
    (afterShift true State.reset).prev.kind.isShift = true ∧
    (afterShift true State.reset).immSext 1#4 = 1#16 := by
  decide

theorem witness_LoadWordFromMemory :
    (((startWith [(1#4, 0x0201#16)]).readReg 1#4 + (startWith [(1#4, 0x0201#16)]).immWord 0#4).toNat) % 2 = 1 ∧
    State.reset.locate 0xFEFE#16 = .memory 0xFEFE#26 ∧
    (State.reset.platform.isPopulated 0xFEFE#26 && State.reset.platform.isPopulated (0xFEFE#26 + 1#26)) = true ∧
    (mmuState 0x0010#16 []).locate 0xFEFE#16 = .memory 0x10EFE#26 ∧
    ((mmuState 0x0010#16 []).platform.isPopulated 0x10EFE#26 && (mmuState 0x0010#16 []).platform.isPopulated (0x10EFE#26 + 1#26)) = false := by
  decide

theorem witness_LoadByteFromMemory :
    State.reset.locate 0xFEFF#16 = .memory 0xFEFF#26 ∧
    State.reset.platform.isPopulated 0xFEFF#26 = true ∧
    (mmuState 0x000F#16 []).locate 0xEFFF#16 = .memory 0xFFFF#26 ∧
    (mmuState 0x000F#16 []).platform.isPopulated 0xFFFF#26 = false := by
  decide

theorem witness_StoreToMemory :
    (startWith [(2#4, 0xFEFE#16)]).wordAddress 2#4 0#4 = 0xFEFE#16 ∧
    (startWith [(2#4, 0xFEFF#16)]).byteAddress 2#4 0#4 = 0xFEFF#16 ∧
    (startWith [(2#4, 0xFEFF#16)]).wordAddress 2#4 0#4 = 0xFEFF#16 ∧
    (startWith [(2#4, 0xFEFE#16)]).writable 0xFEFE#16 = true ∧
    (mmuState 0x8010#16 []).writable 0xFEFE#16 = true ∧
    (mmuState 0x8010#16 []).locate 0xFEFE#16 = .memory 0x10EFE#26 ∧
    (mmuState 0x8010#16 []).platform.isPopulated 0x10EFE#26 = false ∧
    Memory.wf (startWith [(2#4, 0xFEFE#16)]).mem = true ∧
    1#4 ∉ (startWith [(2#4, 0xFEFE#16)]).prev.dests ∧
    1#4 ∈ (afterShift false (startWith [])).prev.dests := by
  decide

theorem witness_UnwritableStoreIsDiscarded :
    (mmuState 0x0001#16 []).platform.mmuPresent = true ∧
    1#4 ∉ (mmuState 0x0001#16 []).prev.dests ∧
    (mmuState 0x0001#16 []).platform.inIo ((mmuState 0x0001#16 []).wordAddress 2#4 15#4) = false ∧
    ((mmuState 0x0001#16 []).wordAddress 2#4 15#4).toNat % 2 = 0 ∧
    ((mmuState 0x0001#16 []).mmu.get (pageOf ((mmuState 0x0001#16 []).wordAddress 2#4 15#4)).toFin).getLsbD 15 = false ∧
    (mmuState 0x0001#16 []).platform.inIo ((mmuState 0x0001#16 []).byteAddress 2#4 15#4) = false ∧
    ((mmuState 0x0001#16 []).mmu.get (pageOf ((mmuState 0x0001#16 []).byteAddress 2#4 15#4)).toFin).getLsbD 15 = false ∧
    (mmuState 0x0001#16 []).locate ((mmuState 0x0001#16 []).wordAddress 2#4 15#4) = .memory 0x0101E#26 ∧
    (mmuState 0x0001#16 []).platform.isPopulated 0x0101E#26 = true ∧
    (mmuState 0x0001#16 []).platform.isPopulated (0x0101E#26 + 1#26) = true ∧
    (mmuState 0x0001#16 []).locate ((mmuState 0x0001#16 []).byteAddress 2#4 15#4) = .memory 0x0100F#26 ∧
    (mmuState 0x0001#16 []).platform.isPopulated 0x0100F#26 = true ∧
    (mmuState 0x0001#16 []).locate (mmuState 0x0001#16 []).readPc = .memory 0x01100#26 ∧
    (mmuState 0x0001#16 []).platform.isPopulated 0x01100#26 = true ∧
    (mmuState 0x0001#16 []).platform.isPopulated (0x01100#26 + 1#26) = true ∧
    (mmuState 0x0001#16 []).staleNext = false ∧
    (mmuState 0x0001#16 []).mmuChange = none := by
  decide

theorem witness_TranslationFormula :
    (mmuState 0x0001#16 []).platform.inIo 0xFEFF#16 = false ∧
    (mmuState 0x0001#16 []).platform.mmuPresent = true ∧
    26 ≤ (mmuState 0x0001#16 []).platform.paWidth ∧
    State.reset.platform.inIo 0xFEFF#16 = false ∧
    State.reset.platform.mmuPresent = false := by
  decide

/-- A platform with an MMU and 20-bit physical addresses. -/
def narrowPlatform : Platform := { mmuPlatform with paWidth := 20 }

/-- I/O space of each kind at its edges, and an address beside it; the stops of I/O space with no device; a page
number whose upper bits a narrower space drops (0x3FFF << 12 | 0x123 = 0x3FFF123). -/
theorem witness_WhereAddressesGo :
    State.reset.platform.inIo 0xFF00#16 = true ∧ State.reset.platform.inIo 0xFFFF#16 = true ∧
    State.reset.platform.inIo 0xFEFF#16 = false ∧
    (mmuState 0#16 []).locate 0xFF1F#16 = .mmuReg 31#5 ∧ (mmuState 0#16 []).locate 0xFF20#16 = .absent 0xFF20#16 ∧
    State.reset.locate 0xFF00#16 = .absent 0xFF00#16 ∧ (deviceState []).locate 0xFF00#16 = .device 0xFF00#16 ∧
    (startWith [(2#4, 0xFF00#16)]).locate ((startWith [(2#4, 0xFF00#16)]).wordAddress 2#4 15#4) = .absent 0xFF1E#16 ∧
    ((startWith [(2#4, 0xFF00#16)]).wordAddress 2#4 15#4).toNat % 2 = 0 ∧
    (startWith [(2#4, 0xFF00#16)]).locate ((startWith [(2#4, 0xFF00#16)]).byteAddress 2#4 15#4) = .absent 0xFF0F#16 ∧
    1#4 ∉ (startWith [(2#4, 0xFF00#16)]).prev.dests ∧
    (State.reset.writePc 0xFF00#16).fetchLocation = .absent 0xFF00#16 ∧
    ({ mmuState 0x3FFF#16 [] with platform := narrowPlatform } : State).locate 0x0123#16 = .memory 0xFF123#26 ∧
    (mmuState 0x3FFF#16 []).locate 0x0123#16 = .memory 0x3FFF123#26 := by
  decide

theorem witness_MmuEntriesAreMemoryMapped :
    (mmuState 0#16 [(2#4, 0xFF00#16)]).locate ((mmuState 0#16 [(2#4, 0xFF00#16)]).wordAddress 2#4 0#4) = .mmuReg 0#5 ∧
    (mmuState 0#16 [(2#4, 0xFF00#16)]).locate ((mmuState 0#16 [(2#4, 0xFF00#16)]).wordAddress 2#4 15#4) = .mmuReg 30#5 ∧
    ((mmuState 0#16 [(2#4, 0xFF00#16)]).wordAddress 2#4 15#4).toNat % 2 = 0 ∧
    1#4 ∉ (mmuState 0#16 [(2#4, 0xFF00#16)]).prev.dests := by
  decide

theorem witness_MmuByteAccessesComplete :
    (mmuState 0#16 [(2#4, 0xFF10#16)]).locate ((mmuState 0#16 [(2#4, 0xFF10#16)]).byteAddress 2#4 15#4) = .mmuReg 31#5 ∧
    (mmuState 0#16 [(2#4, 0xFF10#16)]).locate ((mmuState 0#16 [(2#4, 0xFF10#16)]).byteAddress 2#4 0#4) = .mmuReg 16#5 ∧
    1#4 ∉ (mmuState 0#16 [(2#4, 0xFF10#16)]).prev.dests := by
  decide

theorem witness_DeviceAccessesComplete :
    (deviceState [(2#4, 0xFFE0#16)]).locate ((deviceState [(2#4, 0xFFE0#16)]).wordAddress 2#4 15#4) = .device 0xFFFE#16 ∧
    ((deviceState [(2#4, 0xFFE0#16)]).wordAddress 2#4 15#4).toNat % 2 = 0 ∧
    (deviceState [(2#4, 0xFF00#16)]).locate ((deviceState [(2#4, 0xFF00#16)]).byteAddress 2#4 0#4) = .device 0xFF00#16 ∧
    1#4 ∉ (deviceState [(2#4, 0xFFE0#16)]).prev.dests := by
  decide

theorem witness_conditional_branches :
    State.reset.prev.kind.isBranchPrefix = false ∧
    (afterCompare 5#16 5#16).prev.kind.isBranchPrefix = true := by
  decide

theorem witness_CompareThenBranch :
    1#4 ∉ State.reset.prev.dests ∧
    (startWith [(1#4, 0x8000#16)]).readReg 1#4 = 0x8000#16 := by
  decide

theorem witness_PrefixServesOneInstruction :
    ends (exec (.imm 0x123#12) State.reset) (fun t => ends (exec (.imm 0x456#12) t) (fun u => u.hasImmPrefix) && ends (exec (.addi 1#4 0#4 7#4) t) (fun u => !u.hasImmPrefix)) = true := by
  decide

theorem witness_InterruptEntry :
    ({ State.reset with interruptPending := true } : State).interruptPending = true ∧
    ({ State.reset with interruptPending := true } : State).canInterrupt = true ∧
    State.reset.interruptPending = false := by
  decide

/-- A state with a request coming and a word at pc. -/
def requested (w : Nat) : State := { State.reset with intRequests := [true] }.withFetchWord 16 w

theorem witness_InterlockHoldsRequest :
    (∀ p ∈ [(0x2103, Instr.addi 1#4 0#4 3#4), (0x3000, Instr.and 0#4 0#4)],
      ((match (requested p.1).acceptRequest.fetch with
        | .ok (w, _) => decide (decodeWord w = .ok p.2)
        | .error _ => false) && (requested p.1).acceptRequest.interruptPending &&
        ends (step (requested p.1)) (fun _ => true)) = true) := by
  decide

theorem witness_HeldRequestMeansInterlocked :
    ends (step (requested 0x2103)) (fun t => t.interruptPending) = true := by decide

theorem witness_HandlerEntryState : ends (step (requested 0x3000)) (fun t => t.prev.kind == .int) = true := by
  decide

theorem witness_ReturnFromInterrupt :
    ({ State.reset with interruptPending := true } : State).hasImmPrefix = false ∧
    ({ State.reset with interruptPending := true } : State).interruptPending = true := by
  decide

theorem witness_RequestSetsPending :
    ({ State.reset with intRequests := [true, false] } : State).intRequests = true :: [false] ∧
    State.reset.intRequests = [] := by decide

theorem witness_ResultHazardStops : (15#4 : Reg) ∈ ({ State.reset with prev := ⟨.instr .call, [15#4]⟩ } : State).prev.dests := by
  decide

/-- For the statements about every completed instruction: one that writes a register, one that stores, one that
jumps, and `imm` after a carry producer. -/
theorem witness_every_instruction :
    ends (exec (.lw 2#4 0#4 0#4) State.reset) (fun _ => true) = true ∧
    ends (exec (.sw 2#4 0#4 0#4) State.reset) (fun _ => true) = true ∧
    ends (exec (.call 0x000#12) State.reset) (fun _ => true) = true ∧
    ends (exec (.imm 0x000#12) (afterCarry .add true State.reset)) (fun t => t.carryValid) = true := by
  decide

theorem witness_CodeWindowOfStores :
    State.reset.platform.mmuPresent = false ∧
    ends (exec (.sb 1#4 0#4 3#4) State.reset) (fun t => t.staleNext && !t.staleSecond) = true ∧
    ends (exec (.sb 1#4 0#4 4#4) State.reset) (fun t => !t.staleNext && t.staleSecond) = true ∧
    (mmuState 0x8000#16 [(2#4, 0x0100#16)]).writable 0x0102#16 = true ∧
    ends (exec (.sw 1#4 2#4 2#4) (mmuState 0x8000#16 [(2#4, 0x0100#16)])) (fun t => t.staleNext) = true ∧
    ends (exec (.sb 1#4 2#4 5#4) (mmuState 0x8000#16 [(2#4, 0x0100#16)])) (fun t => t.staleSecond) = true ∧
    ends (exec (.sw 1#4 0#4 2#4) State.reset) (fun t => t.staleNext && !t.staleSecond) = true ∧
    ends (exec (.sw 1#4 0#4 4#4) State.reset) (fun t => !t.staleNext && t.staleSecond) = true ∧
    ({ State.reset with staleNext := true } : State).staleNext = true ∧
    ends (exec (.br 0xFF#8) ({ State.reset with staleSecond := true } : State)) (fun _ => true) = true := by
  decide

theorem witness_StepRunsTheDecodedInstruction :
    State.reset.staleNext = false ∧ State.reset.mmuChange = none ∧
    State.reset.fetchLocation = .memory 0#26 ∧ State.reset.platform.isPopulated 0#26 = true ∧
    State.reset.platform.isPopulated (0#26 + 1#26) = true ∧
    decode [State.reset.mem.read 0, State.reset.mem.read 1] = .ok (.add 0#4 0#4 0#4, []) ∧
    ends (exec (.add 0#4 0#4 0#4) State.reset.acceptRequest.drawForFetch) (fun _ => true) = true ∧
    stopsWith (exec (.beq 0#8) State.reset.acceptRequest.drawForFetch) .noBranchPrefix = true ∧
    (match State.reset.acceptRequest.fetch with
      | .ok (w, _) => decide (decodeWord w = .ok (.add 0#4 0#4 0#4))
      | .error _ => false) = true := by
  decide

/-- Right after a store to an MMU entry that changed nothing: the fetch reads the same place whichever entry it sees. -/
theorem witness_StepRuns_unsettled :
    ({ mmuState 0#16 [] with mmuChange := some (0#4, 0#16) } : State).fetchLocation = .memory 0x100#26 := by
  rcases fetchMmu_cases ({ mmuState 0#16 [] with mmuChange := some (0#4, 0#16) } : State) with h | ⟨i, old, hi, h⟩
  · rw [State.fetchLocation, h]; decide
  · cases hi; rw [State.fetchLocation, h]; decide

theorem witness_ReservedWordStops :
    (match (State.reset.withFetchWord 16 0xB1FE).acceptRequest.fetch with
      | .ok (w, _) => decide (decodeWord w = .error .reservedCondition)
      | .error _ => false) = true := by
  decide

theorem witness_EncodeOfDecode : decodeWord 0xBFFF#16 = .ok (.bgtu 0xFF#8) := by decide

theorem witness_ResetMeetsInvariant : Memory.wf [(0, 0x21#8), (1, 0x05#8)] = true := by decide

/-- A state that is not the reset state, with a byte in memory, and meets the invariant; its step completes. -/
def running : State := startIn [(1#4, 0xFFFF#16), (3#4, 0x0001#16)] [(0x0100, 0x21#8)]

theorem witness_StepKeepsInvariant : Inv running ∧ ends (step running) (fun _ => true) = true := by
  refine ⟨⟨by decide, by decide, by decide, by decide, by decide, ?_, ?_, ?_,
    ?_, ?_, ?_, ?_⟩, by decide⟩ <;> simp [running, startIn, startWith, State.writeReg, State.writePc, State.reset,
    State.resetWith]

/-- What the statements about long sums and differences ask of their registers. -/
def longOperands (rd ra rb rd' ra' rb' : Reg) : Bool :=
  partner rd == some rd' && partner ra == some ra' && partner rb == some rb' && rd != 0#4 && rd' != ra && rd' != rb &&
    rb' != rd && (rd != rb || rd == ra) && !running.prev.dests.contains rb &&
    (Pseudo.addl rd ra rb).expand.isSome && (Pseudo.subl rd ra rb).expand.isSome

/-- Distinct pairs, the boundary pair r11, sums in place, and r0 as a source; `running` meets the invariant. -/
theorem witness_LongSumsAndDifferences :
    longOperands 2 4 6 3 5 7 = true ∧ longOperands 11 1 3 12 2 4 = true ∧ longOperands 1 1 1 2 2 2 = true ∧
    longOperands 1 0 3 2 0 4 = true := by
  decide

theorem witness_ShiftPairsShiftLongs :
    (1#4 : Reg) ≠ 0#4 ∧ (15#4 : Reg) ≠ 0#4 ∧ (1#4 : Reg) ≠ 15#4 ∧ running.hasImmPrefix = false := by decide

/-- An offset that needs no prefix and one that does. -/
theorem witness_LbsLoadsSigned :
    (2#4 : Reg) ≠ 0#4 ∧ running.hasImmPrefix = false ∧
    running.locate (running.readReg 3#4 + 0x000F#16) = .memory 0x0010#26 ∧
    running.platform.isPopulated 0x0010#26 = true ∧ (Pseudo.lbs 2#4 0x000F#16 3#4).expand.isSome = true ∧
    running.locate (running.readReg 3#4 + 0xFEFE#16) = .memory 0xFEFF#26 ∧
    running.platform.isPopulated 0xFEFF#26 = true ∧ (Pseudo.lbs 2#4 0xFEFE#16 3#4).expand.isSome = true := by
  decide

theorem witness_HazardRemovalLeavesNone :
    (0#4 : Reg) ∉ [1#4] ∧ removeHazards [1#4] [.add 2 3 1, .sb 2 13 0] = [.add 2 1 3, nopInstr, .sb 2 13 0] ∧
    hazardFree [1#4] [.add 2 1 3, nopInstr, .sb 2 13 0] = true := by
  decide

end Sys2Proof.Machine
end

section
/-! PROOFS. The register file (10_state R22). -/

namespace Sys2Proof.Machine

/-- A write to r0 is ignored as a whole: the state itself is unchanged (10_state R22). -/
@[simp] theorem State.writeReg_zero (s : State) (v : Word) : s.writeReg 0#4 v = s := rfl

/-- Settles O2: r0's two rules and read-after-write, each a law of `readReg` and `writeReg`. -/
theorem registerFile : Obligations.RegisterFile := by
  intro s r x v
  exact ⟨State.readReg_zero s, State.writeReg_zero s v, State.readReg_writeReg s r x v⟩

end Sys2Proof.Machine
end

section
/-! PROOFS. The decoder reads back every encoded instruction (30_encoding R81, R95 to R99). -/

namespace Sys2Proof

@[simp] theorem field3_nibbles (d c b a : BitVec 4) : field3 (nibbles d c b a) = d :=
  have ⟨h, _, _, _⟩ := fields_of_nibbles d c b a; h
@[simp] theorem field2_nibbles (d c b a : BitVec 4) : field2 (nibbles d c b a) = c :=
  have ⟨_, h, _, _⟩ := fields_of_nibbles d c b a; h
@[simp] theorem field1_nibbles (d c b a : BitVec 4) : field1 (nibbles d c b a) = b :=
  have ⟨_, _, h, _⟩ := fields_of_nibbles d c b a; h
@[simp] theorem field0_nibbles (d c b a : BitVec 4) : field0 (nibbles d c b a) = a :=
  have ⟨_, _, _, h⟩ := fields_of_nibbles d c b a; h

@[simp] theorem field3_encodeBR (c : BitVec 4) (d : BitVec 8) : field3 (encodeBR c d) = 0xB#4 :=
  have ⟨h, _, _⟩ := fields_of_branch c d; h
@[simp] theorem field2_encodeBR (c : BitVec 4) (d : BitVec 8) : field2 (encodeBR c d) = c :=
  have ⟨_, h, _⟩ := fields_of_branch c d; h
@[simp] theorem dispField_encodeBR (c : BitVec 4) (d : BitVec 8) : dispField (encodeBR c d) = d :=
  have ⟨_, _, h⟩ := fields_of_branch c d; h

@[simp] theorem field3_encodeI12 (c : BitVec 4) (d : BitVec 12) : field3 (encodeI12 c d) = c :=
  have ⟨h, _⟩ := fields_of_imm12 c d; h
@[simp] theorem imm12Field_encodeI12 (c : BitVec 4) (d : BitVec 12) : imm12Field (encodeI12 c d) = d :=
  have ⟨_, h⟩ := fields_of_imm12 c d; h

/-- One case per row of the opcode table: its format's fields select the row and give its operands. -/
theorem decodeWord_encode (i : Instr) : decodeWord (encode i) = .ok i := by
  cases i <;> simp [encode, decodeWord, decodeRR, decodeRI, decodeBR]

end Sys2Proof
end

section
/-! PROOFS. The seven arithmetic instructions (40_arithmetic R114 to R120): the guards' stops, the words as numbers,
and the one effect that `finishArith` after `PRE` has; each statement puts these together. -/

namespace Sys2Proof.Machine

/-! ### The guards: what each does when its condition fails, and when it holds -/

theorem guardRb_of_mem {s : State} {rb : Reg} {k : Result} (h : rb ∈ s.prev.dests) :
    s.guardRb rb k = .fault .rbHazard := if_pos h

theorem guardRb_of_notMem {s : State} {rb : Reg} {k : Result} (h : rb ∉ s.prev.dests) : s.guardRb rb k = k := if_neg h

theorem guardCarry_of_invalid {s : State} {k : Result} (h : s.carryValid = false) :
    s.guardCarry k = .fault .noCarryProducer := by simp [State.guardCarry, h]

theorem guardCarry_of_valid {s : State} {k : Result} (h : s.carryValid = true) : s.guardCarry k = k := if_pos h

/-! ### Sums and differences of words as numbers -/

theorem word_eq_ofNat (p : Word) : p = BitVec.ofNat 16 p.toNat := by simp

theorem neg_eq_ofNat (q : Word) : -q = BitVec.ofNat 16 (65536 - q.toNat) := by
  apply BitVec.eq_of_toNat_eq; simp

theorem add_eq_ofNat (p q : Word) : p + q = BitVec.ofNat 16 (p.toNat + q.toNat) := by simp [BitVec.ofNat_add]

theorem sub_eq_ofNat (p q : Word) : p - q = BitVec.ofNat 16 (p.toNat + (65536 - q.toNat)) := by
  rw [BitVec.ofNat_add, ← neg_eq_ofNat, ← word_eq_ofNat, BitVec.sub_eq_add_neg]

theorem bitWord_toNat (c : Bool) : (bitWord c).toNat = bitNat c := by cases c <;> rfl

theorem add_bitWord_eq_ofNat (p q : Word) (c : Bool) :
    p + q + bitWord c = BitVec.ofNat 16 (p.toNat + q.toNat + bitNat c) := by
  rw [BitVec.ofNat_add, ← add_eq_ofNat, ← bitWord_toNat, ← word_eq_ofNat]

theorem sub_bitWord_eq_ofNat (p q : Word) (c : Bool) :
    p - q - bitWord c = BitVec.ofNat 16 (p.toNat + (65536 - q.toNat) + (65536 - bitNat c)) := by
  rw [BitVec.ofNat_add, ← sub_eq_ofNat, ← bitWord_toNat, ← neg_eq_ofNat, BitVec.sub_eq_add_neg]

theorem carrySum_iff (p q : Word) (c : Bool) :
    carrySum p q c = true ↔ 65536 ≤ p.toNat + q.toNat + bitNat c := by simp [carrySum]

theorem borrow_iff (p q : Word) (c : Bool) : borrow p q c = true ↔ p.toNat < q.toNat + bitNat c := by simp [borrow]

/-! ### The common effect -/

section
variable (s : State) (m : Mnemonic) (rd : Reg) (p q v : Word) (c : Bool)

/-- R22, R30: what a completed arithmetic instruction leaves in the registers and in `prev`. -/
theorem writesReg_pre_finishArith : WritesReg s (s.pre.finishArith m rd p q c v) m rd v where
  value := by by_cases hrd : rd = 0#4 <;> simp [State.readReg_finishArith, hrd]
  others r hr := by simp [State.readReg_finishArith, hr]
  prev := by simp [destSet]

theorem sequential_pre_finishArith : Sequential s (s.pre.finishArith m rd p q c v) := by
  constructor <;> simp

theorem kept_pre_finishArith : Kept s (s.pre.finishArith m rd p q c v) := by
  constructor <;> simp

variable {m} {s rd p q v c}

/-- A carry producer that ends in `finishArith` has the effect of 40_arithmetic, once its second operand, its result
and its carry are known as numbers. -/
theorem arithEffect_pre_finishArith {b result : Nat} {carry : Prop} (hm : carryProducers.contains m = true)
    (hb : q = BitVec.ofNat 16 b) (hv : v = BitVec.ofNat 16 result) (hc : c = true ↔ carry) :
    ArithEffect s (s.pre.finishArith m rd p q c v) m rd p b result carry where
  writes := hv ▸ writesReg_pre_finishArith s m rd p q v c
  a := by simp
  b := by simpa using hb
  carryOut := by simpa using hc
  carryValid := by rw [State.finishArith_carryValid, if_pos hm]
  interlocked := by simp
  shiftOut := by simp
  sequential := sequential_pre_finishArith s m rd p q v c
  kept := kept_pre_finishArith s m rd p q v c

end

/-! ### The statements -/

/-- Settles O4: `PRE` changes neither `prev` nor a register, so the guard and the operands are those of `s`. -/
theorem addSumsAndRecordsCarry : Obligations.AddSumsAndRecordsCarry := by
  intro s rd ra rb
  refine ⟨decodeWord_encode (.add rd ra rb), fun h => guardRb_of_mem h, fun h => ⟨_, guardRb_of_notMem h, ?_⟩⟩
  exact arithEffect_pre_finishArith rfl (word_eq_ofNat _) (add_eq_ofNat _ _) (carrySum_iff _ _ _)

/-- Settles O5: the negated operand and the difference are sums with 65536 - rb. -/
theorem subDiffersAndRecordsBorrow : Obligations.SubDiffersAndRecordsBorrow := by
  intro s rd ra rb
  refine ⟨decodeWord_encode (.sub rd ra rb), fun h => guardRb_of_mem h, fun h => ⟨_, guardRb_of_notMem h, ?_⟩⟩
  exact arithEffect_pre_finishArith rfl (neg_eq_ofNat _) (sub_eq_ofNat _ _) (borrow_iff _ _ _)

/-- Settles O6: no guard, so that it completes in every state. -/
theorem addiAddsImmediate : Obligations.AddiAddsImmediate := by
  intro s rd ra imm
  refine ⟨decodeWord_encode (.addi rd ra imm), _, rfl, ?_⟩
  exact arithEffect_pre_finishArith rfl (word_eq_ofNat _) (add_eq_ofNat _ _) (carrySum_iff _ _ _)

/-- Settles O7: the rb guard comes before the carry guard. -/
theorem adcAddsCarry : Obligations.AdcAddsCarry := by
  intro s rd rb
  refine ⟨decodeWord_encode (.adc rd rb), fun h => guardRb_of_mem h,
    fun h hc => (guardRb_of_notMem h).trans (guardCarry_of_invalid hc),
    fun h hc => ⟨_, (guardRb_of_notMem h).trans (guardCarry_of_valid hc), ?_⟩⟩
  exact arithEffect_pre_finishArith rfl (word_eq_ofNat _) (add_bitWord_eq_ofNat _ _ _) (carrySum_iff _ _ _)

/-- Settles O8: as adc, with the borrow. -/
theorem sbcSubtractsBorrow : Obligations.SbcSubtractsBorrow := by
  intro s rd rb
  refine ⟨decodeWord_encode (.sbc rd rb), fun h => guardRb_of_mem h,
    fun h hc => (guardRb_of_notMem h).trans (guardCarry_of_invalid hc),
    fun h hc => ⟨_, (guardRb_of_notMem h).trans (guardCarry_of_valid hc), ?_⟩⟩
  exact arithEffect_pre_finishArith rfl (neg_eq_ofNat _) (sub_bitWord_eq_ofNat _ _ _) (borrow_iff _ _ _)

/-- Settles O9: the carry guard alone. -/
theorem adciAddsCarryAndImmediate : Obligations.AdciAddsCarryAndImmediate := by
  intro s rd imm
  refine ⟨decodeWord_encode (.adci rd imm), fun hc => guardCarry_of_invalid hc,
    fun hc => ⟨_, guardCarry_of_valid hc, ?_⟩⟩
  exact arithEffect_pre_finishArith rfl (word_eq_ofNat _) (add_bitWord_eq_ofNat _ _ _) (carrySum_iff _ _ _)

/-- Settles O10: the carry guard alone, with the borrow of the immediate. -/
theorem sbciSubtractsBorrowAndImmediate : Obligations.SbciSubtractsBorrowAndImmediate := by
  intro s rd imm
  refine ⟨decodeWord_encode (.sbci rd imm), fun hc => guardCarry_of_invalid hc,
    fun hc => ⟨_, guardCarry_of_valid hc, ?_⟩⟩
  exact arithEffect_pre_finishArith rfl (neg_eq_ofNat _) (sub_bitWord_eq_ofNat _ _ _) (borrow_iff _ _ _)

end Sys2Proof.Machine
end

section
/-! PROOFS. The eight logical instructions (41_logical R130 to R138): the one effect that `finishResult` after `PRE`
has; the register forms put the rb guard before it, the immediate forms nothing. -/

namespace Sys2Proof.Machine

/-! ### The common effect -/

section
variable (s : State) (m : Mnemonic) (rd : Reg) (v : Word)

/-- R22, R30: what a completed instruction with a result and no carry leaves in the registers and in `prev`. -/
theorem writesReg_pre_finishResult : WritesReg s (s.pre.finishResult m rd v) m rd v where
  value := by by_cases hrd : rd = 0#4 <;> simp [State.readReg_finishResult, hrd]
  others r hr := by simp [State.readReg_finishResult, hr]
  prev := by simp [destSet]

theorem sequential_pre_finishResult : Sequential s (s.pre.finishResult m rd v) := by
  constructor <;> simp

theorem kept_pre_finishResult : Kept s (s.pre.finishResult m rd v) := by
  constructor <;> simp

variable {m}

/-- R130: no invisible state but what `PRE` and the bookkeeping of a mnemonic that is neither a carry producer nor imm
leave. -/
theorem uninvolved_pre_finishResult (hm : carryProducers.contains m = false) (himm : m ≠ .imm) :
    Uninvolved s (s.pre.finishResult m rd v) where
  a := by simp
  b := by simp
  carryOut := by simp
  shiftOut := by simp
  carryValid := by rw [State.finishResult_carryValid, hm, if_neg Bool.false_ne_true, if_neg himm]
  canInterrupt := by simp

theorem resultEffect_pre_finishResult (hm : carryProducers.contains m = false) (himm : m ≠ .imm) :
    ResultEffect s (s.pre.finishResult m rd v) m rd v where
  writes := writesReg_pre_finishResult s m rd v
  uninvolved := uninvolved_pre_finishResult s rd v hm himm
  sequential := sequential_pre_finishResult s m rd v
  kept := kept_pre_finishResult s m rd v

variable {s rd v}

/-- R131 to R134: the rb hazard stops an instruction that guards its result by it, and nothing else does. -/
theorem guardRb_finishResult_cases {r : Result} {rb : Reg}
    (hr : r = s.pre.guardRb rb (.next (s.pre.finishResult m rd v)))
    (hm : carryProducers.contains m = false) (himm : m ≠ .imm) :
    (rb ∈ s.prev.dests → r = .fault .rbHazard) ∧
    (rb ∉ s.prev.dests → Completes r fun t => ResultEffect s t m rd v) :=
  ⟨fun h => hr.trans (guardRb_of_mem h),
   fun h => ⟨_, hr.trans (guardRb_of_notMem h), resultEffect_pre_finishResult s rd v hm himm⟩⟩

end

/-! ### The statements -/

/-- Settles O11: the four differ in the result alone, and its operands are those of `s`, as `PRE` changes no register. -/
theorem logicalRegisterForms : Obligations.LogicalRegisterForms := by
  intro s rd rb p hp
  simp only [List.mem_cons, List.not_mem_nil, or_false] at hp
  obtain rfl | rfl | rfl | rfl := hp
  · exact ⟨decodeWord_encode (.and rd rb), guardRb_finishResult_cases rfl rfl nofun⟩
  · exact ⟨decodeWord_encode (.or rd rb), guardRb_finishResult_cases rfl rfl nofun⟩
  · exact ⟨decodeWord_encode (.xor rd rb), guardRb_finishResult_cases rfl rfl nofun⟩
  · exact ⟨decodeWord_encode (.andn rd rb), guardRb_finishResult_cases rfl rfl nofun⟩

/-- Settles O12: no guard, so that the four complete in every state. -/
theorem logicalImmediateForms : Obligations.LogicalImmediateForms := by
  intro s rd imm p hp
  simp only [List.mem_cons, List.not_mem_nil, or_false] at hp
  obtain rfl | rfl | rfl | rfl := hp
  · exact ⟨decodeWord_encode (.andi rd imm), _, rfl, resultEffect_pre_finishResult s rd _ rfl nofun⟩
  · exact ⟨decodeWord_encode (.ori rd imm), _, rfl, resultEffect_pre_finishResult s rd _ rfl nofun⟩
  · exact ⟨decodeWord_encode (.xori rd imm), _, rfl, resultEffect_pre_finishResult s rd _ rfl nofun⟩
  · exact ⟨decodeWord_encode (.andni rd imm), _, rfl, resultEffect_pre_finishResult s rd _ rfl nofun⟩

end Sys2Proof.Machine
end

section
/-! PROOFS. The five shifts (42_shift R150 to R157): the guards' stops, the shifted words as numbers, and the one effect
that `finishShift` after `PRE` has; the extended shifts put R151's guard between the count guard and it. -/

namespace Sys2Proof.Machine

/-! ### The guards: what each does when its condition fails, and when it holds -/

theorem guardCount_of_ne {immed : Word} {k : Result} (h : immed ≠ 1#16) :
    guardCount immed k = .fault .shiftCountNotOne := if_neg h

theorem guardCount_of_eq {immed : Word} {k : Result} (h : immed = 1#16) : guardCount immed k = k := if_pos h

theorem guardShift_of_not {s : State} {k : Result} (h : s.prev.kind.isShift = false) :
    s.guardShift k = .fault .noShiftBefore := by simp [State.guardShift, h]

theorem guardShift_of_isShift {s : State} {k : Result} (h : s.prev.kind.isShift = true) : s.guardShift k = k := if_pos h

/-! ### Shifted words as numbers -/

theorem shiftLeftIn_eq_ofNat (v : Word) (t : Bool) :
    shiftLeftIn v t = BitVec.ofNat 16 (2 * v.toNat + (if t then 1 else 0)) :=
  BitVec.eq_of_toNat_eq (shiftLeftIn_toNat v t)

theorem shiftRightIn_eq_ofNat (v : Word) (t : Bool) :
    shiftRightIn t v = BitVec.ofNat 16 ((if t then 32768 else 0) + v.toNat / 2) := by
  rw [← shiftRightIn_toNat, ← word_eq_ofNat]

theorem shiftLeftIn_false_eq_ofNat (v : Word) : shiftLeftIn v false = BitVec.ofNat 16 (2 * v.toNat) :=
  shiftLeftIn_eq_ofNat v false

theorem shiftRightIn_false_eq_ofNat (v : Word) : shiftRightIn false v = BitVec.ofNat 16 (v.toNat / 2) := by
  simpa using shiftRightIn_eq_ofNat v false

/-- R156: with the sign bit in the vacated place, a right shift halves the signed value and rounds down. -/
theorem shiftRightIn_sign_eq_ofInt (v : Word) :
    shiftRightIn (v.getLsbD 15) v = BitVec.ofInt 16 (v.toInt / 2) := by
  have hsign : v.getLsbD 15 = v.msb := rfl
  have hv := v.isLt
  apply BitVec.eq_of_toNat_eq
  rw [shiftRightIn_toNat, BitVec.toNat_ofInt, BitVec.toInt_eq_msb_cond, hsign]
  cases v.msb
  case false => simp only [Bool.false_eq_true, if_false]; omega
  case true => simp only [if_true]; omega

/-! ### The common effect -/

/-- 00_scope R14: a shift is neither a carry producer nor imm, so that the carry is not valid after it
(10_state R30). -/
theorem not_carryProducer_and_ne_imm_of_shift :
    ∀ m ∈ shiftMnemonics, carryProducers.contains m = false ∧ m ≠ .imm := by decide

section
variable (s : State) (m : Mnemonic) (rd : Reg) (out : Bool) (v : Word)

/-- R22, R30: what a completed shift leaves in the registers and in `prev`. -/
theorem writesReg_pre_finishShift : WritesReg s (s.pre.finishShift m rd out v) m rd v where
  value := by by_cases hrd : rd = 0#4 <;> simp [State.readReg_finishShift, hrd]
  others r hr := by simp [State.readReg_finishShift, hr]
  prev := by simp [destSet]

theorem sequential_pre_finishShift : Sequential s (s.pre.finishShift m rd out v) := by
  constructor <;> simp

theorem kept_pre_finishShift : Kept s (s.pre.finishShift m rd out v) := by
  constructor <;> simp

variable {m}

/-- R150: a shift that ends in `finishShift` has the effect common to the five. -/
theorem shiftEffect_pre_finishShift (hm : shiftMnemonics.contains m = true) :
    ShiftEffect s (s.pre.finishShift m rd out v) m rd v out where
  writes := writesReg_pre_finishShift s m rd out v
  shiftOut := by simp
  a := by simp
  b := by simp
  carryOut := by simp
  carryValid := by
    obtain ⟨hcarry, himm⟩ := not_carryProducer_and_ne_imm_of_shift m (List.contains_iff_mem.mp hm)
    rw [State.finishShift_carryValid, hcarry, if_neg Bool.false_ne_true, if_neg himm]
  canInterrupt := by simp
  sequential := sequential_pre_finishShift s m rd out v
  kept := kept_pre_finishShift s m rd out v

variable {s rd out v} {immed w : Word} {r : Result}

/-- R152: a count other than 1 stops a shift that guards its result by it, and nothing else does. -/
theorem guardCount_finishShift_cases (hr : r = guardCount immed (.next (s.pre.finishShift m rd out v)))
    (hm : shiftMnemonics.contains m = true) (hv : v = w) :
    (immed ≠ 1#16 → r = .fault .shiftCountNotOne) ∧
    (immed = 1#16 → Completes r fun t => ShiftEffect s t m rd w out) :=
  ⟨fun h => hr.trans (guardCount_of_ne h),
   fun h => ⟨_, hr.trans (guardCount_of_eq h), hv ▸ shiftEffect_pre_finishShift s rd out v hm⟩⟩

/-- R151, R152: an extended shift is stopped by its count first, then by the lack of a shift before it; `PRE` does not
change `prev`, so that the instruction before is that of `s`. -/
theorem guardShift_finishShift_cases
    (hr : r = guardCount immed (s.pre.guardShift (.next (s.pre.finishShift m rd out v))))
    (hm : shiftMnemonics.contains m = true) (hv : v = w) :
    (immed ≠ 1#16 → r = .fault .shiftCountNotOne) ∧
    (immed = 1#16 → s.prev.kind.isShift = false → r = .fault .noShiftBefore) ∧
    (immed = 1#16 → s.prev.kind.isShift = true → Completes r fun t => ShiftEffect s t m rd w out) :=
  ⟨fun h => hr.trans (guardCount_of_ne h),
   fun h hprev => hr.trans ((guardCount_of_eq h).trans (guardShift_of_not hprev)),
   fun h hprev => ⟨_, hr.trans ((guardCount_of_eq h).trans (guardShift_of_isShift hprev)),
     hv ▸ shiftEffect_pre_finishShift s rd out v hm⟩⟩

end

/-! ### The statements -/

/-- Settles O13: the three differ in the bit that enters the vacated place, 0 or the sign. -/
theorem plainShifts : Obligations.PlainShifts := by
  intro s rd imm p hp
  simp only [List.mem_cons, List.not_mem_nil, or_false] at hp
  obtain rfl | rfl | rfl := hp
  · exact ⟨decodeWord_encode (.slli rd imm),
      guardCount_finishShift_cases rfl rfl (shiftLeftIn_false_eq_ofNat _)⟩
  · exact ⟨decodeWord_encode (.srli rd imm),
      guardCount_finishShift_cases rfl rfl (shiftRightIn_false_eq_ofNat _)⟩
  · exact ⟨decodeWord_encode (.srai rd imm),
      guardCount_finishShift_cases rfl rfl (shiftRightIn_sign_eq_ofInt _)⟩

/-- Settles O14: `PRE` does not change the recorded bit, so that the one that enters is that of `s`. -/
theorem extendedShifts : Obligations.ExtendedShifts := by
  intro s rd imm p hp
  simp only [List.mem_cons, List.not_mem_nil, or_false] at hp
  obtain rfl | rfl := hp
  · exact ⟨decodeWord_encode (.slxi rd imm),
      guardShift_finishShift_cases rfl rfl (shiftLeftIn_eq_ofNat _ _)⟩
  · exact ⟨decodeWord_encode (.srxi rd imm),
      guardShift_finishShift_cases rfl rfl (shiftRightIn_eq_ofNat _ _)⟩

end Sys2Proof.Machine
end

section
/-! PROOFS. Loads and stores that go to memory (43_load_store R165 to R170): the stops of the two guards and of
MEM_POPULATED, what a load answers and what a store leaves, each after `PRE`. A load ends as the logical instructions
do, in `finishResult`; a store ends in `storedToMemory`. -/

namespace Sys2Proof.Machine

/-! ### The guards: what each does when its condition fails, and when it holds -/

theorem guardStoreData_of_mem {s : State} {rd : Reg} {k : Result} (h : rd ∈ s.prev.dests) :
    s.guardStoreData rd k = .fault .storeDataHazard := if_pos h

theorem guardStoreData_of_notMem {s : State} {rd : Reg} {k : Result} (h : rd ∉ s.prev.dests) :
    s.guardStoreData rd k = k := if_neg h

theorem getLsbD_zero_eq_decide_odd (ea : Word) : ea.getLsbD 0 = decide (ea.toNat % 2 = 1) := by
  rw [BitVec.getLsbD, Nat.testBit_zero]

theorem guardAligned_of_odd {ea : Word} {k : Result} (h : ea.toNat % 2 = 1) :
    guardAligned ea k = .fault .misalignedWord :=
  if_pos (by rw [getLsbD_zero_eq_decide_odd, decide_eq_true h])

theorem guardAligned_of_even {ea : Word} {k : Result} (h : ea.toNat % 2 = 0) : guardAligned ea k = k :=
  if_neg (by rw [getLsbD_zero_eq_decide_odd]; simp [h])

/-! ### Accesses: `PRE` does not change where one goes, and the outcome decides what follows -/

@[simp] theorem State.pre_locate (s : State) (va : Word) : s.pre.locate va = s.locate va := rfl

@[simp] theorem State.pre_writable (s : State) (va : Word) : s.pre.writable va = s.writable va := rfl

theorem afterAccess_of_ok {α : Type} {r : Except Fault α} {x : α} {k : α → Result} (h : r = .ok x) :
    afterAccess r k = k x := by rw [h]; rfl

theorem afterAccess_of_error {α : Type} {r : Except Fault α} {f : Fault} {k : α → Result} (h : r = .error f) :
    afterAccess r k = .fault f := by rw [h]; rfl

/-! ### Loads from memory (20_memory R51, R52, R62) -/

section
variable {s : State} {ea : Word} {pa : PhysAddr}

theorem loadByte_of_populated (hl : s.locate ea = .memory pa) (hp : s.platform.isPopulated pa = true) :
    s.loadByte ea = .ok (s.mem.read pa.toNat, s) := by
  rw [State.loadByte, hl]; exact if_pos hp

theorem loadByte_of_unpopulated (hl : s.locate ea = .memory pa) (hp : s.platform.isPopulated pa = false) :
    s.loadByte ea = .error .unpopulatedAddress := by
  rw [State.loadByte, hl]; exact if_neg (ne_true_of_eq_false hp)

theorem loadWord_of_populated (hl : s.locate ea = .memory pa)
    (hp : (s.platform.isPopulated pa && s.platform.isPopulated (pa + 1#26)) = true) :
    s.loadWord ea = .ok (wordOfBytes (s.mem.read pa.toNat) (s.mem.read (pa + 1#26).toNat), s) := by
  rw [State.loadWord, hl]; exact if_pos hp

theorem loadWord_of_unpopulated (hl : s.locate ea = .memory pa)
    (hp : (s.platform.isPopulated pa && s.platform.isPopulated (pa + 1#26)) = false) :
    s.loadWord ea = .error .unpopulatedAddress := by
  rw [State.loadWord, hl]; exact if_neg (ne_true_of_eq_false hp)

end

theorem wordOfBytes_eq_ofNat (hi lo : Byte) : wordOfBytes hi lo = BitVec.ofNat 16 (256 * hi.toNat + lo.toNat) := by
  rw [← wordOfBytes_toNat, ← word_eq_ofNat]

theorem zeroExtend_eq_ofNat (v : Byte) : v.setWidth 16 = BitVec.ofNat 16 v.toNat := (BitVec.ofNat_toNat 16 v).symm

/-! ### Stores to memory (20_memory R51, R53, R62) -/

/-- `s` with the memory a store leaves, and the code window marked at the addresses `stored`. -/
def State.storedToMemory (s : State) (mem : Memory) (stored : List Word) : State :=
  { s with mem := mem }.markStored s stored

section
variable {s : State} {ea : Word} {pa : PhysAddr}

theorem storeByte_of_populated (v : Byte) (hw : s.writable ea = true) (hl : s.locate ea = .memory pa)
    (hp : s.platform.isPopulated pa = true) :
    s.storeByte ea v = .ok (s.storedToMemory (s.mem.write pa.toNat v) [ea]) := by
  simp [State.storeByte, hw, hl, State.writeByteAt, hp, State.storedToMemory]

theorem storeByte_of_unpopulated (v : Byte) (hw : s.writable ea = true) (hl : s.locate ea = .memory pa)
    (hp : s.platform.isPopulated pa = false) : s.storeByte ea v = .error .unpopulatedAddress := by
  simp [State.storeByte, hw, hl, State.writeByteAt, hp]

theorem storeWord_of_populated (v : Word) (hw : s.writable ea = true) (hl : s.locate ea = .memory pa)
    (hp : (s.platform.isPopulated pa && s.platform.isPopulated (pa + 1#26)) = true) :
    s.storeWord ea v = .ok (s.storedToMemory
      ((s.mem.write pa.toNat (highByte v)).write (pa + 1#26).toNat (lowByte v)) [ea, ea + 1#16]) := by
  simp only [State.storeWord, hw, if_true, hl, State.writeWordAt, hp, State.storedToMemory]

theorem storeWord_of_unpopulated (v : Word) (hw : s.writable ea = true) (hl : s.locate ea = .memory pa)
    (hp : (s.platform.isPopulated pa && s.platform.isPopulated (pa + 1#26)) = false) :
    s.storeWord ea v = .error .unpopulatedAddress := by
  simp only [State.storeWord, hw, if_true, hl, State.writeWordAt, hp, Bool.false_eq_true, if_false]

end

/-- R51: the two bytes of a word lie at different addresses, even where the physical address wraps. -/
theorem physAddr_toNat_ne_succ (pa : PhysAddr) : pa.toNat ≠ (pa + 1#26).toNat := by
  bv_omega

/-- What a memory in canonical form reads after two bytes were written at different addresses. -/
theorem Memory.read_write_write {m : Memory} (h : m.wf = true) {x y : Nat} (hxy : x ≠ y) (u v : Byte) :
    ((m.write x u).write y v).read x = u ∧ ((m.write x u).write y v).read y = v ∧
    ∀ z, z ≠ x → z ≠ y → ((m.write x u).write y v).read z = m.read z := by
  have hread (z : Nat) : ((m.write x u).write y v).read z = if z = y then v else if z = x then u else m.read z := by
    rw [Memory.read_write _ _ _ _ (Memory.write_wf _ _ _ h), Memory.read_write _ _ _ _ h]
  exact ⟨by rw [hread, if_neg hxy, if_pos rfl], by rw [hread, if_pos rfl],
    fun z hzx hzy => by rw [hread, if_neg hzy, if_neg hzx]⟩

theorem lowByte_eq_ofNat (v : Word) : lowByte v = BitVec.ofNat 8 (v.toNat % 256) := by
  rw [← lowByte_toNat, BitVec.ofNat_toNat, BitVec.setWidth_eq]

section
variable (s : State) {m : Mnemonic} (mem : Memory) (stored : List Word)

/-- R166: a store to memory leaves the frame of every store, whatever it wrote. -/
theorem storeFrame_pre_storedToMemory (hm : carryProducers.contains m = false) (himm : m ≠ .imm) :
    StoreFrame s ((s.pre.storedToMemory mem stored).retire m none) m where
  writes := ⟨fun _ => rfl, rfl⟩
  uninvolved :=
    { a := rfl, b := rfl, carryOut := rfl, shiftOut := rfl, canInterrupt := rfl
      carryValid := by rw [State.retire_carryValid, hm, if_neg Bool.false_ne_true, if_neg himm] }
  pc := State.pre_readPc s
  noPrefix := rfl
  prefixBits := rfl
  platform := rfl
  requests := rfl
  pending := rfl

end

/-! ### The statements -/

/-- Settles O15: the alignment guard comes before the access, and `PRE` changes neither the address nor memory. -/
theorem loadWordFromMemory : Obligations.LoadWordFromMemory := by
  rintro s rd ra imm _ rfl
  refine ⟨decodeWord_encode (.lw rd ra imm), fun hodd => guardAligned_of_odd hodd, fun heven pa hl => ⟨?_, ?_⟩⟩
  · intro hp
    exact (guardAligned_of_even heven).trans
      (afterAccess_of_error (loadWord_of_unpopulated ((s.pre_locate _).trans hl) hp))
  · intro hp
    rw [← wordOfBytes_eq_ofNat]
    exact ⟨_, (guardAligned_of_even heven).trans
        (afterAccess_of_ok (loadWord_of_populated ((s.pre_locate _).trans hl) hp)),
      resultEffect_pre_finishResult s rd _ rfl nofun⟩

/-- Settles O16: as lw, with no alignment guard and with the byte zero-extended. -/
theorem loadByteFromMemory : Obligations.LoadByteFromMemory := by
  rintro s rd ra imm _ rfl
  refine ⟨decodeWord_encode (.lb rd ra imm), fun pa hl => ⟨?_, ?_⟩⟩
  · intro hp
    exact afterAccess_of_error (loadByte_of_unpopulated ((s.pre_locate _).trans hl) hp)
  · intro hp
    rw [← zeroExtend_eq_ofNat]
    exact ⟨_, afterAccess_of_ok (loadByte_of_populated ((s.pre_locate _).trans hl) hp),
      resultEffect_pre_finishResult s rd _ rfl nofun⟩

/-- Settles O17: the data guard, then the alignment guard, then the access; the two bytes are written one after the
other, and neither write reaches the other's address. -/
theorem storeWordToMemory : Obligations.StoreWordToMemory := by
  rintro s rd ra imm _ rfl
  refine ⟨decodeWord_encode (.sw rd ra imm), fun h => guardStoreData_of_mem h,
    fun h hodd => (guardStoreData_of_notMem h).trans (guardAligned_of_odd hodd),
    fun h heven hw pa hl => ⟨?_, ?_⟩⟩
  · intro hp
    exact (guardStoreData_of_notMem h).trans ((guardAligned_of_even heven).trans
      (afterAccess_of_error (storeWord_of_unpopulated _ ((s.pre_writable _).trans hw) ((s.pre_locate _).trans hl) hp)))
  · intro hp hwf
    exact ⟨_, (guardStoreData_of_notMem h).trans ((guardAligned_of_even heven).trans
        (afterAccess_of_ok (storeWord_of_populated _ ((s.pre_writable _).trans hw) ((s.pre_locate _).trans hl) hp))),
      storeFrame_pre_storedToMemory s _ _ rfl nofun, rfl, rfl, rfl, rfl,
      Memory.read_write_write hwf (physAddr_toNat_ne_succ pa) _ _⟩

/-- Settles O18: as sw, with no alignment guard and one byte written. -/
theorem storeByteToMemory : Obligations.StoreByteToMemory := by
  rintro s rd ra imm _ rfl
  refine ⟨decodeWord_encode (.sb rd ra imm), fun h => guardStoreData_of_mem h, fun h hw pa hl => ⟨?_, ?_⟩⟩
  · intro hp
    exact (guardStoreData_of_notMem h).trans
      (afterAccess_of_error (storeByte_of_unpopulated _ ((s.pre_writable _).trans hw) ((s.pre_locate _).trans hl) hp))
  · intro hp hwf
    have hread (x : Nat) := Memory.read_write s.mem pa.toNat x (lowByte (s.readReg rd)) hwf
    rw [← lowByte_eq_ofNat]
    exact ⟨_, (guardStoreData_of_notMem h).trans
        (afterAccess_of_ok (storeByte_of_populated _ ((s.pre_writable _).trans hw) ((s.pre_locate _).trans hl) hp)),
      storeFrame_pre_storedToMemory s _ _ rfl nofun, rfl, rfl, rfl, rfl,
      (hread _).trans (if_pos rfl), fun x hx => (hread x).trans (if_neg hx)⟩

end Sys2Proof.Machine
end

section
/-! PROOFS. br and the fourteen conditional branches (44_branch R180 to R197): the stop that R181 puts before a
condition, the conditions on the sum as facts of numbers, and the one effect that `branchIf` after `PRE` has. -/

namespace Sys2Proof.Machine

/-! ### The guard: what it does when its condition fails, and when it holds -/

theorem guardBranchPrefix_of_not {s : State} {k : Result} (h : s.prev.kind.isBranchPrefix = false) :
    s.guardBranchPrefix k = .fault .noBranchPrefix := by simp [State.guardBranchPrefix, h]

theorem guardBranchPrefix_of_isBranchPrefix {s : State} {k : Result} (h : s.prev.kind.isBranchPrefix = true) :
    s.guardBranchPrefix k = k := if_pos h

/-! ### The conditions on the sum -/

/-- R111, R184: a branch condition counts no carry in. -/
theorem Cond.holds_c_iff (a b : Word) : Cond.holds .c a b = true ↔ 65536 ≤ a.toNat + b.toNat :=
  carrySum_iff a b false

theorem Cond.holds_nc_iff (a b : Word) : Cond.holds .nc a b = true ↔ a.toNat + b.toNat < 65536 := by
  rw [← not_le, ← holds_c_iff, Bool.not_eq_true]
  exact iff_of_eq (Bool.not_eq_true' _)

theorem overflowSum_iff (p q : Word) :
    overflowSum p q = true ↔ p.toInt + q.toInt < -32768 ∨ 32767 < p.toInt + q.toInt := by simp [overflowSum]

theorem Cond.holds_nv_iff (a b : Word) :
    Cond.holds .nv a b = true ↔ -32768 ≤ a.toInt + b.toInt ∧ a.toInt + b.toInt ≤ 32767 := by
  rw [← not_lt, ← not_lt, ← not_or, ← overflowSum_iff, Bool.not_eq_true]
  exact iff_of_eq (Bool.not_eq_true' _)

/-! ### The target (R180) -/

theorem evenWord_two_mul (v : Word) : evenWord (2#16 * v) = 2#16 * v := by
  apply BitVec.eq_of_toNat_eq
  rw [evenWord_toNat, BitVec.toNat_mul, BitVec.toNat_ofNat]
  omega

/-- R180 counts from the branch itself, the model from the word after it, where `PRE` leaves pc. -/
theorem branchTarget_readPc_pre (s : State) (disp : BitVec 8) :
    branchTarget s.pre.readPc disp = s.readPc + 4#16 + 2#16 * disp.signExtend 16 := by
  rw [branchTarget, State.pre_readPc]
  bv_omega

/-- R20 takes nothing from a branch target: it is a sum of even words. -/
theorem evenWord_branchTarget_readPc (s : State) (disp : BitVec 8) :
    evenWord (branchTarget s.readPc disp) = branchTarget s.readPc disp := by
  have hoffset := evenWord_add s.readPc (2#16 * disp.signExtend 16)
  rw [s.evenWord_readPc, evenWord_two_mul] at hoffset
  rw [branchTarget, ← hoffset]
  exact evenWord_add _ 2#16

/-! ### The common effect -/

theorem State.branchIf_true (s : State) (disp : BitVec 8) :
    s.branchIf true disp = s.jumpTo (branchTarget s.readPc disp) := rfl

theorem State.branchIf_false (s : State) (disp : BitVec 8) : s.branchIf false disp = s := rfl

section
variable (s : State) (m : Mnemonic) (disp : BitVec 8) (c : Bool)

/-- R197: taken or not, a branch writes no register. -/
theorem writesNoReg_pre_branchIf : WritesNoReg s ((s.pre.branchIf c disp).retire m none) m where
  registers r := by simp
  prev := rfl

theorem kept_pre_branchIf : Kept s ((s.pre.branchIf c disp).retire m none) := by
  constructor <;> simp

theorem transferred_pre_branchIf_true :
    Transferred s ((s.pre.branchIf true disp).retire m none) (s.readPc + 4#16 + 2#16 * disp.signExtend 16) where
  pc := by
    rw [State.retire_readPc, State.branchIf_true, State.jumpTo_readPc, evenWord_branchTarget_readPc,
      branchTarget_readPc_pre]
  noPrefix := rfl
  prefixBits := rfl
  windowNext := rfl
  windowSecond := rfl
  settled := rfl

theorem sequential_pre_branchIf_false : Sequential s ((s.pre.branchIf false disp).retire m none) := by
  constructor <;> simp [State.branchIf_false]

variable {m c}

/-- R197: a branch changes no invisible state but what `PRE` and the bookkeeping of a mnemonic that is neither a carry
producer nor imm leave. -/
theorem uninvolved_pre_branchIf (hm : carryProducers.contains m = false) (himm : m ≠ .imm) :
    Uninvolved s ((s.pre.branchIf c disp).retire m none) where
  a := by simp
  b := by simp
  carryOut := by simp
  shiftOut := by simp
  carryValid := by rw [State.retire_carryValid, hm, if_neg Bool.false_ne_true, if_neg himm]
  canInterrupt := by simp

/-- R180, R197: a branch that ends in `branchIf` has the effect common to the fifteen, once its condition is known as a
fact of numbers. -/
theorem branchEffect_pre_branchIf {taken : Prop} (hm : carryProducers.contains m = false) (himm : m ≠ .imm)
    (hc : c = true ↔ taken) : BranchEffect s ((s.pre.branchIf c disp).retire m none) m disp taken where
  writes := writesNoReg_pre_branchIf s m disp c
  uninvolved := uninvolved_pre_branchIf s disp hm himm
  kept := kept_pre_branchIf s m disp c
  whenTaken htaken := by
    rw [hc.mpr htaken]
    exact transferred_pre_branchIf_true s m disp
  whenNot hnot := by
    rw [Bool.eq_false_iff.mpr (mt hc.mp hnot)]
    exact sequential_pre_branchIf_false s m disp

variable {s disp} {cond : Cond} {r : Result} {taken : Prop}

/-- R181: its guard stops a conditional branch, and nothing else does; `PRE` changes neither `prev` nor the operands, so
that both are those of `s`. -/
theorem condBranch_cases (hr : r = s.condBranch m cond disp) (hm : carryProducers.contains m = false)
    (himm : m ≠ .imm) (hcond : cond.holds s.a s.b = true ↔ taken) :
    (s.prev.kind.isBranchPrefix = false → r = .fault .noBranchPrefix) ∧
    (s.prev.kind.isBranchPrefix = true → Completes r fun t => BranchEffect s t m disp taken) :=
  ⟨fun h => hr.trans (guardBranchPrefix_of_not h),
   fun h => ⟨_, hr.trans (guardBranchPrefix_of_isBranchPrefix h), branchEffect_pre_branchIf s disp hm himm hcond⟩⟩

end

/-! ### The statements -/

/-- Settles O24: the six differ in the condition alone. -/
theorem equalityAndSumBranches : Obligations.EqualityAndSumBranches := by
  intro s disp p hp
  simp only [List.mem_cons, List.not_mem_nil, or_false] at hp
  obtain rfl | rfl | rfl | rfl | rfl | rfl := hp
  · exact ⟨decodeWord_encode (.beq disp), condBranch_cases rfl rfl nofun decide_eq_true_iff⟩
  · exact ⟨decodeWord_encode (.bne disp), condBranch_cases rfl rfl nofun decide_eq_true_iff⟩
  · exact ⟨decodeWord_encode (.bc disp), condBranch_cases rfl rfl nofun (Cond.holds_c_iff s.a s.b)⟩
  · exact ⟨decodeWord_encode (.bnc disp), condBranch_cases rfl rfl nofun (Cond.holds_nc_iff s.a s.b)⟩
  · exact ⟨decodeWord_encode (.bv disp), condBranch_cases rfl rfl nofun (overflowSum_iff s.a s.b)⟩
  · exact ⟨decodeWord_encode (.bnv disp), condBranch_cases rfl rfl nofun (Cond.holds_nv_iff s.a s.b)⟩

/-- Settles O25: as O24, each condition being the comparison of `a` with `-b` itself. -/
theorem relationalBranches : Obligations.RelationalBranches := by
  intro s disp p hp
  simp only [List.mem_cons, List.not_mem_nil, or_false] at hp
  obtain rfl | rfl | rfl | rfl | rfl | rfl | rfl | rfl := hp
  · exact ⟨decodeWord_encode (.blt disp), condBranch_cases rfl rfl nofun decide_eq_true_iff⟩
  · exact ⟨decodeWord_encode (.bge disp), condBranch_cases rfl rfl nofun decide_eq_true_iff⟩
  · exact ⟨decodeWord_encode (.ble disp), condBranch_cases rfl rfl nofun decide_eq_true_iff⟩
  · exact ⟨decodeWord_encode (.bgt disp), condBranch_cases rfl rfl nofun decide_eq_true_iff⟩
  · exact ⟨decodeWord_encode (.bltu disp), condBranch_cases rfl rfl nofun decide_eq_true_iff⟩
  · exact ⟨decodeWord_encode (.bgeu disp), condBranch_cases rfl rfl nofun decide_eq_true_iff⟩
  · exact ⟨decodeWord_encode (.bleu disp), condBranch_cases rfl rfl nofun decide_eq_true_iff⟩
  · exact ⟨decodeWord_encode (.bgtu disp), condBranch_cases rfl rfl nofun decide_eq_true_iff⟩

/-- Settles O26: no guard, so that br completes in every state, and its condition is the constant true. -/
theorem brAlwaysBranches : Obligations.BrAlwaysBranches := by
  intro s disp
  exact ⟨decodeWord_encode (.br disp), _, rfl, branchEffect_pre_branchIf s disp rfl nofun (iff_of_true rfl trivial)⟩

end Sys2Proof.Machine
end

section
/-! PROOFS. jal and call (45_jump_call R210, R211): one transfer with a link, in two uses that differ in the register
that takes the link and in the target; and the two targets as numbers. -/

namespace Sys2Proof.Machine

/-! ### The two instructions as one transfer with a link -/

/-- What jal and call have in common: `PRE`, the link in rd, the transfer to `target`, the bookkeeping. -/
def State.linkAndJump (s : State) (m : Mnemonic) (rd : Reg) (target : Word) : State :=
  ((s.pre.writeReg rd s.pre.readPc).jumpTo target).retire m (some rd)

/-- R210: the target is that of `s`, before the link is written, so that rd = ra is no special case. -/
theorem exec_jal (s : State) (rd ra : Reg) (imm : BitVec 4) :
    exec (.jal rd ra imm) s = .next (s.linkAndJump .jal rd (s.jalTarget ra imm)) := rfl

theorem exec_call (s : State) (imm12 : BitVec 12) :
    exec (.call imm12) s = .next (s.linkAndJump .call 15#4 (callTarget imm12)) := rfl

theorem State.readReg_linkAndJump (s : State) (m : Mnemonic) (rd x : Reg) (target : Word) :
    (s.linkAndJump m rd target).readReg x = if x = rd ∧ rd ≠ 0#4 then s.readPc + 2#16 else s.readReg x := by
  rw [State.linkAndJump, State.retire_readReg, State.jumpTo_readReg, State.readReg_writeReg, State.pre_readPc,
    State.pre_readReg]

/-! ### The targets as numbers -/

theorem evenWord_eq_ofNat (v : Word) : evenWord v = BitVec.ofNat 16 (v.toNat / 2 * 2) := by
  rw [← evenWord_toNat, ← word_eq_ofNat]

theorem jalTarget_eq_ofNat (s : State) (ra : Reg) (imm : BitVec 4) :
    s.jalTarget ra imm = BitVec.ofNat 16 ((s.readReg ra + s.immWord imm).toNat / 2 * 2) :=
  evenWord_eq_ofNat _

theorem callTarget_eq_ofNat (imm12 : BitVec 12) : callTarget imm12 = BitVec.ofNat 16 (16 * imm12.toNat) := by
  rw [← callTarget_toNat, ← word_eq_ofNat]

/-! R20 takes nothing from either target: bit 0 of both is already clear. -/

theorem evenWord_jalTarget (s : State) (ra : Reg) (imm : BitVec 4) :
    evenWord (s.jalTarget ra imm) = s.jalTarget ra imm := evenWord_evenWord _

theorem evenWord_callTarget (imm12 : BitVec 12) : evenWord (callTarget imm12) = callTarget imm12 := by
  apply BitVec.eq_of_toNat_eq
  rw [evenWord_toNat, callTarget_toNat]
  omega

/-! ### The common effect -/

section
variable (s : State) (m : Mnemonic) (rd : Reg) (target : Word)

/-- R22, R210, R211: rd holds the address of the next instruction, unless it is r0. -/
theorem writesReg_linkAndJump : WritesReg s (s.linkAndJump m rd target) m rd (s.readPc + 2#16) where
  value := by by_cases hrd : rd = 0#4 <;> simp [State.readReg_linkAndJump, hrd]
  others r hr := by simp [State.readReg_linkAndJump, hr]
  prev := rfl

theorem kept_linkAndJump : Kept s (s.linkAndJump m rd target) := by
  constructor <;> simp [State.linkAndJump]

variable {m target}

/-- Neither instruction is a carry producer or imm, so the bookkeeping ends the carry's validity, and only `PRE` touches
the rest of the invisible state. -/
theorem uninvolved_linkAndJump (hm : carryProducers.contains m = false) (himm : m ≠ .imm) :
    Uninvolved s (s.linkAndJump m rd target) where
  a := by simp [State.linkAndJump]
  b := by simp [State.linkAndJump]
  carryOut := by simp [State.linkAndJump]
  shiftOut := by simp [State.linkAndJump]
  carryValid := by rw [State.linkAndJump, State.retire_carryValid, hm, if_neg Bool.false_ne_true, if_neg himm]
  canInterrupt := by simp [State.linkAndJump]

/-- R66: the transfer empties the code window. -/
theorem transferred_linkAndJump (heven : evenWord target = target) :
    Transferred s (s.linkAndJump m rd target) target where
  pc := by rw [State.linkAndJump, State.retire_readPc, State.jumpTo_readPc, heven]
  noPrefix := by simp [State.linkAndJump]
  prefixBits := by simp [State.linkAndJump]
  windowNext := rfl
  windowSecond := rfl
  settled := by simp [State.linkAndJump]

variable {s rd} {r : Result}

/-- R210, R211: an instruction that answers `linkAndJump` completes, with the effect common to the two. -/
theorem completes_linkAndJump (hr : r = .next (s.linkAndJump m rd target))
    (hm : carryProducers.contains m = false) (himm : m ≠ .imm) (heven : evenWord target = target) :
    Completes r fun t =>
      WritesReg s t m rd (s.readPc + 2#16) ∧ Uninvolved s t ∧ Kept s t ∧ Transferred s t target :=
  ⟨_, hr, writesReg_linkAndJump s m rd target, uninvolved_linkAndJump s rd hm himm,
    kept_linkAndJump s m rd target, transferred_linkAndJump s rd heven⟩

end

/-! ### The statements -/

/-- Settles O28: no guard, so that jal completes in every state, with the target of R210. -/
theorem jalJumpsAndLinks : Obligations.JalJumpsAndLinks := by
  intro s rd ra imm
  rw [← jalTarget_eq_ofNat]
  exact ⟨decodeWord_encode (.jal rd ra imm),
    completes_linkAndJump (exec_jal s rd ra imm) rfl nofun (evenWord_jalTarget s ra imm)⟩

/-- Settles O29: as O28, with the link in r15 and the target of R211. -/
theorem callJumpsAndLinks : Obligations.CallJumpsAndLinks := by
  intro s imm12
  rw [← callTarget_eq_ofNat]
  exact ⟨decodeWord_encode (.call imm12),
    completes_linkAndJump (exec_call s imm12) rfl nofun (evenWord_callTarget imm12)⟩

end Sys2Proof.Machine
end

section
/-! PROOFS. imm (46_imm_prefix R220): `PRE`, `recordPrefix`, the bookkeeping; what each of the three leaves. -/

namespace Sys2Proof.Machine

/-! ### The parts of the instruction -/

/-- R220's own three assignments, those that stand after its `PRE`. -/
def State.recordPrefix (s : State) (imm12 : BitVec 12) : State :=
  { s with hasImmPrefix := true, immPrefix := imm12, canInterrupt := false }

theorem exec_imm (s : State) (imm12 : BitVec 12) :
    exec (.imm imm12) s = .next ((s.pre.recordPrefix imm12).retire .imm none) := rfl

@[simp] theorem State.recordPrefix_readReg (s : State) (imm12 : BitVec 12) (r : Reg) :
    (s.recordPrefix imm12).readReg r = s.readReg r := rfl

@[simp] theorem State.recordPrefix_readPc (s : State) (imm12 : BitVec 12) :
    (s.recordPrefix imm12).readPc = s.readPc := rfl

/-- R30, D2: imm is no carry producer, and the one instruction whose bookkeeping keeps the carry's validity. -/
theorem State.retire_imm_carryValid (s : State) (d : Option Reg) : (s.retire .imm d).carryValid = s.carryValid := by
  rw [State.retire_carryValid, if_neg (by decide), if_pos rfl]

/-! ### What the whole instruction leaves unchanged -/

section
variable (s : State) (imm12 : BitVec 12)

theorem writesNoReg_pre_recordPrefix : WritesNoReg s ((s.pre.recordPrefix imm12).retire .imm none) .imm where
  registers r := by simp
  prev := rfl

theorem kept_pre_recordPrefix : Kept s ((s.pre.recordPrefix imm12).retire .imm none) := by
  constructor <;> simp [State.recordPrefix]

end

/-! ### The statement -/

/-- Settles O30: no guard, so that imm completes in every state; `recordPrefix` sets its three fields over what
`PRE` made of them, and every other field is as `PRE` and the bookkeeping leave it. -/
theorem immRecordsPrefix : Obligations.ImmRecordsPrefix := by
  intro s imm12
  refine ⟨decodeWord_encode (.imm imm12), _, exec_imm s imm12, ?_⟩
  have hpc : ((s.pre.recordPrefix imm12).retire .imm none).readPc = s.readPc + 2#16 := by simp
  have hvalid : ((s.pre.recordPrefix imm12).retire .imm none).carryValid = s.carryValid :=
    State.retire_imm_carryValid _ none
  exact ⟨rfl, rfl, rfl, hpc, writesNoReg_pre_recordPrefix s imm12, kept_pre_recordPrefix s imm12,
    rfl, rfl, rfl, rfl, hvalid, rfl, rfl, rfl⟩

end Sys2Proof.Machine
end

section
/-! PROOFS. The interrupt (60_exceptions R300 to R304): the ways an instruction can end when it completes, with what
each leaves of the interlock and of the pending request; the entry by the check that follows it; the return by jal. -/

namespace Sys2Proof.Machine

/-! ### What a store can change -/

theorem writeByteAt_state {s t : State} {l : Location} {v : Byte} (h : s.writeByteAt l v = .ok t) :
    ∃ mem mmu change log n,
      t = { s with mem := mem, mmu := mmu, mmuChange := change, ioLog := log, freeCount := n } := by
  obtain ⟨_, _, _, rfl⟩ | ⟨_, _, rfl⟩ | ⟨_, _, rfl⟩ := writeByteAt_ok h
  · exact ⟨_, _, _, _, _, rfl⟩
  · exact ⟨_, _, _, _, _, rfl⟩
  · exact ⟨_, _, _, _, _, rfl⟩

theorem writeWordAt_state {s t : State} {l : Location} {v : Word} (h : s.writeWordAt l v = .ok t) :
    ∃ mem mmu change log n,
      t = { s with mem := mem, mmu := mmu, mmuChange := change, ioLog := log, freeCount := n } := by
  obtain ⟨_, _, _, _, rfl⟩ | ⟨_, _, rfl⟩ | ⟨_, _, rfl⟩ := writeWordAt_ok h
  · exact ⟨_, _, _, _, _, rfl⟩
  · exact ⟨_, _, _, _, _, rfl⟩
  · exact ⟨_, _, _, _, _, rfl⟩

/-- `t` is `s` but for what a completed store, discarded or not, can change. -/
def StoreChanges (s t : State) : Prop :=
  ∃ mem mmu change log n next second,
    t = { s with mem := mem, mmu := mmu, mmuChange := change, ioLog := log, freeCount := n,
                 staleNext := next, staleSecond := second }

theorem storeByte_changes {s t : State} {ea : Word} {v : Byte} (h : s.storeByte ea v = .ok t) : StoreChanges s t := by
  obtain ⟨-, rfl⟩ | ⟨-, u, hu, rfl⟩ := storeByte_ok h
  · exact ⟨_, _, _, _, _, _, _, rfl⟩
  · obtain ⟨_, _, _, _, _, rfl⟩ := writeByteAt_state hu
    exact ⟨_, _, _, _, _, _, _, rfl⟩

theorem storeWord_changes {s t : State} {ea v : Word} (h : s.storeWord ea v = .ok t) : StoreChanges s t := by
  obtain ⟨-, rfl⟩ | ⟨-, u, hu, rfl⟩ := storeWord_ok h
  · exact ⟨_, _, _, _, _, _, _, rfl⟩
  · obtain ⟨_, _, _, _, _, rfl⟩ := writeWordAt_state hu
    exact ⟨_, _, _, _, _, _, _, rfl⟩

/-! ### The ways an instruction ends -/

/-- The logical instructions (41_logical R131 to R138). -/
def logicalMnemonics : List Mnemonic := [.and, .or, .xor, .andn, .andi, .ori, .xori, .andni]

/-- br and the conditional branches (44_branch R182 to R196). -/
def branchMnemonics : List Mnemonic :=
  [.br, .beq, .bne, .bc, .bnc, .bv, .bnv, .blt, .bge, .ble, .bgt, .bltu, .bgeu, .bleu, .bgtu]

/-- The loads (43_load_store R167, R168). -/
def loadMnemonics : List Mnemonic := [.lw, .lb]

/-- The stores (43_load_store R169, R170). -/
def storeMnemonics : List Mnemonic := [.sw, .sb]

/-- The jumps that leave a link (45_jump_call R210, R211). -/
def linkMnemonics : List Mnemonic := [.jal, .call]

/-- The states in which an instruction begun in `s` can complete, by class of mnemonics (00_scope R14): what the class
ends in, over `PRE`, with the register that the instruction names. -/
inductive Ending (s : State) (i : Instr) : State → Prop where
  | arith (rd : Reg) (p q v : Word) (c : Bool) (hm : carryProducers.contains i.mnemonic = true)
      (hd : Instr.dest i = some rd) : Ending s i (s.pre.finishArith i.mnemonic rd p q c v)
  | logical (rd : Reg) (v : Word) (hm : logicalMnemonics.contains i.mnemonic = true)
      (hd : Instr.dest i = some rd) : Ending s i (s.pre.finishResult i.mnemonic rd v)
  | shift (rd : Reg) (out : Bool) (v : Word) (hm : shiftMnemonics.contains i.mnemonic = true)
      (hd : Instr.dest i = some rd) : Ending s i (s.pre.finishShift i.mnemonic rd out v)
  | load (log : List IoAccess) (rd : Reg) (v : Word) (hm : loadMnemonics.contains i.mnemonic = true)
      (hd : Instr.dest i = some rd) : Ending s i (({ s.pre with ioLog := log } : State).finishResult i.mnemonic rd v)
  | store (u : State) (hu : StoreChanges s.pre u) (hm : storeMnemonics.contains i.mnemonic = true)
      (hd : Instr.dest i = none) : Ending s i (u.retire i.mnemonic none)
  | branch (taken : Bool) (disp : BitVec 8) (hm : branchMnemonics.contains i.mnemonic = true)
      (hd : Instr.dest i = none) : Ending s i ((s.pre.branchIf taken disp).retire i.mnemonic none)
  | link (rd : Reg) (target : Word) (hm : linkMnemonics.contains i.mnemonic = true)
      (hd : Instr.dest i = some rd) : Ending s i (s.linkAndJump i.mnemonic rd target)
  | imm (imm12 : BitVec 12) (hi : i = .imm imm12) : Ending s i ((s.pre.recordPrefix imm12).retire i.mnemonic none)

/-- Every completed instruction ends in the way of its class: its guards and its access let it go on. -/
theorem ending_of_exec {i : Instr} {s t : State} (h : exec i s = .next t) : Ending s i t := by
  cases i
  case add | sub =>
    obtain ⟨-, ⟨⟩⟩ := guardRb_next.mp h
    exact .arith _ _ _ _ _ rfl rfl
  case addi => cases h; exact .arith _ _ _ _ _ rfl rfl
  case adc | sbc =>
    obtain ⟨-, h⟩ := guardRb_next.mp h
    obtain ⟨-, ⟨⟩⟩ := guardCarry_next.mp h
    exact .arith _ _ _ _ _ rfl rfl
  case adci | sbci =>
    obtain ⟨-, ⟨⟩⟩ := guardCarry_next.mp h
    exact .arith _ _ _ _ _ rfl rfl
  case and | or | xor | andn =>
    obtain ⟨-, ⟨⟩⟩ := guardRb_next.mp h
    exact .logical _ _ rfl rfl
  case andi | ori | xori | andni => cases h; exact .logical _ _ rfl rfl
  case srli | srai | slli =>
    obtain ⟨-, ⟨⟩⟩ := guardCount_next.mp h
    exact .shift _ _ _ rfl rfl
  case srxi | slxi =>
    obtain ⟨-, h⟩ := guardCount_next.mp h
    obtain ⟨-, ⟨⟩⟩ := guardShift_next.mp h
    exact .shift _ _ _ rfl rfl
  case lw =>
    obtain ⟨-, h⟩ := guardAligned_next.mp h
    obtain ⟨r, hr, ⟨⟩⟩ := afterAccess_next.mp h
    obtain ⟨log, hlog⟩ := readWordAt_state hr
    rw [hlog]
    exact .load log _ _ rfl rfl
  case lb =>
    obtain ⟨r, hr, ⟨⟩⟩ := afterAccess_next.mp h
    obtain ⟨log, hlog⟩ := readByteAt_state hr
    rw [hlog]
    exact .load log _ _ rfl rfl
  case sw =>
    obtain ⟨-, h⟩ := guardStoreData_next.mp h
    obtain ⟨-, h⟩ := guardAligned_next.mp h
    obtain ⟨u, hu, ⟨⟩⟩ := afterAccess_next.mp h
    exact .store u (storeWord_changes hu) rfl rfl
  case sb =>
    obtain ⟨-, h⟩ := guardStoreData_next.mp h
    obtain ⟨u, hu, ⟨⟩⟩ := afterAccess_next.mp h
    exact .store u (storeByte_changes hu) rfl rfl
  case jal | call => cases h; exact .link _ _ rfl rfl
  case imm => cases h; exact .imm _ rfl
  case br => cases h; exact .branch _ _ rfl rfl
  case beq | bne | bc | bnc | bv | bnv | blt | bge | ble | bgt | bltu | bgeu | bleu | bgtu =>
    obtain ⟨-, ⟨⟩⟩ := guardBranchPrefix_next.mp h
    exact .branch _ _ rfl rfl

/-! ### The interlock (R303) -/

/-- What the check that follows an instruction reads, and `prev.kind`: `s` before the instruction, `t` after it. -/
structure CheckInputs (s t : State) (m : Mnemonic) : Prop where
  kind : t.prev.kind = .instr m
  canInterrupt : t.canInterrupt = false ↔ m ∈ interlockedMnemonics
  pending : t.interruptPending = s.interruptPending

section
variable {s t : State} {m : Mnemonic} {l : List Mnemonic}

theorem checkInputs_of_interlocked (hl : l ⊆ interlockedMnemonics) (hm : l.contains m = true)
    (hkind : t.prev.kind = .instr m) (hcan : t.canInterrupt = false)
    (hpending : t.interruptPending = s.interruptPending) : CheckInputs s t m :=
  ⟨hkind, iff_of_true hcan (hl (List.contains_iff_mem.mp hm)), hpending⟩

theorem checkInputs_of_interruptible (hl : ∀ m ∈ l, m ∉ interlockedMnemonics) (hm : l.contains m = true)
    (hkind : t.prev.kind = .instr m) (hcan : t.canInterrupt = true)
    (hpending : t.interruptPending = s.interruptPending) : CheckInputs s t m :=
  ⟨hkind, iff_of_false (ne_false_of_eq_true hcan) (hl m (List.contains_iff_mem.mp hm)), hpending⟩

end

/-- `PRE` allows the interrupt, and only an arithmetic instruction or imm forbids it again. -/
theorem checkInputs_of_exec {i : Instr} {s t : State} (h : exec i s = .next t) : CheckInputs s t i.mnemonic := by
  cases ending_of_exec h with
  | arith _ _ _ _ _ hm =>
    exact checkInputs_of_interlocked (l := carryProducers) (by decide) hm (by simp) (by simp) (by simp)
  | logical _ _ hm =>
    exact checkInputs_of_interruptible (l := logicalMnemonics) (by decide) hm (by simp) (by simp) (by simp)
  | shift _ _ _ hm =>
    exact checkInputs_of_interruptible (l := shiftMnemonics) (by decide) hm (by simp) (by simp) (by simp)
  | load _ _ _ hm =>
    exact checkInputs_of_interruptible (l := loadMnemonics) (by decide) hm (by simp) (by simp) (by simp)
  | store u hu hm =>
    obtain ⟨_, _, _, _, _, _, _, rfl⟩ := hu
    exact checkInputs_of_interruptible (l := storeMnemonics) (by decide) hm rfl rfl rfl
  | branch _ _ hm =>
    exact checkInputs_of_interruptible (l := branchMnemonics) (by decide) hm rfl (by simp) (by simp)
  | link rd target hm =>
    exact checkInputs_of_interruptible (l := linkMnemonics) (by decide) hm rfl (by simp [State.linkAndJump])
      (kept_linkAndJump s _ rd target).pending
  | imm imm12 hi =>
    subst hi
    exact checkInputs_of_interlocked (l := [.imm]) (by decide) rfl rfl rfl rfl

/-! ### The check and the entry (R301) -/

theorem interruptCheck_of_pending {s : State} (hpending : s.interruptPending = true) (hcan : s.canInterrupt = true) :
    s.interruptCheck = s.takeInterrupt := by simp [State.interruptCheck, hpending, hcan]

theorem interruptCheck_of_not {s : State} (h : s.interruptPending = false ∨ s.canInterrupt = false) :
    s.interruptCheck = s := by
  obtain h | h := h <;> simp [State.interruptCheck, h]

theorem mem_withLink (dests : List Reg) (r : Reg) : r ∈ withLink dests ↔ r = 14#4 ∨ r ∈ dests := by
  unfold withLink
  split
  case isTrue h => exact ⟨.inr, fun hr => hr.elim (· ▸ h) id⟩
  case isFalse => exact List.mem_cons

theorem State.takeInterrupt_readPc (s : State) : s.takeInterrupt.readPc = 0x0010#16 := by
  rw [State.readPc, State.takeInterrupt_pc]; rfl

/-- Settles O32: the check is the entry or nothing, and the entry's fields are its laws. -/
theorem interruptEntry : Obligations.InterruptEntry := by
  intro s
  refine ⟨fun hpending hcan => ?_, interruptCheck_of_not⟩
  rw [interruptCheck_of_pending hpending hcan]
  refine ⟨s.readReg_takeInterrupt, s.takeInterrupt_readPc, rfl, rfl, mem_withLink s.prev.dests, rfl, ?_⟩
  simp

/-! ### The step -/

/-- A fetch leaves the pending request as it was. -/
theorem fetch_interruptPending {s t : State} {w : Word} (h : s.fetch = .ok (w, t)) :
    t.interruptPending = s.interruptPending := by
  obtain ⟨-, -, _, _, rfl⟩ := fetch_ok h
  rfl

/-- A completed step whose fetched instruction is known: that instruction, and the check after it. -/
theorem step_next_of_fetch {s s1 t : State} {w : Word} {i : Instr} (hfetch : s.acceptRequest.fetch = .ok (w, s1))
    (hdecode : decodeWord w = .ok i) (hstep : step s = .next t) :
    ∃ u, exec i s1 = .next u ∧ t = u.interruptCheck := by
  obtain ⟨w', s1', i', u, hfetch', hdecode', hu, ht⟩ := step_next hstep
  cases hfetch.symm.trans hfetch'
  cases hdecode.symm.trans hdecode'
  exact ⟨u, hu, ht⟩

/-- Settles O33: after an interlocked instruction the check finds `canInterrupt` false and does nothing; after any other
it finds it true, and the request as the step's start accepted it. -/
theorem interlockHoldsRequest : Obligations.InterlockHoldsRequest := by
  refine ⟨fun i s t h => (checkInputs_of_exec h).canInterrupt, fun s t s1 w i hfetch hdecode hstep => ?_⟩
  obtain ⟨u, hu, rfl⟩ := step_next_of_fetch hfetch hdecode hstep
  have hcheck := checkInputs_of_exec hu
  have hpending : u.interruptPending = s.acceptRequest.interruptPending :=
    hcheck.pending.trans (fetch_interruptPending hfetch)
  refine ⟨fun hm => ?_, fun hm hreq => ?_⟩
  · rw [interruptCheck_of_not (.inr (hcheck.canInterrupt.mpr hm))]
    exact ⟨hu, hcheck.kind, hpending⟩
  · have hcan : u.canInterrupt = true := Bool.eq_true_of_not_eq_false (mt hcheck.canInterrupt.mp hm)
    rw [interruptCheck_of_pending (hpending.trans hreq) hcan]
    exact ⟨rfl, rfl⟩

/-! ### The return (R304) -/

/-- With no immediate pending, the target of reti is the return address itself, bit 0 cleared. -/
theorem jalTarget_reti {s : State} (h : s.hasImmPrefix = false) : s.jalTarget 14#4 0#4 = s.returnTarget := by
  have hoffset : s.immWord 0#4 = 0#16 := by simp [State.immWord, h, wordOffset]
  rw [State.jalTarget, State.effectiveAddress, hoffset, BitVec.add_zero, State.returnTarget]

theorem exec_reti {s : State} (h : s.hasImmPrefix = false) :
    exec reti s = .next (s.linkAndJump .jal 0#4 s.returnTarget) := by
  rw [reti, exec_jal, jalTarget_reti h]

/-- reti's link goes to r0, so that no register changes. -/
theorem readReg_reti (s : State) (r : Reg) : (s.linkAndJump .jal 0#4 s.returnTarget).readReg r = s.readReg r := by
  rw [State.readReg_linkAndJump, if_neg (fun ⟨_, hne⟩ => hne rfl)]

theorem readPc_reti (s : State) : (s.linkAndJump .jal 0#4 s.returnTarget).readPc = s.returnTarget :=
  (transferred_linkAndJump s 0#4 (evenWord_evenWord _)).pc

/-- Right after an entry the return address is the interrupted pc. -/
theorem returnTarget_takeInterrupt (s : State) : s.takeInterrupt.returnTarget = s.readPc := by
  rw [State.returnTarget, State.readReg_takeInterrupt, if_pos rfl, State.evenWord_readPc]

/-- Settles O36: reti is a jal whose link is lost, so that its effect is that of the transfer; the entry keeps every
register but r14, where it puts the address that reti returns to. -/
theorem returnFromInterrupt : Obligations.ReturnFromInterrupt := by
  intro s hnoImm
  rw [← evenWord_eq_ofNat, ← State.returnTarget]
  refine ⟨decodeWord_encode reti, ⟨_, exec_reti hnoImm, ?_⟩, ⟨_, exec_reti (s := s.takeInterrupt) ?_, ?_⟩⟩
  · have hkept := kept_linkAndJump s .jal 0#4 s.returnTarget
    have huninvolved := uninvolved_linkAndJump s (m := .jal) 0#4 (target := s.returnTarget) rfl nofun
    refine ⟨readPc_reti s, readReg_reti s, hkept, huninvolved, fun hreq => ?_⟩
    rw [interruptCheck_of_pending (hkept.pending.trans hreq) huninvolved.canInterrupt, State.readReg_takeInterrupt,
      if_pos rfl]
    exact ⟨State.takeInterrupt_readPc _, readPc_reti s⟩
  · rw [State.takeInterrupt_hasImmPrefix, hnoImm]
  · refine ⟨(readPc_reti _).trans (returnTarget_takeInterrupt s), fun r hr => ?_⟩
    rw [readReg_reti, State.readReg_takeInterrupt, if_neg hr]

end Sys2Proof.Machine
end

section
/-! PROOFS. The address map (60_exceptions R316, R320 to R323; 20_memory R50, R60, R62): where an address goes, in I/O
space and outside it; what an access does where nothing is, and where the page is not writable. -/

namespace Sys2Proof.Machine

/-! ### Outside I/O space -/

/-- The entry of an address, with the page number as the statements write it. -/
theorem pageOf_eq_ofNat (va : Word) : pageOf va = BitVec.ofNat 4 (va.toNat / 4096) := by
  rw [← pageOf_toNat, BitVec.ofNat_toNat, BitVec.setWidth_eq]

section
variable {s : State} {va : Word}

theorem locate_translated (hio : s.platform.inIo va = false) (hmmu : s.platform.mmuPresent = true) :
    s.locate va = .memory (s.platform.physical (translate (s.mmu.get (pageOf va).toFin) va)) := by
  simp [State.locate, Platform.locate, hio, hmmu]

theorem locate_untranslated (hio : s.platform.inIo va = false) (hmmu : s.platform.mmuPresent = false) :
    s.locate va = .memory (va.setWidth 26) := by
  simp [State.locate, Platform.locate, hio, hmmu]

theorem writable_eq_entryBit (hio : s.platform.inIo va = false) (hmmu : s.platform.mmuPresent = true) :
    s.writable va = (s.mmu.get (pageOf va).toFin).getLsbD 15 := by
  simp [State.writable, hio, hmmu]

theorem writable_of_noMmu (hmmu : s.platform.mmuPresent = false) : s.writable va = true := by
  simp [State.writable, hmmu]

end

/-- Settles O20: of 26 bits or more `physical` drops nothing, so that the address is the one `translate` gives. -/
theorem translationFormula : Obligations.TranslationFormula := by
  intro s va hio
  rw [← pageOf_eq_ofNat]
  refine ⟨fun hmmu => ⟨writable_eq_entryBit hio hmmu, fun hwide => ⟨_, locate_translated hio hmmu, ?_⟩⟩,
    fun hmmu => ⟨writable_of_noMmu hmmu, _, locate_untranslated hio hmmu, ?_⟩⟩
  · rw [physical_of_wide hwide, translate_toNat]
  · exact BitVec.toNat_setWidth_of_le (by decide)

/-! ### I/O space -/

theorem inIo_iff (p : Platform) (va : Word) :
    p.inIo va = true ↔ p.ioBase ≤ va.toNat ∧ va.toNat < p.ioBase + p.ioSize := by
  simp [Platform.inIo]

section
variable {s : State} {va : Word}

/-- R323: I/O space is exempt from translation. -/
theorem locate_mmu_irrelevant_of_inIo (hio : s.platform.inIo va = true) (mmu : Vector Word 16) :
    ({ s with mmu := mmu } : State).locate va = s.locate va := by
  simp [State.locate, Platform.locate, hio]

theorem locate_mmuReg_of_inIo (hio : s.platform.inIo va = true) (hmmu : s.platform.mmuPresent = true) {k : BitVec 5}
    (hk : va.toNat = s.platform.ioBase + k.toNat) : s.locate va = .mmuReg k := by
  have hlt : va.toNat < s.platform.ioBase + 32 := by have := k.isLt; omega
  have hoff : (va - BitVec.ofNat 16 s.platform.ioBase).extractLsb' 0 5 = k := by
    apply BitVec.eq_of_toNat_eq
    have := va.isLt
    have := k.isLt
    rw [BitVec.extractLsb'_toNat, BitVec.toNat_sub, BitVec.toNat_ofNat, Nat.shiftRight_zero]
    omega
  simp [State.locate, Platform.locate, hio, hmmu, hlt, hoff]

theorem locate_beyond_mmuRegs_of_inIo (hio : s.platform.inIo va = true)
    (hbeyond : s.platform.mmuPresent = false ∨ s.platform.ioBase + 32 ≤ va.toNat) :
    s.locate va = if s.platform.ioDevice then .device va else .absent va := by
  have hregs : (s.platform.mmuPresent && decide (va.toNat < s.platform.ioBase + 32)) = false := by
    obtain h | h := hbeyond <;> simp [h]
  simp only [State.locate, Platform.locate, hio, hregs, if_true, Bool.false_eq_true, if_false]

end

/-! ### Where nothing is (R316) -/

section
variable {s : State} {ea va : Word}

theorem loadWord_of_absent (hl : s.locate ea = .absent va) : s.loadWord ea = .error .unpopulatedAddress := by
  rw [State.loadWord, hl]; rfl

theorem loadByte_of_absent (hl : s.locate ea = .absent va) : s.loadByte ea = .error .unpopulatedAddress := by
  rw [State.loadByte, hl]; rfl

/-- Only I/O space has places where nothing is, and there the store is not discarded. -/
theorem writable_of_absent (hl : s.locate ea = .absent va) : s.writable ea = true :=
  writable_of_inIo (inIo_of_locate hl nofun)

theorem storeWord_of_absent (hl : s.locate ea = .absent va) (v : Word) :
    s.storeWord ea v = .error .unpopulatedAddress := by
  rw [State.storeWord, if_pos (writable_of_absent hl), hl]; rfl

theorem storeByte_of_absent (hl : s.locate ea = .absent va) (v : Byte) :
    s.storeByte ea v = .error .unpopulatedAddress := by
  rw [State.storeByte, if_pos (writable_of_absent hl), hl]; rfl

theorem fetch_of_absent (hl : s.fetchLocation = .absent va) (hfresh : s.staleNext = false) :
    s.fetch = .error .unpopulatedAddress := by
  rw [State.fetch, hfresh, hl]; rfl

end

/-- A request accepted at the start of a step changes nothing that the fetch reads. -/
theorem acceptRequest_fetchInputs (s : State) :
    s.acceptRequest.fetchLocation = s.fetchLocation ∧ s.acceptRequest.staleNext = s.staleNext := by
  obtain ⟨_, _, h⟩ := acceptRequest_state s
  rw [h]
  exact ⟨rfl, rfl⟩

theorem step_of_fetch_error {s : State} {f : Fault} (h : s.acceptRequest.fetch = .error f) : step s = .fault f := by
  rw [step, h]

/-- Settles O60: the cases of `Platform.locate` in its order, and the stop of each access where its last case of I/O
space sends it. -/
theorem whereAddressesGo : Obligations.WhereAddressesGo := by
  intro s va
  refine ⟨inIo_iff s.platform va, fun hio => ?_, fun hio hmmu => ?_,
    fun rd ra imm => ⟨fun hl heven => ?_, fun hl => ?_⟩, fun hl hfresh => ?_⟩
  · exact ⟨writable_of_inIo hio, locate_mmu_irrelevant_of_inIo hio,
      fun k hmmu hk => locate_mmuReg_of_inIo hio hmmu hk, locate_beyond_mmuRegs_of_inIo hio⟩
  · refine ⟨_, locate_translated hio hmmu, ?_⟩
    rw [physical_toNat, translate_toNat, pageOf_eq_ofNat]
  · have hpre := (s.pre_locate _).trans hl
    exact ⟨(guardAligned_of_even heven).trans (afterAccess_of_error (loadWord_of_absent hpre)),
      fun hrd => (guardStoreData_of_notMem hrd).trans ((guardAligned_of_even heven).trans
        (afterAccess_of_error (storeWord_of_absent hpre _)))⟩
  · have hpre := (s.pre_locate _).trans hl
    exact ⟨afterAccess_of_error (loadByte_of_absent hpre),
      fun hrd => (guardStoreData_of_notMem hrd).trans (afterAccess_of_error (storeByte_of_absent hpre _))⟩
  · obtain ⟨hlocation, hstale⟩ := acceptRequest_fetchInputs s
    exact step_of_fetch_error (fetch_of_absent (hlocation.trans hl) (hstale.trans hfresh))

/-! ### The discarded store (R322) -/

section
variable {s : State} {ea : Word}

theorem storeWord_of_unwritable (hw : s.writable ea = false) (v : Word) : s.storeWord ea v = .ok s :=
  if_neg (ne_true_of_eq_false hw)

theorem storeByte_of_unwritable (hw : s.writable ea = false) (v : Byte) : s.storeByte ea v = .ok s :=
  if_neg (ne_true_of_eq_false hw)

end

/-- An instruction that does nothing but `PRE` and its bookkeeping, and is neither a carry producer nor imm. -/
theorem frame_pre_retire (s : State) {m : Mnemonic} (hm : carryProducers.contains m = false) (himm : m ≠ .imm) :
    Kept s (s.pre.retire m none) ∧ Sequential s (s.pre.retire m none) ∧ WritesNoReg s (s.pre.retire m none) m ∧
    Uninvolved s (s.pre.retire m none) := by
  refine ⟨by constructor <;> simp, by constructor <;> simp, ⟨fun _ => rfl, rfl⟩, ?_⟩
  exact
    { a := rfl, b := rfl, carryOut := rfl, shiftOut := rfl, canInterrupt := rfl
      carryValid := by rw [State.retire_carryValid, hm, if_neg Bool.false_ne_true, if_neg himm] }

/-- Outside the code window, and with no MMU entry unsettled, a fetch is the load of the word at pc. -/
theorem fetch_eq_loadWord {s : State} (hfresh : s.staleNext = false) (hsettled : s.mmuChange = none) :
    s.fetch = s.loadWord s.readPc := by
  simp [State.fetch, hfresh, State.drawForFetch, State.fetchLocation, State.fetchMmu, hsettled, State.loadWord,
    State.locate]

/-- Settles O19: an unwritable page is asked before the location, so that a store to it ends as `PRE` leaves it; a load
from memory and a fetch do not ask. -/
theorem unwritableStoreIsDiscarded : Obligations.UnwritableStoreIsDiscarded := by
  intro s rd ra imm hmmu
  refine ⟨fun hrd hio heven hbit => ?_, fun hrd hio hbit => ?_, fun pa hl heven hp hp' => ?_, fun pa hl hp => ?_,
    fun pa hl hfresh hsettled hp hp' => ?_⟩
  · have hw := (s.pre_writable _).trans ((writable_eq_entryBit hio hmmu).trans hbit)
    exact ⟨_, (guardStoreData_of_notMem hrd).trans ((guardAligned_of_even heven).trans
      (afterAccess_of_ok (storeWord_of_unwritable hw _))), frame_pre_retire s rfl nofun⟩
  · have hw := (s.pre_writable _).trans ((writable_eq_entryBit hio hmmu).trans hbit)
    exact ⟨_, (guardStoreData_of_notMem hrd).trans (afterAccess_of_ok (storeByte_of_unwritable hw _)),
      frame_pre_retire s rfl nofun⟩
  · obtain ⟨-, -, hload⟩ := loadWordFromMemory s rd ra imm _ rfl
    obtain ⟨-, hcompletes⟩ := hload heven pa hl
    obtain ⟨t, ht, heffect⟩ := hcompletes (by rw [hp, hp', Bool.and_self])
    exact ⟨t, ht, heffect.kept, heffect.sequential⟩
  · obtain ⟨-, hload⟩ := loadByteFromMemory s rd ra imm _ rfl
    obtain ⟨-, hcompletes⟩ := hload pa hl
    obtain ⟨t, ht, heffect⟩ := hcompletes hp
    exact ⟨t, ht, heffect.kept, heffect.sequential⟩
  · rw [fetch_eq_loadWord hfresh hsettled]
    exact loadWord_of_populated hl (by rw [hp, hp', Bool.and_self])

end Sys2Proof.Machine
end

section
/-! PROOFS. The state after reset (70_reset R340, 10_state R38), where the spec gives or decides values. -/

namespace Sys2Proof.Machine

/-- The first instruction after reset is fetched at 0: reset's pc is even, so that the cleared bit 0 costs nothing. -/
@[simp] theorem State.resetWith_readPc (p : Platform) (image : Memory) : (State.resetWith p image).readPc = 0#16 :=
  evenWord_zero

/-- Settles O51: pc reads the even word that reset puts there, r0 is hard-wired in every state, and each other value is
the field that reset sets. -/
theorem resetState : Obligations.ResetState := by
  intro p image
  exact ⟨State.resetWith_readPc p image, State.readReg_zero _, rfl, rfl, rfl, rfl, rfl, rfl⟩

end Sys2Proof.Machine
end

section
/-! PROOFS. The decoder and the encoder are each other's inverses (30_encoding R80, R81, R95 to R99), and the words
that do not decode are those of R100's table. -/

namespace Sys2Proof

/-! ### Bytes -/

/-- The decoder of bytes reads the first two as one word and leaves the others. -/
theorem decode_cons_cons_eq_ok {hi lo : Byte} {rest rest' : List Byte} {i : Instr} :
    decode (hi :: lo :: rest) = .ok (i, rest') ↔ decodeWord (wordOfBytes hi lo) = .ok i ∧ rest = rest' := by
  rw [decode]
  cases decodeWord (wordOfBytes hi lo) <;> simp

/-- Settles O48: the word of an instruction is split into its bytes and put together again. -/
theorem decodeOfEncode : Obligations.DecodeOfEncode := by
  intro i rest
  have hword : decodeWord (wordOfBytes (highByte (encode i)) (lowByte (encode i))) = .ok i := by
    rw [Machine.wordOfBytes_split, decodeWord_encode]
  exact ⟨decodeWord_encode i, decode_cons_cons_eq_ok.mpr ⟨hword, rfl⟩⟩

/-! ### A word is what its fields make, in each format (R81) -/

theorem nibbles_fields (w : Word) : nibbles (field3 w) (field2 w) (field1 w) (field0 w) = w := by
  obtain ⟨h3, h2, h1, h0, -, -⟩ := fields_toNat w
  have := w.isLt
  apply BitVec.eq_of_toNat_eq
  rw [nibbles_toNat, h3, h2, h1, h0]
  omega

theorem encodeBR_fields {w : Word} (h : field3 w = 0xB#4) : encodeBR (field2 w) (dispField w) = w := by
  obtain ⟨h3, h2, -, -, hdisp, -⟩ := fields_toNat w
  rw [h] at h3
  have hmajor : w.toNat / 4096 = 11 := h3.symm
  apply BitVec.eq_of_toNat_eq
  rw [encodeBR_toNat, h2, hdisp]
  omega

theorem encodeI12_fields (w : Word) : encodeI12 (field3 w) (imm12Field w) = w := by
  obtain ⟨h3, -, -, -, -, himm⟩ := fields_toNat w
  apply BitVec.eq_of_toNat_eq
  rw [encodeI12_toNat, h3, himm]
  omega

/-! ### A group's function code or condition, encoded again, is the one decoded -/

theorem eq_ofNat_of_toNat {f : BitVec 4} {k : Nat} (h : f.toNat = k) : f = BitVec.ofNat 4 k := by
  rw [← h, BitVec.ofNat_toNat, BitVec.setWidth_eq]

theorem encode_of_decodeRR {fn : BitVec 4} {rd rb : Reg} {i : Instr} (h : decodeRR fn rd rb = .ok i) :
    encode i = nibbles 0x3#4 rd fn rb := by
  unfold decodeRR at h
  split at h
  case h_7 => cases h
  all_goals
    rename_i hfn
    obtain rfl := eq_ofNat_of_toNat hfn
    cases h
    rfl

theorem encode_of_decodeRI {fn : BitVec 4} {rd : Reg} {imm : BitVec 4} {i : Instr} (h : decodeRI fn rd imm = .ok i) :
    encode i = nibbles 0x4#4 rd fn imm := by
  unfold decodeRI at h
  split at h
  case h_12 => cases h
  all_goals
    rename_i hfn
    obtain rfl := eq_ofNat_of_toNat hfn
    cases h
    rfl

theorem encode_of_decodeBR {cond : BitVec 4} {disp : BitVec 8} {i : Instr} (h : decodeBR cond disp = .ok i) :
    encode i = encodeBR cond disp := by
  unfold decodeBR at h
  split at h
  case h_16 => cases h
  all_goals
    rename_i hcond
    obtain rfl := eq_ofNat_of_toNat hcond
    cases h
    rfl

/-- Settles O49: in each row of R96 the fields that the row does not read as operands are fixed by the row, so that the
fields, put together in the row's format, are the word. -/
theorem encodeOfDecode : Obligations.EncodeOfDecode := by
  intro w i h
  have hnibbles := nibbles_fields w
  have hi12 := encodeI12_fields w
  unfold decodeWord at h
  split at h
  case h_14 => cases h
  all_goals
    rename_i hmajor
    replace hmajor := eq_ofNat_of_toNat hmajor
    rw [hmajor] at hnibbles hi12
  case h_4 => exact (encode_of_decodeRR h).trans hnibbles
  case h_5 => exact (encode_of_decodeRI h).trans hnibbles
  case h_11 => exact (encode_of_decodeBR h).trans (encodeBR_fields hmajor)
  case h_12 | h_13 =>
    cases h
    exact hi12
  all_goals
    cases h
    exact hnibbles

/-! ### The words that do not decode (R100) -/

theorem decodeRR_error_iff (fn : BitVec 4) (rd rb : Reg) :
    (∃ e, decodeRR fn rd rb = .error e) ↔ 6 ≤ fn.toNat := by
  unfold decodeRR
  split
  case h_7 => simp [imp_false] at *; omega
  all_goals simp_all

theorem decodeRI_error_iff (fn : BitVec 4) (rd : Reg) (imm : BitVec 4) :
    (∃ e, decodeRI fn rd imm = .error e) ↔ 11 ≤ fn.toNat := by
  unfold decodeRI
  split
  case h_12 => simp [imp_false] at *; omega
  all_goals simp_all

theorem decodeBR_error_iff (cond : BitVec 4) (disp : BitVec 8) :
    (∃ e, decodeBR cond disp = .error e) ↔ cond.toNat = 1 := by
  have := cond.isLt
  unfold decodeBR
  split
  case h_16 => simp [imp_false] at *; omega
  all_goals simp_all

/-- Settles O50: the major opcode decides, and in the three groups the function code or the condition. -/
theorem reservedWordsExactly : Obligations.ReservedWordsExactly := by
  intro w
  obtain ⟨h3, h2, h1, -, -, -⟩ := fields_toNat w
  have := w.isLt
  unfold decodeWord
  split
  case h_4 => rw [decodeRR_error_iff]; omega
  case h_5 => rw [decodeRI_error_iff]; omega
  case h_11 => rw [decodeBR_error_iff]; omega
  case h_14 =>
    refine iff_of_true ⟨_, rfl⟩ ?_
    simp only [imp_false] at *
    omega
  all_goals
    refine iff_of_false nofun ?_
    omega

/-- Settles O47: nine fixed words, each read by the decoder. -/
theorem sampleWordsDecode : Obligations.SampleWordsDecode := by
  refine ⟨?_, ?_, ?_, ?_, ?_, ?_, ?_, ?_, ?_⟩ <;> rfl

end Sys2Proof
end

section
/-! PROOFS. What every completed instruction leaves, said once over the ways it can end: the bookkeeping, the registers
it does not name, pc, memory and the devices. -/

namespace Sys2Proof.Machine

/-! ### The result set (10_state R30) -/

theorem mem_destSet {d : Option Reg} {r : Reg} : r ∈ destSet d ↔ d = some r ∧ r ≠ 0#4 := by
  cases d with
  | none => simp [destSet]
  | some rd =>
    by_cases hrd : rd = 0#4
    · subst hrd
      exact iff_of_false List.not_mem_nil fun ⟨h, hne⟩ => hne (Option.some.inj h).symm
    · simp only [destSet, hrd, if_false, List.mem_singleton, Option.some.injEq]
      exact ⟨fun h => ⟨h.symm, h ▸ hrd⟩, fun ⟨h, _⟩ => h.symm⟩

theorem zero_notMem_destSet (d : Option Reg) : 0#4 ∉ destSet d := fun h =>
  have ⟨_, hne⟩ := mem_destSet.mp h
  hne rfl

theorem destSet_nodup (d : Option Reg) : (destSet d).Nodup := by
  unfold destSet
  split
  · exact List.nodup_nil
  · split
    · exact List.nodup_nil
    · exact List.nodup_singleton _

/-! ### The bookkeeping -/

/-- What a completed instruction leaves, whichever it is: `s` before it, `t` after it. -/
structure Retired (s : State) (i : Instr) (t : State) : Prop where
  prev : t.prev = ⟨.instr i.mnemonic, destSet (Instr.dest i)⟩
  carryValid : t.carryValid =
    if carryProducers.contains i.mnemonic then true else if i.mnemonic = .imm then s.carryValid else false
  hasImmPrefix : t.hasImmPrefix = true ↔ i.mnemonic = .imm
  registers : ∀ r, r ∉ destSet (Instr.dest i) → t.readReg r = s.readReg r
  zeroReg : t.regs.get 0 = s.regs.get 0
  pcEven : t.pc.getLsbD 0 = false
  platform : t.platform = s.platform

/-- The condition of a register's new value fails for every register outside the result set. -/
theorem not_written {i : Instr} {rd r : Reg} (hd : Instr.dest i = some rd) (hr : r ∉ destSet (Instr.dest i)) :
    ¬ (r = rd ∧ rd ≠ 0#4) := by
  rintro ⟨rfl, hne⟩
  exact hr (mem_destSet.mpr ⟨hd, hne⟩)

/-- `v` is `s` after `PRE`, in what the bookkeeping looks at. -/
structure AsPre (s v : State) : Prop where
  regs : v.regs = s.regs
  pcEven : v.pc.getLsbD 0 = false
  carryValid : v.carryValid = s.carryValid
  noImm : v.hasImmPrefix = false
  platform : v.platform = s.platform

section
variable {s v : State} {i : Instr}

theorem AsPre.readReg (hv : AsPre s v) (r : Reg) : v.readReg r = s.readReg r := by
  rw [State.readReg, State.readReg, hv.regs]

/-- The end of an instruction that writes rd and does not move pc. -/
theorem AsPre.retired_writeReg (hv : AsPre s v) {rd : Reg} (hd : Instr.dest i = some rd) (himm : i.mnemonic ≠ .imm)
    (x : Word) : Retired s i ((v.writeReg rd x).retire i.mnemonic (some rd)) where
  prev := by rw [hd]; rfl
  carryValid := by rw [State.retire_carryValid, State.writeReg_carryValid, hv.carryValid]
  hasImmPrefix := by
    rw [State.retire_hasImmPrefix, State.writeReg_hasImmPrefix, hv.noImm]
    exact iff_of_false nofun himm
  registers r hr := by
    rw [State.retire_readReg, State.readReg_writeReg, if_neg (not_written hd hr), hv.readReg]
  zeroReg := by rw [State.retire_regs, State.writeReg_regs_zero, hv.regs]
  pcEven := by rw [State.retire_pc, State.writeReg_pc]; exact hv.pcEven
  platform := by rw [State.retire_platform, State.writeReg_platform, hv.platform]

/-- The end of an instruction that writes no register. -/
theorem AsPre.retired (hv : AsPre s v) (hd : Instr.dest i = none) (himm : i.mnemonic ≠ .imm) :
    Retired s i (v.retire i.mnemonic none) where
  prev := by rw [hd]; rfl
  carryValid := by rw [State.retire_carryValid, hv.carryValid]
  hasImmPrefix := by
    rw [State.retire_hasImmPrefix, hv.noImm]
    exact iff_of_false nofun himm
  registers r _ := by rw [State.retire_readReg, hv.readReg]
  zeroReg := by rw [State.retire_regs, hv.regs]
  pcEven := by rw [State.retire_pc]; exact hv.pcEven
  platform := by rw [State.retire_platform, hv.platform]

end

theorem pre_pc_even (s : State) : s.pre.pc.getLsbD 0 = false := evenWord_bit0 _

theorem asPre_branchIf (s : State) (taken : Bool) (disp : BitVec 8) : AsPre s (s.pre.branchIf taken disp) where
  regs := by simp
  pcEven := by
    cases taken
    · exact pre_pc_even s
    · exact evenWord_bit0 _
  carryValid := by simp
  noImm := by simp
  platform := by simp

theorem ne_imm_of_class {m : Mnemonic} {l : List Mnemonic} (hm : l.contains m = true) (hl : Mnemonic.imm ∉ l) :
    m ≠ .imm := fun h => hl (h ▸ List.contains_iff_mem.mp hm)

/-- Before its bookkeeping each class but the jumps and imm has changed, of what the bookkeeping looks at, no more than
the register it names and, for a branch, pc. -/
theorem retired_of_exec {i : Instr} {s t : State} (h : exec i s = .next t) : Retired s i t := by
  cases ending_of_exec h with
  | arith rd p q v c hm hd =>
    have hv : AsPre s { s.pre with a := p, b := q, carryOut := c, canInterrupt := false } :=
      ⟨rfl, pre_pc_even s, rfl, rfl, rfl⟩
    exact hv.retired_writeReg hd (ne_imm_of_class hm (by decide)) v
  | logical rd v hm hd =>
    have hv : AsPre s s.pre := ⟨rfl, pre_pc_even s, rfl, rfl, rfl⟩
    exact hv.retired_writeReg hd (ne_imm_of_class hm (by decide)) v
  | shift rd out v hm hd =>
    have hv : AsPre s { s.pre with shiftOut := out } := ⟨rfl, pre_pc_even s, rfl, rfl, rfl⟩
    exact hv.retired_writeReg hd (ne_imm_of_class hm (by decide)) v
  | load log rd v hm hd =>
    have hv : AsPre s { s.pre with ioLog := log } := ⟨rfl, pre_pc_even s, rfl, rfl, rfl⟩
    exact hv.retired_writeReg hd (ne_imm_of_class hm (by decide)) v
  | store u hu hm hd =>
    obtain ⟨_, _, _, _, _, _, _, rfl⟩ := hu
    exact AsPre.retired ⟨rfl, pre_pc_even s, rfl, rfl, rfl⟩ hd (ne_imm_of_class hm (by decide))
  | branch taken disp hm hd =>
    exact (asPre_branchIf s taken disp).retired hd (ne_imm_of_class hm (by decide))
  | link rd target hm hd =>
    have himm := ne_imm_of_class hm (l := linkMnemonics) (by decide)
    exact
      { prev := by rw [hd]; rfl
        carryValid := by simp [State.linkAndJump]
        hasImmPrefix := iff_of_false (by simp [State.linkAndJump]) himm
        registers := fun r hr => by rw [State.readReg_linkAndJump, if_neg (not_written hd hr)]
        zeroReg := State.writeReg_regs_zero s.pre rd s.pre.readPc
        pcEven := evenWord_bit0 _
        platform := by simp [State.linkAndJump] }
  | imm imm12 hi =>
    subst hi
    exact
      { prev := rfl
        carryValid := rfl
        hasImmPrefix := iff_of_true rfl rfl
        registers := fun _ _ => rfl
        zeroReg := rfl
        pcEven := pre_pc_even s
        platform := rfl }

/-- Settles O39: `prev` is what the instruction's own result says, written out for each. -/
theorem resultSetOfEveryInstruction : Obligations.ResultSetOfEveryInstruction := by
  intro i s t h
  have hret := retired_of_exec h
  rw [hret.prev]
  refine ⟨rfl, hret.registers, ?_⟩
  cases i <;> rfl

/-- Settles O40: the carry's validity is set by a carry producer, kept by imm, and dropped by every other. -/
theorem carryValidityOfEveryInstruction : Obligations.CarryValidityOfEveryInstruction := by
  intro i s t h
  rw [(retired_of_exec h).carryValid]
  by_cases hproducer : i.mnemonic ∈ carryProducers
  · rw [if_pos (List.contains_iff_mem.mpr hproducer)]
    exact iff_of_true rfl (.inl hproducer)
  · rw [if_neg (mt List.contains_iff_mem.mp hproducer)]
    by_cases himm : i.mnemonic = .imm
    · rw [if_pos himm]
      exact ⟨fun hvalid => .inr ⟨himm, hvalid⟩, fun h => h.elim (absurd · hproducer) And.right⟩
    · rw [if_neg himm]
      exact iff_of_false nofun fun h => h.elim hproducer (himm ·.1)

/-- Settles O31: `PRE` clears has_imm_prefix, and only another imm sets it again. -/
theorem prefixServesOneInstruction : Obligations.PrefixServesOneInstruction := by
  intro s hi
  refine ⟨_, exec_imm s hi, fun f => ?_, fun i u hu => ?_⟩
  · have hvalue := prefixedImm_toNat hi f
    exact ⟨hvalue, hvalue, hvalue⟩
  · have hprefix := (retired_of_exec hu).hasImmPrefix
    cases i
    case imm hi2 => cases hu; exact ⟨rfl, rfl⟩
    all_goals exact Bool.eq_false_iff.mpr (mt hprefix.mp nofun)

/-! ### pc (10_state R21) -/

/-- Settles O41: no other class of instructions moves pc after `PRE`. -/
theorem onlyTransfersMovePc : Obligations.OnlyTransfersMovePc := by
  intro i s t h
  cases ending_of_exec h with
  | arith | logical | shift => left; simp
  | load => left; rw [State.finishResult_readPc]; exact s.pre_readPc
  | store u hu =>
    obtain ⟨_, _, _, _, _, _, _, rfl⟩ := hu
    exact .inl s.pre_readPc
  | imm => exact .inl s.pre_readPc
  | branch _ _ hm =>
    have hsub : branchMnemonics ⊆ branchMnemonics ++ [.jal, .call] := List.subset_append_left ..
    exact .inr (hsub (List.contains_iff_mem.mp hm))
  | link _ _ hm =>
    have hsub : linkMnemonics ⊆ branchMnemonics ++ [.jal, .call] := List.subset_append_right ..
    exact .inr (hsub (List.contains_iff_mem.mp hm))

/-! ### Memory, the MMU and the devices (20_memory R50) -/

/-- An instruction that is no store leaves memory and the MMU as they were, marks no second word, and leaves no MMU
entry unsettled. -/
theorem memory_kept_of_exec {i : Instr} {s t : State} (h : exec i s = .next t) (hstore : i.mnemonic ∉ storeMnemonics) :
    t.mem = s.mem ∧ t.mmu = s.mmu ∧ t.freeCount = s.freeCount ∧ t.staleSecond = false ∧ t.mmuChange = none := by
  cases ending_of_exec h with
  | arith | logical | shift | load => simp
  | store _ _ hm => exact absurd (List.contains_iff_mem.mp hm) hstore
  | branch taken disp =>
    refine ⟨by simp, by simp, by simp, ?_, by simp⟩
    cases taken <;> rfl
  | link rd target =>
    have hkept := kept_linkAndJump s i.mnemonic rd target
    exact ⟨by simp [State.linkAndJump], hkept.mmu, hkept.counter, rfl, by simp [State.linkAndJump]⟩
  | imm => exact ⟨rfl, rfl, rfl, rfl, rfl⟩

theorem ioLog_kept_of_exec {i : Instr} {s t : State} (h : exec i s = .next t)
    (haccess : i.mnemonic ∉ storeMnemonics ++ loadMnemonics) : t.ioLog = s.ioLog := by
  cases ending_of_exec h with
  | arith | logical | shift | branch => simp
  | load _ _ _ hm => exact absurd (List.mem_append_right _ (List.contains_iff_mem.mp hm)) haccess
  | store _ _ hm => exact absurd (List.mem_append_left _ (List.contains_iff_mem.mp hm)) haccess
  | link rd target => exact (kept_linkAndJump s i.mnemonic rd target).devices
  | imm => rfl

/-- Settles O42: an instruction that is neither a load nor a store makes no access. -/
theorem onlyStoresChangeMemory : Obligations.OnlyStoresChangeMemory := by
  intro i s t h
  refine ⟨fun hstore => ?_, ioLog_kept_of_exec h⟩
  obtain ⟨hmem, hmmu, hcount, -, -⟩ := memory_kept_of_exec h hstore
  exact ⟨hmem, hmmu, hcount⟩

end Sys2Proof.Machine
end

section
/-! PROOFS. The step (00_scope R12): what comes before the instruction changes nothing the program can see, and the
check after it enters the handler or does nothing; the invariant, kept by both. -/

namespace Sys2Proof.Machine

/-! ### Before the instruction -/

/-- Every completed step is an instruction, run in the step's own state but for what a request and a fetch can touch,
and the check after it. -/
theorem step_next_exec {s t : State} (h : step s = .next t) :
    ∃ pending requests log count i u,
      exec i { s with interruptPending := pending, intRequests := requests, ioLog := log, freeCount := count } =
        .next u ∧ t = u.interruptCheck := by
  obtain ⟨w, s1, i, u, hfetch, -, hu, ht⟩ := step_next h
  obtain ⟨-, -, log, count, rfl⟩ := fetch_ok hfetch
  obtain ⟨pending, requests, haccept⟩ := acceptRequest_state s
  rw [haccept] at hu
  exact ⟨pending, requests, log, count, i, u, hu, ht⟩

theorem interruptCheck_platform (s : State) : s.interruptCheck.platform = s.platform := by
  obtain ⟨-, -, h⟩ | ⟨-, h⟩ := interruptCheck_cases s
  · rw [h, State.takeInterrupt_platform]
  · rw [h]

/-- Settles O43: neither the instruction nor the check writes the parameters. -/
theorem parametersNeverChange : Obligations.ParametersNeverChange := by
  intro s t h
  obtain ⟨_, _, _, _, i, u, hu, rfl⟩ := step_next_exec h
  exact (interruptCheck_platform u).trans (retired_of_exec hu).platform

/-! ### The check (60_exceptions R301 to R303) -/

/-- Settles O34: a request that the check left held found `canInterrupt` false. -/
theorem heldRequestMeansInterlocked : Obligations.HeldRequestMeansInterlocked := by
  intro s t h hheld
  obtain ⟨_, _, _, _, i, u, hu, rfl⟩ := step_next_exec h
  obtain ⟨-, -, hcheck⟩ | ⟨hnot, hcheck⟩ := interruptCheck_cases u
  · rw [hcheck] at hheld
    exact absurd hheld nofun
  · rw [hcheck] at hheld ⊢
    have hcan : u.canInterrupt = false := hnot.resolve_left (ne_false_of_eq_true hheld)
    have hinputs := checkInputs_of_exec hu
    exact ⟨hcan, i.mnemonic, hinputs.canInterrupt.mp hcan, hinputs.kind⟩

/-- Only an interruptible instruction is followed by an entry, and imm is not one: has_imm_prefix is clear. -/
theorem hasImmPrefix_of_interruptible {i : Instr} {s t : State} (h : exec i s = .next t)
    (hcan : t.canInterrupt = true) : t.hasImmPrefix = false := by
  rw [Bool.eq_false_iff]
  intro himm
  have hlocked : t.canInterrupt = false := (checkInputs_of_exec h).canInterrupt.mpr (by
    rw [(retired_of_exec h).hasImmPrefix.mp himm]; decide)
  exact absurd (hcan.symm.trans hlocked) nofun

/-- Settles O35: the entry is the one event that is no instruction, and it follows an interruptible instruction. -/
theorem handlerEntryState : Obligations.HandlerEntryState := by
  intro s t h hkind
  obtain ⟨_, _, _, _, i, u, hu, rfl⟩ := step_next_exec h
  obtain ⟨-, hcan, hcheck⟩ | ⟨-, hcheck⟩ := interruptCheck_cases u
  · rw [hcheck]
    exact ⟨u.takeInterrupt_readPc, (mem_withLink _ _).mpr (.inl rfl),
      u.takeInterrupt_hasImmPrefix.trans (hasImmPrefix_of_interruptible hu hcan), rfl, rfl, rfl, rfl⟩
  · rw [hcheck, (checkInputs_of_exec hu).kind] at hkind
    exact absurd hkind nofun

/-! ### Stores keep memory's canonical form -/

theorem storeByte_wf {s t : State} {ea : Word} {v : Byte} (h : s.storeByte ea v = .ok t)
    (hwf : Memory.wf s.mem = true) : Memory.wf t.mem = true := by
  obtain ⟨-, rfl⟩ | ⟨-, u, hu, rfl⟩ := storeByte_ok h
  · exact hwf
  · obtain ⟨_, _, _, rfl⟩ | ⟨_, _, rfl⟩ | ⟨_, _, rfl⟩ := writeByteAt_ok hu
    · exact Memory.write_wf _ _ _ hwf
    · exact hwf
    · exact hwf

theorem storeWord_wf {s t : State} {ea v : Word} (h : s.storeWord ea v = .ok t)
    (hwf : Memory.wf s.mem = true) : Memory.wf t.mem = true := by
  obtain ⟨-, rfl⟩ | ⟨-, u, hu, rfl⟩ := storeWord_ok h
  · exact hwf
  · obtain ⟨_, _, _, _, rfl⟩ | ⟨_, _, rfl⟩ | ⟨_, _, rfl⟩ := writeWordAt_ok hu
    · exact Memory.write_wf _ _ _ (Memory.write_wf _ _ _ hwf)
    · exact hwf
    · exact hwf

/-- A completed sw or sb is a completed store from `PRE`, with the bookkeeping after it. -/
theorem exec_sw_next {s t : State} {rd ra : Reg} {imm : BitVec 4} (h : exec (.sw rd ra imm) s = .next t) :
    rd ∉ s.prev.dests ∧ (s.wordAddress ra imm).getLsbD 0 = false ∧
    ∃ u, s.pre.storeWord (s.wordAddress ra imm) (s.readReg rd) = .ok u ∧ t = u.retire .sw none := by
  obtain ⟨hrd, h⟩ := guardStoreData_next.mp h
  obtain ⟨heven, h⟩ := guardAligned_next.mp h
  obtain ⟨u, hu, ⟨⟩⟩ := afterAccess_next.mp h
  exact ⟨hrd, heven, u, hu, rfl⟩

theorem exec_sb_next {s t : State} {rd ra : Reg} {imm : BitVec 4} (h : exec (.sb rd ra imm) s = .next t) :
    rd ∉ s.prev.dests ∧
    ∃ u, s.pre.storeByte (s.byteAddress ra imm) (lowByte (s.readReg rd)) = .ok u ∧ t = u.retire .sb none := by
  obtain ⟨hrd, h⟩ := guardStoreData_next.mp h
  obtain ⟨u, hu, ⟨⟩⟩ := afterAccess_next.mp h
  exact ⟨hrd, u, hu, rfl⟩

theorem mem_wf_of_exec {i : Instr} {s t : State} (h : exec i s = .next t) (hwf : Memory.wf s.mem = true) :
    Memory.wf t.mem = true := by
  by_cases hstore : i.mnemonic ∈ storeMnemonics
  · cases i
    case sw =>
      obtain ⟨-, -, u, hu, rfl⟩ := exec_sw_next h
      exact (storeWord_wf hu hwf : Memory.wf u.mem = true)
    case sb =>
      obtain ⟨-, u, hu, rfl⟩ := exec_sb_next h
      exact (storeByte_wf hu hwf : Memory.wf u.mem = true)
    all_goals exact absurd hstore (by simp [storeMnemonics, Instr.mnemonic])
  · obtain ⟨hmem, -⟩ := memory_kept_of_exec h hstore
    rw [hmem]
    exact hwf

/-! ### The invariant -/

/-- Settles O52: reset has no previous event, so that only memory's form is asked of the image. -/
theorem resetMeetsInvariant : Obligations.ResetMeetsInvariant := by
  have hreset (p : Platform) (image : Memory) (hwf : Memory.wf image = true) : Inv (State.resetWith p image) :=
    { memory := hwf
      pcEven := BitVec.getLsbD_zero
      zeroReg := rfl
      destsNoZero := List.not_mem_nil
      destsNodup := List.nodup_nil
      prefixAfterImm := iff_of_false nofun nofun
      carryAfterProducer := nofun
      producerCarry := nofun
      interlock := iff_of_false nofun fun ⟨_, _, h⟩ => nomatch h
      handlerEntry := nofun
      windowAfterStore := nofun
      changeAfterStore := fun h => absurd rfl h }
  exact ⟨hreset _ _ rfl, hreset⟩

/-- Two mnemonics in `prev.kind` are one. -/
theorem prevKind_instr_inj {k : PrevKind} {m m' : Mnemonic} (h : k = .instr m) (h' : k = .instr m') : m = m' :=
  PrevKind.instr.inj (h.symm.trans h')

/-- An instruction establishes the ties of the invariant whatever they were before it; it relies on memory's form and
on r0's cell alone. -/
theorem inv_of_exec {i : Instr} {s t : State} (h : exec i s = .next t) (hwf : Memory.wf s.mem = true)
    (hzero : s.regs.get 0 = 0#16) : Inv t := by
  have hret := retired_of_exec h
  have hinputs := checkInputs_of_exec h
  have hkind := hinputs.kind
  have hstore (hne : t.staleSecond = true ∨ t.mmuChange ≠ none) :
      t.prev.kind = .instr .sw ∨ t.prev.kind = .instr .sb := by
    have hmem : i.mnemonic ∈ storeMnemonics := by
      by_contra hnot
      obtain ⟨-, -, -, hsecond, hchange⟩ := memory_kept_of_exec h hnot
      exact hne.elim (absurd · (ne_true_of_eq_false hsecond)) (· hchange)
    rw [hkind]
    simpa [storeMnemonics] using hmem
  exact
    { memory := mem_wf_of_exec h hwf
      pcEven := hret.pcEven
      zeroReg := hret.zeroReg.trans hzero
      destsNoZero := by rw [hret.prev]; exact zero_notMem_destSet _
      destsNodup := by rw [hret.prev]; exact destSet_nodup _
      prefixAfterImm := by rw [hret.hasImmPrefix, hkind, PrevKind.instr.injEq]
      carryAfterProducer := fun hvalid =>
        ⟨i.mnemonic, hkind, ((carryValidityOfEveryInstruction i s t h).mp hvalid).imp_right And.left⟩
      producerCarry := fun m hm hkind' =>
        (carryValidityOfEveryInstruction i s t h).mpr (.inl (prevKind_instr_inj hkind hkind' ▸ hm))
      interlock := hinputs.canInterrupt.trans
        ⟨fun hm => ⟨_, hm, hkind⟩, fun ⟨_, hm, hkind'⟩ => prevKind_instr_inj hkind hkind' ▸ hm⟩
      handlerEntry := fun hint => absurd (hkind.symm.trans hint) nofun
      windowAfterStore := fun hsecond => hstore (.inl hsecond)
      changeAfterStore := fun hchange => (hstore (.inr hchange)).imp_right .inl }

/-- The entry of R301 keeps the invariant: it follows an interruptible instruction, so that no immediate is pending
and no lock is held. -/
theorem inv_takeInterrupt {s : State} (h : Inv s) (hcan : s.canInterrupt = true) (hprefix : s.hasImmPrefix = false) :
    Inv s.takeInterrupt where
  memory := by rw [State.takeInterrupt_mem]; exact h.memory
  pcEven := by rw [State.takeInterrupt_pc]; rfl
  zeroReg := (State.writeReg_regs_zero s 14#4 s.readPc).trans h.zeroReg
  destsNoZero := fun hmem => ((mem_withLink _ _).mp hmem).elim nofun h.destsNoZero
  destsNodup := by
    rw [State.takeInterrupt_prev, withLink]
    split
    case isTrue => exact h.destsNodup
    case isFalse hnot => exact List.nodup_cons.mpr ⟨hnot, h.destsNodup⟩
  prefixAfterImm := by
    rw [State.takeInterrupt_hasImmPrefix, hprefix]
    exact iff_of_false nofun nofun
  carryAfterProducer := nofun
  producerCarry := nofun
  interlock := by
    rw [State.takeInterrupt_canInterrupt, hcan]
    exact iff_of_false nofun fun ⟨_, _, hkind⟩ => nomatch hkind
  handlerEntry := fun _ => ⟨(mem_withLink _ _).mpr (.inl rfl), rfl, rfl⟩
  windowAfterStore := nofun
  changeAfterStore := fun _ => .inr (.inr rfl)

/-- Settles O53: the instruction establishes the invariant, and the check after it is the entry or nothing. -/
theorem stepKeepsInvariant : Obligations.StepKeepsInvariant := by
  intro s t hinv hstep
  obtain ⟨_, _, _, _, i, u, hu, rfl⟩ := step_next_exec hstep
  have hinvu : Inv u := inv_of_exec hu hinv.memory hinv.zeroReg
  obtain ⟨-, hcan, hcheck⟩ | ⟨-, hcheck⟩ := interruptCheck_cases u
  · rw [hcheck]
    exact inv_takeInterrupt hinvu hcan (hasImmPrefix_of_interruptible hu hcan)
  · rw [hcheck]
    exact hinvu

end Sys2Proof.Machine
end

section
/-! PROOFS. The three immediate forms (30_encoding R91 to R93) and the big-endian word (20_memory R51 to R53). -/

namespace Sys2Proof.Machine

section
variable {s : State}

theorem immSext_of_imm (h : s.hasImmPrefix = true) (f : BitVec 4) : s.immSext f = prefixedImm s.immPrefix f := if_pos h

theorem immByte_of_imm (h : s.hasImmPrefix = true) (f : BitVec 4) : s.immByte f = prefixedImm s.immPrefix f := if_pos h

theorem immWord_of_imm (h : s.hasImmPrefix = true) (f : BitVec 4) : s.immWord f = prefixedImm s.immPrefix f := if_pos h

theorem immSext_of_noImm (h : s.hasImmPrefix = false) (f : BitVec 4) : s.immSext f = sextImm f :=
  if_neg (ne_true_of_eq_false h)

theorem immByte_of_noImm (h : s.hasImmPrefix = false) (f : BitVec 4) : s.immByte f = byteOffset f :=
  if_neg (ne_true_of_eq_false h)

theorem immWord_of_noImm (h : s.hasImmPrefix = false) (f : BitVec 4) : s.immWord f = wordOffset f :=
  if_neg (ne_true_of_eq_false h)

end

/-- Settles O1: under imm the three forms are one; without it each is its own extension of the field. -/
theorem immediateForms : Obligations.ImmediateForms := by
  intro s imm
  refine ⟨fun h => ?_, fun h => ?_⟩
  · rw [immSext_of_imm h, immByte_of_imm h, immWord_of_imm h]
    exact ⟨prefixedImm_toNat _ _, rfl, rfl⟩
  · rw [immSext_of_noImm h, immByte_of_noImm h, immWord_of_noImm h]
    exact ⟨sextImm_toInt imm, byteOffset_toNat imm, wordOffset_toNat imm⟩

/-! ### Reads of populated memory -/

section
variable {s : State} {pa : PhysAddr}

theorem readByteAt_memory (hp : s.platform.isPopulated pa = true) :
    s.readByteAt (.memory pa) = .ok (s.mem.read pa.toNat, s) := if_pos hp

theorem readWordAt_memory (hp : s.platform.isPopulated pa = true) (hp' : s.platform.isPopulated (pa + 1#26) = true) :
    s.readWordAt (.memory pa) = .ok (wordOfBytes (s.mem.read pa.toNat) (s.mem.read (pa + 1#26).toNat), s) :=
  if_pos (by rw [hp, hp', Bool.and_self])

end

/-- Settles O3: the two bytes lie at different addresses, so that each reads back, and together they are the word. -/
theorem wordStoreIsBigEndian : Obligations.WordStoreIsBigEndian := by
  intro s t pa v hwf hp hp' h
  obtain ⟨_, ⟨⟩, -, -, ht⟩ | ⟨_, ⟨⟩, -⟩ | ⟨_, ⟨⟩, -⟩ := writeWordAt_ok h
  have hmem : t.mem = (s.mem.write pa.toNat (highByte v)).write (pa + 1#26).toNat (lowByte v) := by rw [ht]
  have hplatform : t.platform = s.platform := by rw [ht]
  rw [← hplatform] at hp hp'
  have hread := Memory.read_write_write hwf (physAddr_toNat_ne_succ pa) (highByte v) (lowByte v)
  rw [← hmem] at hread
  obtain ⟨hhigh, hlow, hother⟩ := hread
  refine ⟨?_, ?_, ?_, ?_, hother⟩
  · rw [hmem]
    exact Memory.write_wf _ _ _ (Memory.write_wf _ _ _ hwf)
  · rw [readWordAt_memory hp hp', hhigh, hlow, wordOfBytes_split]
  · rw [readByteAt_memory hp, hhigh]
  · rw [readByteAt_memory hp', hlow]

end Sys2Proof.Machine
end

section
/-! PROOFS. Accesses to the MMU's registers and to a device (60_exceptions R316, R320, R323; 20_memory R63): what a load
answers and what a store leaves; neither place can be on an unwritable page. -/

namespace Sys2Proof.Machine

/-! ### What every store leaves (43_load_store R166) -/

/-- A store leaves the frame of every store, wherever it went. -/
theorem storeFrame_of_storeChanges {s u : State} {m : Mnemonic} (hu : StoreChanges s.pre u)
    (hm : carryProducers.contains m = false) (himm : m ≠ .imm) : StoreFrame s (u.retire m none) m := by
  obtain ⟨_, _, _, _, _, _, _, rfl⟩ := hu
  exact
    { writes := ⟨fun _ => rfl, rfl⟩
      uninvolved :=
        { a := rfl, b := rfl, carryOut := rfl, shiftOut := rfl, canInterrupt := rfl
          carryValid := by rw [State.retire_carryValid, hm, if_neg Bool.false_ne_true, if_neg himm] }
      pc := State.pre_readPc s
      noPrefix := rfl
      prefixBits := rfl
      platform := rfl
      requests := rfl
      pending := rfl }

section
variable {s u : State} {rd ra : Reg} {imm : BitVec 4}

/-- sw at an even address with no hazard on its data is the store from `PRE`, and leaves a store's frame. -/
theorem exec_sw_of_storeWord (hrd : rd ∉ s.prev.dests) (heven : (s.wordAddress ra imm).toNat % 2 = 0)
    (hu : s.pre.storeWord (s.wordAddress ra imm) (s.readReg rd) = .ok u) :
    exec (.sw rd ra imm) s = .next (u.retire .sw none) ∧ StoreFrame s (u.retire .sw none) .sw :=
  ⟨(guardStoreData_of_notMem hrd).trans ((guardAligned_of_even heven).trans (afterAccess_of_ok hu)),
    storeFrame_of_storeChanges (storeWord_changes hu) rfl nofun⟩

theorem exec_sb_of_storeByte (hrd : rd ∉ s.prev.dests)
    (hu : s.pre.storeByte (s.byteAddress ra imm) (lowByte (s.readReg rd)) = .ok u) :
    exec (.sb rd ra imm) s = .next (u.retire .sb none) ∧ StoreFrame s (u.retire .sb none) .sb :=
  ⟨(guardStoreData_of_notMem hrd).trans (afterAccess_of_ok hu),
    storeFrame_of_storeChanges (storeByte_changes hu) rfl nofun⟩

end

/-! ### At one location -/

section
variable {s u : State} {ea : Word} {l : Location}

/-- Outside memory the page's entry is not asked, so that a store does what its location does. -/
theorem storeWord_outside_memory {v : Word} (hl : s.locate ea = l) (hmem : ∀ pa, l ≠ .memory pa)
    (hu : s.writeWordAt l v = .ok u) : s.storeWord ea v = .ok (u.markStored s [ea, ea + 1#16]) := by
  rw [State.storeWord, if_pos (writable_of_inIo (inIo_of_locate hl hmem)), hl, hu]

theorem storeByte_outside_memory {v : Byte} (hl : s.locate ea = l) (hmem : ∀ pa, l ≠ .memory pa)
    (hu : s.writeByteAt l v = .ok u) : s.storeByte ea v = .ok (u.markStored s [ea]) := by
  rw [State.storeByte, if_pos (writable_of_inIo (inIo_of_locate hl hmem)), hl, hu]

theorem loadWord_of_mmuReg {off : BitVec 5} (hl : s.locate ea = .mmuReg off) :
    s.loadWord ea = .ok (s.mmu.get (mmuIndex off).toFin, s) := by
  rw [State.loadWord, hl]; rfl

theorem loadByte_of_mmuReg {off : BitVec 5} (hl : s.locate ea = .mmuReg off) :
    s.loadByte ea = .ok (if off.getLsbD 0 then lowByte (s.mmu.get (mmuIndex off).toFin)
      else highByte (s.mmu.get (mmuIndex off).toFin), s) := by
  rw [State.loadByte, hl]; rfl

theorem loadWord_of_device {va : Word} (hl : s.locate ea = .device va) :
    s.loadWord ea = .ok (Config.deviceRead s.ioLog va .word, { s with ioLog := .read va .word :: s.ioLog }) := by
  rw [State.loadWord, hl]; rfl

theorem loadByte_of_device {va : Word} (hl : s.locate ea = .device va) :
    s.loadByte ea =
      .ok (lowByte (Config.deviceRead s.ioLog va .byte), { s with ioLog := .read va .byte :: s.ioLog }) := by
  rw [State.loadByte, hl]; rfl

end

/-! ### The entries after a store to one (R323) -/

theorem writeMmu_get_self (s : State) (i : BitVec 4) (v : Word) : (s.writeMmu i v).mmu.get i.toFin = v := by
  simp [Vector.get_eq_getElem]

theorem writeMmu_get_other (s : State) (i : BitVec 4) (v : Word) {j : Fin 16} (hj : j ≠ i.toFin) :
    (s.writeMmu i v).mmu.get j = s.mmu.get j := by
  have hne : i.toNat ≠ j.val := fun h => hj (Fin.ext h.symm)
  simp [Vector.get_eq_getElem, hne]

/-- Putting the old entry back gives the entries as they were before the store. -/
theorem writeMmu_set_old (s : State) (i : BitVec 4) (v : Word) :
    (s.writeMmu i v).mmu.set i.toNat (s.mmu.get i.toFin) i.isLt = s.mmu := by
  simp [Vector.get_eq_getElem]

/-- The next fetch goes where the new entries say, or the old ones (log 20). -/
theorem fetchLocation_after_writeMmu {s t : State} {i : BitVec 4} {v : Word} (hmmu : t.mmu = (s.writeMmu i v).mmu)
    (hchange : t.mmuChange = (s.writeMmu i v).mmuChange) :
    t.fetchLocation = t.platform.locate t.mmu t.readPc ∨ t.fetchLocation = t.platform.locate s.mmu t.readPc := by
  obtain h | ⟨j, old, hj, h⟩ := fetchMmu_cases t
  · exact .inl (by rw [State.fetchLocation, h])
  · rw [hchange, State.writeMmu_mmuChange] at hj
    cases hj
    exact .inr (by rw [State.fetchLocation, h, hmmu, writeMmu_set_old])

/-- Settles O21: a word access to the MMU's registers is to one whole entry. -/
theorem mmuEntriesAreMemoryMapped : Obligations.MmuEntriesAreMemoryMapped := by
  intro s rd ra imm off heven hl
  have hpre := (s.pre_locate _).trans hl
  refine ⟨⟨_, (guardAligned_of_even heven).trans (afterAccess_of_ok (loadWord_of_mmuReg hpre)),
    resultEffect_pre_finishResult s rd _ rfl nofun⟩, fun hrd => ?_⟩
  obtain ⟨hexec, hframe⟩ := exec_sw_of_storeWord hrd heven (storeWord_outside_memory hpre nofun rfl)
  exact ⟨_, hexec, hframe, rfl, rfl, rfl, writeMmu_get_self s.pre (mmuIndex off) _,
    fun j hj => writeMmu_get_other s.pre (mmuIndex off) _ hj, rfl, fetchLocation_after_writeMmu (s := s.pre) rfl rfl⟩

/-- The big-endian half of an entry, with the parity of the offset as a number. -/
theorem entryHalf_eq_ofNat (e : Word) (off : BitVec 5) :
    (if off.getLsbD 0 then lowByte e else highByte e).setWidth 16 =
      BitVec.ofNat 16 (if off.toNat % 2 = 0 then e.toNat / 256 else e.toNat % 256) := by
  have hparity : off.getLsbD 0 = decide (off.toNat % 2 = 1) := by rw [BitVec.getLsbD, Nat.testBit_zero]
  rw [zeroExtend_eq_ofNat, hparity]
  obtain h | h := Nat.mod_two_eq_zero_or_one off.toNat
  · simp [h, highByte_toNat]
  · simp [h, lowByte_toNat]

/-- Settles O22: a byte load takes half an entry; a byte store replaces the whole by the free value it draws. -/
theorem mmuByteAccessesComplete : Obligations.MmuByteAccessesComplete := by
  intro s rd ra imm off hl
  have hpre := (s.pre_locate _).trans hl
  refine ⟨⟨_, afterAccess_of_ok (loadByte_of_mmuReg hpre), ?_⟩, fun hrd => ?_⟩
  · have heffect := resultEffect_pre_finishResult s (m := .lb) rd
      (BitVec.setWidth 16 (if off.getLsbD 0 then lowByte (s.mmu.get (mmuIndex off).toFin)
        else highByte (s.mmu.get (mmuIndex off).toFin))) rfl nofun
    rwa [entryHalf_eq_ofNat] at heffect ⊢
  · obtain ⟨hexec, hframe⟩ := exec_sb_of_storeByte hrd (storeByte_outside_memory hpre nofun rfl)
    exact ⟨_, hexec, hframe, rfl, rfl, rfl, fun j hj => writeMmu_get_other s.pre (mmuIndex off) _ hj, rfl,
      fetchLocation_after_writeMmu (s := s.pre) rfl rfl⟩

/-- Settles O23: each access puts one entry at the head of the device's log; a load then ends as one from memory does,
from the state with that log. -/
theorem deviceAccessesComplete : Obligations.DeviceAccessesComplete := by
  intro s rd ra imm va
  refine ⟨fun hl heven => ⟨?_, fun hrd => ?_⟩, fun hl => ⟨?_, fun hrd => ?_⟩⟩ <;> have hpre := (s.pre_locate _).trans hl
  · exact ⟨_, (guardAligned_of_even heven).trans (afterAccess_of_ok (loadWord_of_device hpre)),
      resultEffect_pre_finishResult { s with ioLog := .read va .word :: s.ioLog } rd _ rfl nofun⟩
  · obtain ⟨hexec, hframe⟩ := exec_sw_of_storeWord hrd heven (storeWord_outside_memory hpre nofun rfl)
    exact ⟨_, hexec, hframe, rfl, rfl, rfl, rfl, rfl⟩
  · rw [← lowByte_toNat, ← zeroExtend_eq_ofNat]
    exact ⟨_, afterAccess_of_ok (loadByte_of_device hpre),
      resultEffect_pre_finishResult { s with ioLog := .read va .byte :: s.ioLog } rd _ rfl nofun⟩
  · obtain ⟨hexec, hframe⟩ := exec_sb_of_storeByte hrd (storeByte_outside_memory hpre nofun rfl)
    rw [← lowByte_toNat, ← zeroExtend_eq_ofNat]
    exact ⟨_, hexec, hframe, rfl, rfl, rfl, rfl, rfl⟩

end Sys2Proof.Machine
end

section
/-! PROOFS. The two ends of a step: the request and the fetch before the instruction (00_scope R12, 60_exceptions R300,
30_encoding R100), and the stops of the result hazard (70_reset R350). -/

namespace Sys2Proof.Machine

/-- Settles O37: the two cases of the request input. -/
theorem requestSetsPending : Obligations.RequestSetsPending := by
  intro s
  refine ⟨fun r rest h => ?_, fun h => ?_⟩
  · rw [State.acceptRequest, h]
  · rw [State.acceptRequest, h]

/-- Settles O38: `PRE` keeps the result set, and the ten ask their guard before anything else. -/
theorem resultHazardStops : Obligations.ResultHazardStops := by
  intro s x y r imm hr
  refine ⟨fun i hi => ?_, fun i hi => ?_⟩
  · simp only [List.mem_cons, List.not_mem_nil, or_false] at hi
    obtain rfl | rfl | rfl | rfl | rfl | rfl | rfl | rfl := hi
    all_goals exact guardRb_of_mem (s := s.pre) hr
  · simp only [List.mem_cons, List.not_mem_nil, or_false] at hi
    obtain rfl | rfl := hi
    all_goals exact guardStoreData_of_mem (s := s.pre) hr

/-! ### Fetch and decode -/

theorem step_of_decode_error {s s1 : State} {w : Word} {e : DecodeError} (hfetch : s.acceptRequest.fetch = .ok (w, s1))
    (hdecode : decodeWord w = .error e) : step s = .fault .reservedEncoding := by
  simp only [step, hfetch, hdecode]

theorem step_of_decode {s s1 : State} {w : Word} {i : Instr} (hfetch : s.acceptRequest.fetch = .ok (w, s1))
    (hdecode : decodeWord w = .ok i) : step s = afterNext (exec i s1) State.interruptCheck := by
  simp only [step, hfetch, hdecode]

/-- Settles O46: a word that does not decode is asked nothing more. -/
theorem reservedWordStops : Obligations.ReservedWordStops := by
  intro s s1 w e hfetch hdecode
  exact step_of_decode_error hfetch hdecode

/-- The outcome of the instruction is the step's, but for the check after a completed one. -/
theorem step_outcomes {s s1 : State} {w : Word} {i : Instr} (hfetch : s.acceptRequest.fetch = .ok (w, s1))
    (hdecode : decodeWord w = .ok i) :
    (∀ t, exec i s1 = .next t → step s = .next t.interruptCheck) ∧
    (∀ f, exec i s1 = .fault f → step s = .fault f) ∧
    (∀ r, exec i s1 = .refused r → step s = .refused r) := by
  rw [step_of_decode hfetch hdecode]
  refine ⟨fun t h => ?_, fun f h => ?_, fun r h => ?_⟩
  all_goals rw [h]; rfl

/-- Drawing the fetch's free choice changes nothing that a read of memory looks at. -/
theorem drawForFetch_state (s : State) : ∃ n, s.drawForFetch = { s with freeCount := n } := by
  unfold State.drawForFetch
  split
  · exact ⟨_, rfl⟩
  · exact ⟨s.freeCount, rfl⟩

theorem drawForFetch_of_settled {s : State} (h : s.mmuChange = none) : s.drawForFetch = s := by
  rw [State.drawForFetch, h]

theorem fetch_memory {s : State} {pa : PhysAddr} (hfresh : s.staleNext = false) (hl : s.fetchLocation = .memory pa)
    (hp : s.platform.isPopulated pa = true) (hp' : s.platform.isPopulated (pa + 1#26) = true) :
    s.fetch = .ok (wordOfBytes (s.mem.read pa.toNat) (s.mem.read (pa + 1#26).toNat), s.drawForFetch) := by
  obtain ⟨n, hdraw⟩ := drawForFetch_state s
  rw [State.fetch, hfresh, hl, hdraw]
  exact readWordAt_memory hp hp'

/-- Settles O45: accepting a request changes nothing the fetch reads, so that the word fetched is the one at the place
that `s` fetches from. -/
theorem stepRunsTheDecodedInstruction : Obligations.StepRunsTheDecodedInstruction := by
  refine ⟨fun s pa i hfresh hl hp hp' hdecode => ?_, fun s hsettled => ?_, fun s s1 w i => step_outcomes⟩
  · obtain ⟨hword, -⟩ := decode_cons_cons_eq_ok.mp hdecode
    obtain ⟨hlocation, hstale⟩ := acceptRequest_fetchInputs s
    obtain ⟨_, _, haccept⟩ := acceptRequest_state s
    have hmem : s.acceptRequest.mem = s.mem := by rw [haccept]
    have hplatform : s.acceptRequest.platform = s.platform := by rw [haccept]
    rw [← hplatform] at hp hp'
    have hfetch := fetch_memory (hstale.trans hfresh) (hlocation.trans hl) hp hp'
    rw [hmem] at hfetch
    exact step_outcomes hfetch hword
  · obtain ⟨_, _, haccept⟩ := acceptRequest_state s
    refine ⟨?_, drawForFetch_of_settled (by rw [haccept]; exact hsettled)⟩
    simp only [State.fetchLocation, State.fetchMmu, hsettled, State.locate]

end Sys2Proof.Machine
end

section
/-! PROOFS. The code window after a store (20_memory R66): which of the two words after it a store hits, as a fact of
addresses; what marks them, what stops at a mark, and what clears the marks. -/

namespace Sys2Proof.Machine

/-! ### Which word a store hits -/

theorem readPc_toNat_even (s : State) : s.readPc.toNat % 2 = 0 := by
  rw [State.readPc, evenWord_toNat]
  omega

/-- Two addresses in the same instruction word: the higher of its two bytes follows the even one. -/
theorem toNat_half_eq_iff {x w : Word} (hw : w.toNat % 2 = 0) : x.toNat / 2 = w.toNat / 2 ↔ x = w ∨ x = w + 1#16 := by
  bv_omega

theorem storeHits_iff (s : State) (stored : List Word) (w : Word) :
    s.storeHits stored w = true ↔ ∃ x ∈ stored, s.locate x = s.locate w ∨ s.locate x = s.locate (w + 1#16) := by
  simp [State.storeHits]

/-- The store goes at least to the word whose addresses it names. -/
theorem storeHits_of_mem {s : State} {stored : List Word} {x w : Word} (hx : x ∈ stored) (h : x = w ∨ x = w + 1#16) :
    s.storeHits stored w = true :=
  (storeHits_iff s stored w).mpr ⟨x, hx, h.imp (congrArg s.locate) (congrArg s.locate)⟩

/-- Without the MMU an address names its place. -/
theorem storeHits_iff_of_noMmu {s : State} (hmmu : s.platform.mmuPresent = false) (stored : List Word) (w : Word) :
    s.storeHits stored w = true ↔ ∃ x ∈ stored, x = w ∨ x = w + 1#16 := by
  simp only [storeHits_iff, locate_inj hmmu]

/-- Without the MMU a byte store hits the word its byte lies in. -/
theorem storeHits_byte_iff {s : State} (hmmu : s.platform.mmuPresent = false) {ea w : Word} (hw : w.toNat % 2 = 0) :
    s.storeHits [ea] w = true ↔ ea.toNat / 2 = w.toNat / 2 := by
  rw [storeHits_iff_of_noMmu hmmu, toNat_half_eq_iff hw]
  simp

/-- Without the MMU a word store hits the word at its own address and no other. -/
theorem storeHits_word_iff {s : State} (hmmu : s.platform.mmuPresent = false) {ea w : Word} (hea : ea.toNat % 2 = 0)
    (hw : w.toNat % 2 = 0) : s.storeHits [ea, ea + 1#16] w = true ↔ ea = w := by
  rw [storeHits_iff_of_noMmu hmmu]
  simp only [List.mem_cons, List.not_mem_nil, or_false, exists_eq_or_imp, exists_eq_left]
  bv_omega

/-! ### What a store that takes effect marks -/

/-- The window after a store to `stored`, from the state before the instruction; `PRE` has moved it on by one word. -/
structure MarksWindow (s t : State) (stored : List Word) : Prop where
  next : t.staleNext = (s.staleSecond || s.pre.storeHits stored (s.readPc + 2#16))
  second : t.staleSecond = s.pre.storeHits stored (s.readPc + 4#16)

/-- A write at a location, whichever, leaves the window to `markStored`. -/
theorem marksWindow_of_write {s u : State} {m : Mnemonic} {stored : List Word}
    (hu : u.staleNext = s.pre.staleNext ∧ u.staleSecond = s.pre.staleSecond) :
    MarksWindow s ((u.markStored s.pre stored).retire m none) stored := by
  obtain ⟨hnext, hsecond⟩ := hu
  have hfour : s.readPc + 2#16 + 2#16 = s.readPc + 4#16 := by rw [BitVec.add_assoc]; rfl
  constructor
  · rw [State.retire_staleNext, State.markStored_staleNext, hnext, State.pre_staleNext, State.pre_readPc]
  · rw [State.retire_staleSecond, State.markStored_staleSecond, hsecond, State.pre_staleSecond, State.pre_readPc,
      hfour, Bool.false_or]

theorem marksWindow_of_sw {s t : State} {rd ra : Reg} {imm : BitVec 4} (h : exec (.sw rd ra imm) s = .next t)
    (hw : s.writable (s.wordAddress ra imm) = true) :
    MarksWindow s t [s.wordAddress ra imm, s.wordAddress ra imm + 1#16] := by
  obtain ⟨-, -, v, hv, rfl⟩ := exec_sw_next h
  obtain ⟨hnot, -⟩ | ⟨-, u, hu, rfl⟩ := storeWord_ok hv
  · exact absurd ((s.pre_writable _).symm.trans hnot) (ne_false_of_eq_true hw)
  · obtain ⟨_, _, _, _, _, rfl⟩ := writeWordAt_state hu
    exact marksWindow_of_write ⟨rfl, rfl⟩

theorem marksWindow_of_sb {s t : State} {rd ra : Reg} {imm : BitVec 4} (h : exec (.sb rd ra imm) s = .next t)
    (hw : s.writable (s.byteAddress ra imm) = true) : MarksWindow s t [s.byteAddress ra imm] := by
  obtain ⟨-, v, hv, rfl⟩ := exec_sb_next h
  obtain ⟨hnot, -⟩ | ⟨-, u, hu, rfl⟩ := storeByte_ok hv
  · exact absurd ((s.pre_writable _).symm.trans hnot) (ne_false_of_eq_true hw)
  · obtain ⟨_, _, _, _, _, rfl⟩ := writeByteAt_state hu
    exact marksWindow_of_write ⟨rfl, rfl⟩

section
variable {s t : State} {stored : List Word}

theorem staleNext_iff (h : MarksWindow s t stored) {hit : Prop}
    (hhit : s.pre.storeHits stored (s.readPc + 2#16) = true ↔ hit) :
    t.staleNext = true ↔ s.staleSecond = true ∨ hit := by
  rw [h.next, Bool.or_eq_true, hhit]

theorem staleSecond_iff (h : MarksWindow s t stored) {hit : Prop}
    (hhit : s.pre.storeHits stored (s.readPc + 4#16) = true ↔ hit) : t.staleSecond = true ↔ hit := by
  rw [h.second, hhit]

/-- With or without the MMU, the words whose addresses the store names are marked. -/
theorem staleNext_of_mem (h : MarksWindow s t stored) {x : Word} (hx : x ∈ stored)
    (heq : x = s.readPc + 2#16 ∨ x = s.readPc + 2#16 + 1#16) : t.staleNext = true :=
  (staleNext_iff h Iff.rfl).mpr (.inr (storeHits_of_mem hx heq))

theorem staleSecond_of_mem (h : MarksWindow s t stored) {x : Word} (hx : x ∈ stored)
    (heq : x = s.readPc + 4#16 ∨ x = s.readPc + 4#16 + 1#16) : t.staleSecond = true :=
  (staleSecond_iff h Iff.rfl).mpr (storeHits_of_mem hx heq)

end

/-! ### What stops at a mark, and what clears the marks -/

theorem step_of_staleNext {s : State} (h : s.staleNext = true) : step s = .fault .staleFetch := by
  obtain ⟨-, hstale⟩ := acceptRequest_fetchInputs s
  exact step_of_fetch_error (if_pos (hstale.trans h))

theorem window_empty_of_jump {i : Instr} {s t : State} (hm : i.mnemonic ∈ [.jal, .call, .br])
    (h : exec i s = .next t) : t.staleNext = false ∧ t.staleSecond = false := by
  cases i
  case jal | call | br => cases h; exact ⟨rfl, rfl⟩
  all_goals exact absurd hm (by simp [Instr.mnemonic])

/-- Settles O44: the marks are the store's hits on the two words after it, which without the MMU are facts of addresses
and with it follow at least from them. -/
theorem codeWindowOfStores : Obligations.CodeWindowOfStores := by
  have heven (s : State) (k : Word) (hk : k.toNat % 2 = 0) : (s.readPc + k).toNat % 2 = 0 := by
    have := readPc_toNat_even s
    bv_omega
  refine ⟨fun s t rd ra imm hmmu => ⟨fun h => ?_, fun h => ?_⟩,
    fun s t rd ra imm => ⟨fun h hw => ?_, fun h hw => ?_⟩, fun s => step_of_staleNext,
    fun s t i => window_empty_of_jump, fun s hpending hcan => ?_⟩
  · obtain ⟨-, hea, -⟩ := exec_sw_next h
    have hea : (s.wordAddress ra imm).toNat % 2 = 0 := by
      rw [getLsbD_zero_eq_decide_odd] at hea
      simpa using hea
    have hmarks := marksWindow_of_sw h (writable_of_noMmu hmmu)
    exact ⟨staleNext_iff hmarks (storeHits_word_iff hmmu hea (heven s 2#16 rfl)),
      staleSecond_iff hmarks (storeHits_word_iff hmmu hea (heven s 4#16 rfl))⟩
  · have hmarks := marksWindow_of_sb h (writable_of_noMmu hmmu)
    exact ⟨staleNext_iff hmarks (storeHits_byte_iff hmmu (heven s 2#16 rfl)),
      staleSecond_iff hmarks (storeHits_byte_iff hmmu (heven s 4#16 rfl))⟩
  · have hmarks := marksWindow_of_sw h hw
    exact ⟨fun heq => staleNext_of_mem hmarks List.mem_cons_self (.inl heq),
      fun heq => staleSecond_of_mem hmarks List.mem_cons_self (.inl heq)⟩
  · have hmarks := marksWindow_of_sb h hw
    exact ⟨fun heq => staleNext_of_mem hmarks List.mem_cons_self ((toNat_half_eq_iff (heven s 2#16 rfl)).mp heq),
      fun heq => staleSecond_of_mem hmarks List.mem_cons_self ((toNat_half_eq_iff (heven s 4#16 rfl)).mp heq)⟩
  · rw [interruptCheck_of_pending hpending hcan]
    exact ⟨rfl, rfl⟩

end Sys2Proof.Machine
end

section
/-! PROOFS. Runs of several instructions, put together from the completion of each; and the branches after a compare
(44_branch R180, R198): what the first instruction leaves for the branch, and each condition on it. -/

namespace Sys2Proof.Machine

/-! ### Runs -/

section
variable {s : State} {P Q : State → Prop}

theorem completes_cons {i : Instr} {is : List Instr} (hi : Completes (exec i s) P)
    (his : ∀ t, P t → Completes (runInstrs is t) Q) : Completes (runInstrs (i :: is) s) Q := by
  obtain ⟨t, ht, hP⟩ := hi
  obtain ⟨u, hu, hQ⟩ := his t hP
  exact ⟨u, by rw [runInstrs, ht]; exact hu, hQ⟩

theorem completes_singleton {i : Instr} (hi : Completes (exec i s) P) : Completes (runInstrs [i] s) P :=
  completes_cons hi fun t ht => ⟨t, rfl, ht⟩

theorem completes_append {is js : List Instr} (his : Completes (runInstrs is s) P)
    (hjs : ∀ t, P t → Completes (runInstrs js t) Q) : Completes (runInstrs (is ++ js) s) Q := by
  induction is generalizing s with
  | nil =>
    obtain ⟨t, ⟨⟩, hP⟩ := his
    exact hjs s hP
  | cons i is ih =>
    obtain ⟨u, hu, hP⟩ := his
    rw [runInstrs] at hu
    cases hi : exec i s with
    | next t =>
      rw [hi] at hu
      exact completes_cons (P := (· = t)) ⟨t, hi, rfl⟩ fun _ h => ih (h ▸ ⟨u, hu, hP⟩)
    | fault => rw [hi] at hu; cases hu
    | refused => rw [hi] at hu; cases hu

theorem Completes.mono {r : Result} (h : Completes r P) (hPQ : ∀ t, P t → Q t) : Completes r Q :=
  have ⟨t, ht, hP⟩ := h
  ⟨t, ht, hPQ t hP⟩

end

/-! ### A conditional branch after a compare -/

/-- `first` completes and leaves the operands `a` and `b` for a branch. -/
def Compared (s : State) (first : Instr) (a b : Word) : Prop :=
  Completes (exec first s) fun t =>
    t.prev.kind.isBranchPrefix = true ∧ t.readPc = s.readPc + 2#16 ∧ t.a = a ∧ t.b = b

theorem compared_of_finishArith {s : State} {first : Instr} {m : Mnemonic} {rd : Reg} {p q v : Word} {c : Bool}
    (hm : branchPrefixes.contains m = true) (h : exec first s = .next (s.pre.finishArith m rd p q c v)) :
    Compared s first p q := by
  refine ⟨_, h, ?_, ?_, State.finishArith_a .., State.finishArith_b ..⟩
  · rw [State.finishArith_prev]; exact hm
  · rw [State.finishArith_readPc, State.pre_readPc]

theorem exec_condInstr (cond : Cond) (disp : BitVec 8) (s : State) :
    exec (cond.instr disp) s = s.condBranch (cond.instr disp).mnemonic cond disp := by
  cases cond <;> rfl

theorem condInstr_mnemonic_mem (cond : Cond) (disp : BitVec 8) : (cond.instr disp).mnemonic ∈ branchMnemonics := by
  cases cond <;> simp [Cond.instr, Instr.mnemonic, branchMnemonics]

theorem not_carryProducer_and_ne_imm_of_branch :
    ∀ m ∈ branchMnemonics, carryProducers.contains m = false ∧ m ≠ .imm := by decide

section
variable {s : State} {first : Instr} {a b : Word} {disp : BitVec 8}

/-- The branch on any condition goes by that condition of the operands left for it. -/
theorem branchesWhen_of_compared (h : Compared s first a b) (cond : Cond) {taken : Prop}
    (hcond : cond.holds a b = true ↔ taken) : BranchesWhen [first] (cond.instr disp) taken disp s := by
  obtain ⟨hm, himm⟩ := not_carryProducer_and_ne_imm_of_branch _ (condInstr_mnemonic_mem cond disp)
  refine completes_cons h fun t ⟨hprev, hpc, ha, hb⟩ => completes_singleton ?_
  obtain ⟨-, hbranch⟩ := condBranch_cases (exec_condInstr cond disp t) hm himm (ha ▸ hb ▸ hcond)
  refine (hbranch hprev).mono fun u hu => ⟨fun htaken => ?_, fun hnot => ?_⟩
  · rw [(hu.whenTaken htaken).pc, hpc, BitVec.add_assoc s.readPc]
    rfl
  · rw [(hu.whenNot hnot).pc, hpc, BitVec.add_assoc s.readPc]
    rfl

/-- The ten relational branches compare `a` with `-b`. -/
theorem branchesWhen_relations (h : Compared s first a b) :
    ∀ p ∈ relations a (-b) disp, BranchesWhen [first] p.1 p.2 disp s := by
  intro p hp
  simp only [relations, List.mem_cons, List.not_mem_nil, or_false] at hp
  obtain rfl | rfl | rfl | rfl | rfl | rfl | rfl | rfl | rfl | rfl := hp
  · exact branchesWhen_of_compared h .eq decide_eq_true_iff
  · exact branchesWhen_of_compared h .ne decide_eq_true_iff
  · exact branchesWhen_of_compared h .lt decide_eq_true_iff
  · exact branchesWhen_of_compared h .ge decide_eq_true_iff
  · exact branchesWhen_of_compared h .le decide_eq_true_iff
  · exact branchesWhen_of_compared h .gt decide_eq_true_iff
  · exact branchesWhen_of_compared h .ltu decide_eq_true_iff
  · exact branchesWhen_of_compared h .geu decide_eq_true_iff
  · exact branchesWhen_of_compared h .leu decide_eq_true_iff
  · exact branchesWhen_of_compared h .gtu decide_eq_true_iff

theorem branchesWhen_sumCarries (h : Compared s first a b) :
    ∀ p ∈ sumCarries a b disp, BranchesWhen [first] p.1 p.2 disp s := by
  intro p hp
  simp only [sumCarries, List.mem_cons, List.not_mem_nil, or_false] at hp
  obtain rfl | rfl := hp
  · exact branchesWhen_of_compared h .c (Cond.holds_c_iff a b)
  · exact branchesWhen_of_compared h .nc (Cond.holds_nc_iff a b)

theorem branchesWhen_sumOverflows (h : Compared s first a b) :
    ∀ p ∈ sumOverflows a b disp, BranchesWhen [first] p.1 p.2 disp s := by
  intro p hp
  simp only [sumOverflows, List.mem_cons, List.not_mem_nil, or_false] at hp
  obtain rfl | rfl := hp
  · exact branchesWhen_of_compared h .v (overflowSum_iff a b)
  · exact branchesWhen_of_compared h .nv (Cond.holds_nv_iff a b)

end

/-! ### The edges after sub (R198) -/

/-- The sum with the negated operand carries unless the operand is 0 or the difference borrows. -/
theorem carry_neg_iff (p q : Word) : 65536 ≤ p.toNat + (-q).toNat ↔ q ≠ 0#16 ∧ q.toNat ≤ p.toNat := by
  bv_omega

/-- 0x8000 is its own negation, so that the sum with it overflows for a negative operand. -/
theorem overflowSum_neg_min_iff (p : Word) : overflowSum p (-0x8000#16) = true ↔ p.toInt < 0 := by
  have hmin : (-0x8000#16 : Word).toInt = -32768 := by decide
  have hlt := BitVec.toInt_lt (x := p)
  rw [overflowSum_iff, hmin]
  omega

/-- Settles O27: sub leaves its operand negated, so that comparing with the negation of what it left is comparing with
the operand. -/
theorem compareThenBranch : Obligations.CompareThenBranch := by
  intro s rd ra rb imm disp
  refine ⟨fun hrb => ?_, fun p hp => ?_⟩
  · have hsub : Compared s (.sub rd ra rb) (s.readReg ra) (-s.readReg rb) :=
      compared_of_finishArith rfl (guardRb_of_notMem (s := s.pre) hrb)
    have hadd : Compared s (.add rd ra rb) (s.readReg ra) (s.readReg rb) :=
      compared_of_finishArith rfl (guardRb_of_notMem (s := s.pre) hrb)
    have hcarry := (Cond.holds_c_iff _ _).trans (carry_neg_iff (s.readReg ra) (s.readReg rb))
    refine ⟨?_, fun p hp => ?_, branchesWhen_sumOverflows hsub, fun hmin => ?_, fun p hp => ?_⟩
    · have hrel := branchesWhen_relations (disp := disp) hsub
      rwa [BitVec.neg_neg] at hrel
    · simp only [List.mem_cons, List.not_mem_nil, or_false] at hp
      obtain rfl | rfl := hp
      · exact branchesWhen_of_compared hsub .c hcarry
      · refine branchesWhen_of_compared hsub .nc ?_
        rw [← hcarry, Bool.not_eq_true]
        exact iff_of_eq (Bool.not_eq_true' _)
    · rw [hmin] at hsub
      exact branchesWhen_of_compared hsub .v (overflowSum_neg_min_iff _)
    · exact (List.mem_append.mp hp).elim (branchesWhen_sumCarries hadd p) (branchesWhen_sumOverflows hadd p)
  · have haddi : Compared s (.addi rd ra imm) (s.readReg ra) (s.immSext imm) := compared_of_finishArith rfl rfl
    rw [List.mem_append, List.mem_append] at hp
    obtain (hp | hp) | hp := hp
    · exact branchesWhen_relations haddi p hp
    · exact branchesWhen_sumCarries haddi p hp
    · exact branchesWhen_sumOverflows haddi p hp

end Sys2Proof.Machine
end

section
/-! PROOFS. Long words (47_assembler section 5): the chain of a low half and a high half that reads its carry (R260,
R268), and the pairs of shifts that pass a bit (R270). -/

namespace Sys2Proof.Machine

/-! ### Register pairs (R259) -/

/-- What the statements on long sums and differences ask of their three pairs: no half is overwritten before it is
read, and no half read as rb is the result just before. -/
structure LongOperands (rd ra rb rd' ra' rb' : Reg) : Prop where
  partnerD : partner rd = some rd'
  partnerA : partner ra = some ra'
  partnerB : partner rb = some rb'
  dest : rd ≠ 0#4
  highNotA : rd' ≠ ra
  highNotB : rd' ≠ rb
  lowNotHighB : rb' ≠ rd
  inPlace : rd ≠ rb ∨ rd = ra

theorem partner_cases {x x' : Reg} (h : partner x = some x') :
    x = 0#4 ∧ x' = 0#4 ∨ x ≠ 0#4 ∧ x.toNat ≤ 11 ∧ x' = x + 1#4 := by
  unfold partner at h
  split at h
  case isTrue h0 => cases h; exact .inl ⟨h0, rfl⟩
  case isFalse h0 =>
    split at h
    case isTrue hle => cases h; exact .inr ⟨h0, hle, rfl⟩
    case isFalse => cases h

/-- The partner of a register other than r0 is another one, and not r0. -/
theorem partner_ne {x x' : Reg} (h : partner x = some x') (hx : x ≠ 0#4) : x' ≠ 0#4 ∧ x' ≠ x := by
  obtain ⟨rfl, -⟩ | ⟨-, hle, rfl⟩ := partner_cases h
  · exact absurd rfl hx
  · constructor <;> bv_omega

/-- A partner other than r0 has one register that it is the partner of. -/
theorem partner_inj {x y x' : Reg} (hx : partner x = some x') (hy : partner y = some x') (h0 : x' ≠ 0#4) : x = y := by
  obtain ⟨-, h⟩ | ⟨-, -, hx'⟩ := partner_cases hx
  · exact absurd h h0
  · obtain ⟨-, h⟩ | ⟨-, -, hy'⟩ := partner_cases hy
    · exact absurd h h0
    · bv_omega

/-! ### The two halves of a chain -/

theorem WritesReg.value_of_ne {s t : State} {m : Mnemonic} {rd : Reg} {v : Word} (h : WritesReg s t m rd v)
    (hrd : rd ≠ 0#4) : t.readReg rd = v := by
  rw [h.value, if_neg hrd]

theorem WritesReg.notMem_dests {s t : State} {m : Mnemonic} {rd r : Reg} {v : Word} (h : WritesReg s t m rd v)
    (hr : r ≠ rd) : r ∉ t.prev.dests := by
  rw [h.prev]
  intro hmem
  split at hmem
  · exact absurd hmem List.not_mem_nil
  · exact hr (List.mem_singleton.mp hmem)

/-- `lo` computes `f` of its operands and records the carry `c` of them, where no hazard stops it. -/
def LowHalf (lo : Reg → Reg → Reg → Instr) (f : Word → Word → Word) (c : Word → Word → Bool) : Prop :=
  ∀ (s : State) (rd ra rb : Reg), rb ∉ s.prev.dests → Completes (exec (lo rd ra rb) s) fun t =>
    (∃ m, WritesReg s t m rd (f (s.readReg ra) (s.readReg rb))) ∧ t.carryValid = true ∧
    t.carryOut = c (s.readReg ra) (s.readReg rb)

/-- `hi` computes `g` of its operands and the recorded carry, where nothing stops it. -/
def HighHalf (hi : Reg → Reg → Instr) (g : Word → Word → Bool → Word) : Prop :=
  ∀ (s : State) (rd rb : Reg), rb ∉ s.prev.dests → s.carryValid = true → Completes (exec (hi rd rb) s) fun t =>
    ∃ m, WritesReg s t m rd (g (s.readReg rd) (s.readReg rb) s.carryOut)

theorem lowHalf_add : LowHalf .add (· + ·) (carrySum · · false) := fun s _ _ _ hrb =>
  ⟨_, guardRb_of_notMem (s := s.pre) hrb, ⟨_, writesReg_pre_finishArith ..⟩, State.finishArith_carryValid ..,
    State.finishArith_carryOut ..⟩

theorem lowHalf_sub : LowHalf .sub (· - ·) (borrow · · false) := fun s _ _ _ hrb =>
  ⟨_, guardRb_of_notMem (s := s.pre) hrb, ⟨_, writesReg_pre_finishArith ..⟩, State.finishArith_carryValid ..,
    State.finishArith_carryOut ..⟩

theorem highHalf_adc : HighHalf .adc (fun p q c => p + q + bitWord c) := fun s _ _ hrb hvalid =>
  ⟨_, (guardRb_of_notMem (s := s.pre) hrb).trans (guardCarry_of_valid hvalid), _, writesReg_pre_finishArith ..⟩

theorem highHalf_sbc : HighHalf .sbc (fun p q c => p - q - bitWord c) := fun s _ _ hrb hvalid =>
  ⟨_, (guardRb_of_notMem (s := s.pre) hrb).trans (guardCarry_of_valid hvalid), _, writesReg_pre_finishArith ..⟩

/-! ### The chain -/

section
variable {lo : Reg → Reg → Reg → Instr} {hi : Reg → Reg → Instr} {f : Word → Word → Word} {c : Word → Word → Bool}
  {g : Word → Word → Bool → Word} {s : State} {rd ra rb rd' ra' rb' : Reg}

/-- Low half, high half: the high half's own operands are as before, and it reads the carry of the low half. -/
theorem halves_complete (hlo : LowHalf lo f c) (hhi : HighHalf hi g) (ops : LongOperands rd ra rb rd' ra' rb')
    (hrb : rb ∉ s.prev.dests) :
    Completes (runInstrs [lo rd ra rb, hi rd' rb'] s) fun t =>
      t.readReg rd = f (s.readReg ra) (s.readReg rb) ∧
      t.readReg rd' = g (s.readReg rd') (s.readReg rb') (c (s.readReg ra) (s.readReg rb)) := by
  obtain ⟨hrd'0, hrd'⟩ := partner_ne ops.partnerD ops.dest
  refine completes_cons (hlo s rd ra rb hrb) fun t ⟨⟨_, hlow⟩, hvalid, hcarry⟩ => completes_singleton ?_
  refine (hhi t rd' rb' (hlow.notMem_dests ops.lowNotHighB) hvalid).mono fun u ⟨_, hhigh⟩ => ⟨?_, ?_⟩
  · rw [hhigh.others rd hrd'.symm, hlow.value_of_ne ops.dest]
  · rw [hhigh.value_of_ne hrd'0, hlow.others rd' hrd', hlow.others rb' ops.lowNotHighB, hcarry]

/-- The copy of ra's high half, which the assembler puts first unless the sum is in place (R260). -/
theorem copy_completes (s : State) (h0 : 0#4 ∉ s.prev.dests) :
    Completes (exec (movInstr rd' ra') s) fun t => ∃ m, WritesReg s t m rd' (s.readReg ra') := by
  refine (lowHalf_add s rd' ra' 0#4 h0).mono fun t ⟨⟨m, hwrites⟩, _⟩ => ⟨m, ?_⟩
  beta_reduce at hwrites
  rwa [State.readReg_zero, BitVec.add_zero] at hwrites

/-- With the copy before it the chain reads ra's high half from rd'; in place it has it there already. -/
theorem longChain_completes {is : List Instr} (hlo : LowHalf lo f c) (hhi : HighHalf hi g)
    (ops : LongOperands rd ra rb rd' ra' rb') (h0 : 0#4 ∉ s.prev.dests) (hrb : rb ∉ s.prev.dests)
    (his : longChain lo hi rd ra rb = some is) :
    Completes (runInstrs is s) fun t =>
      t.readReg rd = f (s.readReg ra) (s.readReg rb) ∧
      t.readReg rd' = g (s.readReg ra') (s.readReg rb') (c (s.readReg ra) (s.readReg rb)) := by
  obtain ⟨hrd'0, hrd'⟩ := partner_ne ops.partnerD ops.dest
  simp only [longChain, ops.partnerD, ops.partnerA, ops.partnerB, Option.some.injEq] at his
  subst his
  by_cases hra : rd = ra
  · obtain rfl : rd' = ra' := Option.some.inj (ops.partnerD.symm.trans (hra ▸ ops.partnerA))
    rw [if_pos hra]
    exact halves_complete hlo hhi ops hrb
  · have hcopied : rd' ≠ ra' := fun h => hra (partner_inj ops.partnerD (h ▸ ops.partnerA) hrd'0)
    have hhigh : rb' ≠ rd' := fun h =>
      ops.inPlace.elim (· (partner_inj ops.partnerD (h ▸ ops.partnerB) hrd'0)) hra
    rw [if_neg hra, movOpt, if_neg hcopied]
    refine completes_cons (copy_completes s h0) fun t ⟨_, hcopy⟩ => ?_
    refine (halves_complete hlo hhi ops (hcopy.notMem_dests ops.highNotB.symm)).mono fun u => ?_
    rw [hcopy.others ra ops.highNotA.symm, hcopy.others rb ops.highNotB.symm, hcopy.others rb' hhigh,
      hcopy.value_of_ne hrd'0]
    exact id

end

/-! ### The halves as one number -/

theorem bitNat_carrySum (x y : Word) :
    bitNat (carrySum x y false) = if 65536 ≤ x.toNat + y.toNat then 1 else 0 := by
  simp [bitNat, carrySum]

theorem bitNat_borrow (x y : Word) : bitNat (borrow x y false) = if x.toNat < y.toNat then 1 else 0 := by
  simp [bitNat, borrow]

theorem longSum_toNat (x x' y y' : Word) :
    (x + y).toNat + 65536 * (x' + y' + bitWord (carrySum x y false)).toNat =
      (x.toNat + 65536 * x'.toNat + (y.toNat + 65536 * y'.toNat)) % 4294967296 := by
  have := x.isLt
  have := y.isLt
  rw [BitVec.toNat_add, BitVec.toNat_add, BitVec.toNat_add, bitWord_toNat, bitNat_carrySum]
  split <;> omega

theorem longDifference_toNat (x x' y y' : Word) :
    (x - y).toNat + 65536 * (x' - y' - bitWord (borrow x y false)).toNat =
      (x.toNat + 65536 * x'.toNat + 4294967296 - (y.toNat + 65536 * y'.toNat)) % 4294967296 := by
  have := x.isLt
  have := y.isLt
  have := y'.isLt
  rw [BitVec.toNat_sub, BitVec.toNat_sub, BitVec.toNat_sub, bitWord_toNat, bitNat_borrow]
  split <;> omega

/-- Settles O54: r0 is no result, by the invariant, so that the copy meets no hazard. -/
theorem addlComputesLongSum : Obligations.AddlComputesLongSum := by
  intro s rd ra rb rd' ra' rb' is hinv hd ha hb hrd0 hda hdb hbd hplace hrb his
  have ops : LongOperands rd ra rb rd' ra' rb' := ⟨hd, ha, hb, hrd0, hda, hdb, hbd, hplace⟩
  refine (longChain_completes lowHalf_add highHalf_adc ops hinv.destsNoZero hrb his).mono fun t ⟨hlow, hhigh⟩ => ?_
  rw [hlow, hhigh]
  exact longSum_toNat _ _ _ _

/-- Settles O55: as O54, with the borrow. -/
theorem sublComputesLongDifference : Obligations.SublComputesLongDifference := by
  intro s rd ra rb rd' ra' rb' is hinv hd ha hb hrd0 hda hdb hbd hplace hrb his
  have ops : LongOperands rd ra rb rd' ra' rb' := ⟨hd, ha, hb, hrd0, hda, hdb, hbd, hplace⟩
  refine (longChain_completes lowHalf_sub highHalf_sbc ops hinv.destsNoZero hrb his).mono fun t ⟨hlow, hhigh⟩ => ?_
  rw [hlow, hhigh]
  exact longDifference_toNat _ _ _ _

/-! ### Shift pairs (R154, R157, R270) -/

/-- A count of 1 with no immediate pending is the count R152 asks for. -/
theorem immSext_one {s : State} (h : s.hasImmPrefix = false) : s.immSext 1#4 = 1#16 := by
  rw [immSext_of_noImm h]
  rfl

/-- `j` is an extended shift of `r` by one bit, to `f` of r and of the bit shifted out before. -/
def ExtendsShift (j : Instr) (r : Reg) (f : Word → Bool → Word) : Prop :=
  ∀ t : State, t.hasImmPrefix = false → t.prev.kind.isShift = true →
    Completes (exec j t) fun u => ∃ m out, ShiftEffect t u m r (f (t.readReg r) t.shiftOut) out

theorem extendsShift_slxi (r : Reg) :
    ExtendsShift (.slxi r 1#4) r fun v out => BitVec.ofNat 16 (2 * v.toNat + if out then 1 else 0) := by
  intro t himm hprev
  obtain ⟨-, -, -, h⟩ := extendedShifts t r 1#4 _ List.mem_cons_self
  exact (h (immSext_one himm) hprev).mono fun u hu => ⟨_, _, hu⟩

theorem extendsShift_srxi (r : Reg) :
    ExtendsShift (.srxi r 1#4) r fun v out => BitVec.ofNat 16 ((if out then 32768 else 0) + v.toNat / 2) := by
  intro t himm hprev
  obtain ⟨-, -, -, h⟩ := extendedShifts t r 1#4 _ (List.mem_cons_of_mem _ List.mem_cons_self)
  exact (h (immSext_one himm) hprev).mono fun u hu => ⟨_, _, hu⟩

/-- A shift of one register and an extended shift of another: the bit passes between them and nothing else does. -/
theorem shiftPair_completes {s : State} {i j : Instr} {m : Mnemonic} {r1 r2 : Reg} {v : Word} {out : Bool}
    {f : Word → Bool → Word} (hm : shiftMnemonics.contains m = true) (h1 : r1 ≠ 0#4) (h2 : r2 ≠ 0#4) (hne : r1 ≠ r2)
    (hi : Completes (exec i s) fun t => ShiftEffect s t m r1 v out) (hj : ExtendsShift j r2 f) :
    Completes (runInstrs [i, j] s) fun u => u.readReg r1 = v ∧ u.readReg r2 = f (s.readReg r2) out := by
  refine completes_cons hi fun t ht => completes_singleton ?_
  have hprev : t.prev.kind.isShift = true := by rw [ht.writes.prev]; exact hm
  refine (hj t ht.sequential.noPrefix hprev).mono fun u ⟨_, _, hu⟩ => ⟨?_, ?_⟩
  · rw [hu.writes.others r1 hne, ht.writes.value_of_ne h1]
  · rw [hu.writes.value_of_ne h2, ht.writes.others r2 hne.symm, ht.shiftOut]

theorem getLsbD_fifteen_eq_decide (v : Word) : v.getLsbD 15 = decide (32768 ≤ v.toNat) :=
  BitVec.msb_eq_decide v

/-! The two halves as one number, shifted by one bit. -/

theorem doubled_toNat (lo hi : Word) :
    (BitVec.ofNat 16 (2 * lo.toNat)).toNat +
        65536 * (BitVec.ofNat 16 (2 * hi.toNat + if lo.getLsbD 15 then 1 else 0)).toNat =
      2 * (lo.toNat + 65536 * hi.toNat) % 4294967296 := by
  have := lo.isLt
  simp only [getLsbD_fifteen_eq_decide, decide_eq_true_eq, BitVec.toNat_ofNat]
  split <;> omega

theorem halved_toNat (lo hi : Word) :
    (BitVec.ofNat 16 ((if hi.getLsbD 0 then 32768 else 0) + lo.toNat / 2)).toNat +
        65536 * (BitVec.ofNat 16 (hi.toNat / 2)).toNat =
      (lo.toNat + 65536 * hi.toNat) / 2 := by
  have := lo.isLt
  have := hi.isLt
  simp only [getLsbD_zero_eq_decide_odd, decide_eq_true_eq, BitVec.toNat_ofNat]
  split <;> omega

theorem halved_toInt (lo hi : Word) :
    ((BitVec.ofNat 16 ((if hi.getLsbD 0 then 32768 else 0) + lo.toNat / 2)).toNat : Int) +
        65536 * (BitVec.ofInt 16 (hi.toInt / 2)).toInt =
      ((lo.toNat : Int) + 65536 * hi.toInt) / 2 := by
  have := lo.isLt
  have hlt := BitVec.toInt_lt (x := hi)
  have hle := BitVec.le_toInt hi
  have hparity : (hi.toNat : Int) % 2 = hi.toInt % 2 := by rw [BitVec.toInt_eq_toNat_cond]; split <;> omega
  have hhalf : (BitVec.ofInt 16 (hi.toInt / 2)).toInt = hi.toInt / 2 :=
    BitVec.toInt_ofInt_eq_self (by decide) (by omega) (by omega)
  rw [hhalf]
  simp only [getLsbD_zero_eq_decide_odd, decide_eq_true_eq, BitVec.toNat_ofNat]
  split <;> omega

/-- Settles O56: the high half goes second to the left and first to the right. -/
theorem shiftPairsShiftLongs : Obligations.ShiftPairsShiftLongs := by
  intro s lo hi hlo hhi hne himm
  have hcount := immSext_one himm
  obtain ⟨-, -, hslli⟩ := plainShifts s lo 1#4 _ List.mem_cons_self
  obtain ⟨-, -, hsrli⟩ := plainShifts s hi 1#4 _ (List.mem_cons_of_mem _ List.mem_cons_self)
  obtain ⟨-, -, hsrai⟩ := plainShifts s hi 1#4 _ (List.mem_cons_of_mem _ (List.mem_cons_of_mem _ List.mem_cons_self))
  refine ⟨?_, ?_, ?_⟩
  · refine (shiftPair_completes rfl hlo hhi hne (hslli hcount) (extendsShift_slxi hi)).mono fun t ⟨h1, h2⟩ => ?_
    rw [h1, h2]
    exact doubled_toNat _ _
  · refine (shiftPair_completes rfl hhi hlo hne.symm (hsrli hcount) (extendsShift_srxi lo)).mono fun t ⟨h1, h2⟩ => ?_
    rw [h1, h2]
    exact halved_toNat _ _
  · refine (shiftPair_completes rfl hhi hlo hne.symm (hsrai hcount) (extendsShift_srxi lo)).mono fun t ⟨h1, h2⟩ => ?_
    rw [h1, h2]
    exact halved_toInt _ _

end Sys2Proof.Machine
end

section
/-! PROOFS. Immediate insertion (47_assembler section 2, R231, R237): each of the three forms, with the imm before it or
without, shows the instruction the 16-bit value written; and lbs (R244), which uses two of them. -/

namespace Sys2Proof.Machine

/-! ### The value an instruction sees -/

/-- `u` is a state in which an instruction finds the registers, memory and devices of `s`. -/
structure SameView (s u : State) : Prop where
  registers : ∀ r, u.readReg r = s.readReg r
  kept : Kept s u

theorem SameView.refl (s : State) : SameView s s := ⟨fun _ => rfl, by constructor <;> intros <;> rfl⟩

theorem Kept.locate {s u : State} (h : Kept s u) (va : Word) : u.locate va = s.locate va := by
  rw [State.locate, State.locate, h.platform, h.mmu]

theorem prefixedImm_split (v : Word) : prefixedImm (highTwelve v) (lowNibble v) = v := by
  have := v.isLt
  apply BitVec.eq_of_toNat_eq
  rw [prefixedImm_toNat, highTwelve, lowNibble, BitVec.extractLsb'_toNat, BitVec.extractLsb'_toNat,
    Nat.shiftRight_eq_div_pow, Nat.shiftRight_zero]
  omega

/-- What one form makes of a value completes with `P`, whatever state of the same view it is run in, if the instruction
does with every field that reads as the value. -/
theorem completes_withImm {read : State → BitVec 4 → Word} {fits : Bool} {field : BitVec 4} {v : Word}
    {mk : BitVec 4 → Instr} {s : State} {P : State → Prop} (hplain : fits = true → read s field = v)
    (himm : ∀ u : State, u.hasImmPrefix = true → ∀ f, read u f = prefixedImm u.immPrefix f)
    (hmk : ∀ u f, read u f = v → SameView s u → Completes (exec (mk f) u) P) :
    Completes (runInstrs (if fits then [mk field] else prefixedPair v mk) s) P := by
  cases fits with
  | true => exact completes_singleton (hmk s field (hplain rfl) (.refl s))
  | false =>
    refine completes_cons ⟨_, exec_imm s (highTwelve v), rfl⟩ fun u hu => completes_singleton ?_
    subst hu
    refine hmk _ (lowNibble v) ((himm _ rfl _).trans (prefixedImm_split v)) ⟨?_, kept_pre_recordPrefix s _⟩
    exact (writesNoReg_pre_recordPrefix s _).registers

/-! ### The three forms without imm read back the value they were made from -/

theorem sextImm_of_fits {v : Word} (h : fitsSext v = true) : sextImm (lowNibble v) = v := by
  rw [fitsSext, Bool.and_eq_true, decide_eq_true_eq, decide_eq_true_eq] at h
  obtain ⟨hle, hge⟩ := h
  apply BitVec.eq_of_toInt_eq
  rw [sextImm_toInt, BitVec.toInt_eq_toNat_bmod, lowNibble, BitVec.extractLsb'_toNat, Nat.shiftRight_zero]
  rw [BitVec.toInt_eq_toNat_cond] at *
  rw [Int.bmod_def]
  split at * <;> split <;> omega

theorem byteOffset_of_fits {v : Word} (h : fitsByte v = true) : byteOffset (lowNibble v) = v := by
  rw [fitsByte, decide_eq_true_eq] at h
  apply BitVec.eq_of_toNat_eq
  rw [byteOffset_toNat, lowNibble, BitVec.extractLsb'_toNat, Nat.shiftRight_zero]
  omega

theorem wordOffset_of_fits {v : Word} (h : fitsWord v = true) : wordOffset (wordField v) = v := by
  have hsmall : ∀ k ≤ 30, k % 2 = 0 → wordOffset (wordField (BitVec.ofNat 16 k)) = BitVec.ofNat 16 k := by decide
  rw [fitsWord, Bool.and_eq_true, decide_eq_true_eq, decide_eq_true_eq] at h
  obtain ⟨hle, heven⟩ := h
  rw [word_eq_ofNat v]
  exact hsmall v.toNat hle heven

section
variable {s : State} {v : Word} {mk : BitVec 4 → Instr} {P : State → Prop}

theorem completes_withSext (himm : s.hasImmPrefix = false)
    (hmk : ∀ u f, u.immSext f = v → SameView s u → Completes (exec (mk f) u) P) :
    Completes (runInstrs (withSext v mk) s) P :=
  completes_withImm (fun hfits => (immSext_of_noImm himm _).trans (sextImm_of_fits hfits))
    (fun _ h => immSext_of_imm h) hmk

theorem completes_withByte (himm : s.hasImmPrefix = false)
    (hmk : ∀ u f, u.immByte f = v → SameView s u → Completes (exec (mk f) u) P) :
    Completes (runInstrs (withByte v mk) s) P :=
  completes_withImm (fun hfits => (immByte_of_noImm himm _).trans (byteOffset_of_fits hfits))
    (fun _ h => immByte_of_imm h) hmk

theorem completes_withWord (himm : s.hasImmPrefix = false)
    (hmk : ∀ u f, u.immWord f = v → SameView s u → Completes (exec (mk f) u) P) :
    Completes (runInstrs (withWord v mk) s) P :=
  completes_withImm (fun hfits => (immWord_of_noImm himm _).trans (wordOffset_of_fits hfits))
    (fun _ h => immWord_of_imm h) hmk

end

/-! ### The instructions on the value -/

section
variable {s : State} {v : Word} (himm : s.hasImmPrefix = false) (rd ra : Reg)
include himm

theorem addi_completes : Completes (runInstrs (withSext v (.addi rd ra)) s) fun t =>
    t.readReg rd = if rd = 0#4 then 0#16 else s.readReg ra + v := by
  refine completes_withSext himm fun u f hf hview =>
    ⟨_, rfl, (writesReg_pre_finishArith u ..).value.trans ?_⟩
  rw [State.pre_readReg, hview.registers, hf]

theorem jal_completes : Completes (runInstrs (withWord v (.jal rd ra)) s) fun t =>
    t.readPc = evenWord (s.readReg ra + v) := by
  refine completes_withWord himm fun u f hf hview =>
    ⟨_, exec_jal u rd ra f, (transferred_linkAndJump u rd (evenWord_jalTarget u ra f)).pc.trans ?_⟩
  rw [State.jalTarget, State.effectiveAddress, hf, hview.registers]

theorem lb_completes {pa : PhysAddr} (hl : s.locate (s.readReg ra + v) = .memory pa)
    (hp : s.platform.isPopulated pa = true) : Completes (runInstrs (withByte v (.lb rd ra)) s) fun t =>
      t.readReg rd = (if rd = 0#4 then 0#16 else (s.mem.read pa.toNat).setWidth 16) ∧ t.hasImmPrefix = false := by
  refine completes_withByte himm fun u f hf hview => ?_
  obtain ⟨-, hload⟩ := loadByteFromMemory u rd ra f _ rfl
  rw [hf, hview.registers] at hload
  obtain ⟨-, hcompletes⟩ := hload pa ((hview.kept.locate _).trans hl)
  refine (hcompletes (by rw [hview.kept.platform]; exact hp)).mono fun t ht => ⟨?_, ht.sequential.noPrefix⟩
  rw [ht.writes.value, hview.kept.memory, ← zeroExtend_eq_ofNat]

theorem xori_completes (hrd : rd ≠ 0#4) : Completes (runInstrs (withSext v (.xori rd)) s) fun t =>
    t.readReg rd = s.readReg rd ^^^ v ∧ t.hasImmPrefix = false := by
  refine completes_withSext himm fun u f hf hview => ⟨_, rfl, ?_⟩
  have heffect := resultEffect_pre_finishResult u (m := .xori) rd (u.readReg rd ^^^ u.immSext f) rfl nofun
  refine ⟨(heffect.writes.value_of_ne hrd).trans ?_, heffect.sequential.noPrefix⟩
  rw [hf, hview.registers]

end

/-- Settles O58: each of the three sees the value, whichever way it was emitted. -/
theorem insertedPrefixGivesTheValue : Obligations.InsertedPrefixGivesTheValue := by
  intro s rd ra v himm
  exact ⟨addi_completes himm rd ra, jal_completes himm rd ra,
    fun pa hl hp => (lb_completes himm rd ra hl hp).mono fun _ => And.left⟩

/-! ### lbs -/

/-- Flipping the sign bit of a zero-extended byte and subtracting it again is the sign extension. -/
theorem flip_sub_toInt (b : Byte) : ((b.setWidth 16 ^^^ 0x0080#16) + -0x0080#16).toInt = b.toInt := by
  have hall : ∀ b : Byte, ((b.setWidth 16 ^^^ 0x0080#16) + -0x0080#16).toInt = b.toInt := by decide
  exact hall b

/-- Settles O57: the load, then the two immediate instructions of the sign extension on its register. -/
theorem lbsLoadsSigned : Obligations.LbsLoadsSigned := by
  intro s rd ra v pa is hrd himm hl hp his
  obtain rfl := Option.some.inj his
  refine completes_append (lb_completes himm rd ra hl hp) fun t ⟨ht, htimm⟩ => ?_
  refine completes_append (xori_completes htimm rd hrd) fun u ⟨hu, huimm⟩ => ?_
  refine (addi_completes huimm rd rd).mono fun w hw => ?_
  rw [hw, if_neg hrd, hu, ht, if_neg hrd]
  exact flip_sub_toInt _

end Sys2Proof.Machine
end

section
/-! PROOFS. Hazard removal (47_assembler section 2, R232, R233, R235): its three cases, and the facts that an induction
over the list draws from them. -/

namespace Sys2Proof.Machine

/-! ### What hazard removal does with the first instruction -/

section
variable {dests : List Reg} {i j : Instr} {is : List Instr}

theorem removeHazards_cons_keep (h : Instr.hazardAfter dests i = false) :
    removeHazards dests (i :: is) = i :: removeHazards (destSet (Instr.dest i)) is := by
  simp [removeHazards, h]

theorem removeHazards_cons_reorder (h : Instr.hazardAfter dests i = true) (hj : Instr.reorder dests i = some j) :
    removeHazards dests (i :: is) = j :: removeHazards (destSet (Instr.dest j)) is := by
  simp [removeHazards, h, hj]

theorem removeHazards_cons_nop (h : Instr.hazardAfter dests i = true) (hj : Instr.reorder dests i = none) :
    removeHazards dests (i :: is) = nopInstr :: i :: removeHazards (destSet (Instr.dest i)) is := by
  simp [removeHazards, h, hj]

/-- Only add is reordered, to itself with its operands swapped, and what was ra is then no hazard. -/
theorem reorder_eq_some (h : Instr.reorder dests i = some j) :
    Instr.hazardAfter dests j = false ∧ ∃ rd ra rb, i = .add rd ra rb ∧ j = .add rd rb ra := by
  cases i
  case add rd ra rb =>
    simp only [Instr.reorder] at h
    split at h
    case isTrue => cases h
    case isFalse hra =>
      cases h
      exact ⟨decide_eq_false hra, rd, ra, rb, rfl, rfl⟩
  all_goals cases h

/-- The inserted nop reads r0, which is in no result set. -/
theorem hazardAfter_nop (h0 : 0#4 ∉ dests) : Instr.hazardAfter dests nopInstr = false := decide_eq_false h0

/-- The nop leaves no result, so that nothing is a hazard after it. -/
theorem hazardAfter_nil (i : Instr) : Instr.hazardAfter [] i = false := by
  unfold Instr.hazardAfter
  split
  · exact decide_eq_false List.not_mem_nil
  · rfl

end

/-! ### The induction -/

/-- The list that hazard removal gives has no hazard, from its first instruction on. -/
theorem hazardFree_removeHazards (is : List Instr) (dests : List Reg) (h0 : 0#4 ∉ dests) :
    hazardFree dests (removeHazards dests is) = true := by
  induction is generalizing dests with
  | nil => rfl
  | cons i is ih =>
    have htail (j : Instr) : hazardFree (destSet (Instr.dest j)) (removeHazards (destSet (Instr.dest j)) is) = true :=
      ih _ (zero_notMem_destSet _)
    cases h : Instr.hazardAfter dests i with
    | false => simp [removeHazards_cons_keep h, hazardFree, h, htail]
    | true =>
      cases hj : Instr.reorder dests i with
      | some j =>
        obtain ⟨hfree, -⟩ := reorder_eq_some hj
        simp [removeHazards_cons_reorder h hj, hazardFree, hfree, htail]
      | none =>
        have hnop : destSet (Instr.dest nopInstr) = [] := rfl
        simp [removeHazards_cons_nop h hj, hazardFree, hazardAfter_nop h0, hnop, hazardAfter_nil, htail]

theorem repaired_removeHazards (is : List Instr) (dests : List Reg) : Repaired is (removeHazards dests is) := by
  induction is generalizing dests with
  | nil => exact .nil
  | cons i is ih =>
    cases h : Instr.hazardAfter dests i with
    | false =>
      rw [removeHazards_cons_keep h]
      exact .keep i (ih _)
    | true =>
      cases hj : Instr.reorder dests i with
      | some j =>
        rw [removeHazards_cons_reorder h hj]
        obtain ⟨-, rd, ra, rb, rfl, rfl⟩ := reorder_eq_some hj
        exact .swap rd ra rb (ih _)
      | none =>
        rw [removeHazards_cons_nop h hj]
        exact .nop (.keep i (ih _))

theorem removeHazards_of_hazardFree (is : List Instr) (dests : List Reg) (h : hazardFree dests is = true) :
    removeHazards dests is = is := by
  induction is generalizing dests with
  | nil => rfl
  | cons i is ih =>
    rw [hazardFree, Bool.and_eq_true, Bool.not_eq_true'] at h
    obtain ⟨hi, his⟩ := h
    rw [removeHazards_cons_keep hi, ih _ his]

/-! ### What a list without hazards is -/

theorem hazardAfter_head {dests : List Reg} {i : Instr} {is : List Instr} (h : hazardFree dests (i :: is) = true) :
    Instr.hazardAfter dests i = false := by
  rw [hazardFree, Bool.and_eq_true, Bool.not_eq_true'] at h
  obtain ⟨hi, -⟩ := h
  exact hi

/-- No instruction of it has a hazard on the one before. -/
theorem hazardAfter_next {dests : List Reg} {pre post : List Instr} {i j : Instr}
    (h : hazardFree dests (pre ++ i :: j :: post) = true) :
    Instr.hazardAfter (destSet (Instr.dest i)) j = false := by
  induction pre generalizing dests with
  | nil =>
    rw [List.nil_append, hazardFree, Bool.and_eq_true] at h
    obtain ⟨-, h⟩ := h
    exact hazardAfter_head h
  | cons k pre ih =>
    rw [List.cons_append, hazardFree, Bool.and_eq_true] at h
    obtain ⟨-, h⟩ := h
    exact ih h

/-- Settles O59: the result is a list without hazards, and a repair of the input. -/
theorem hazardRemovalLeavesNone : Obligations.HazardRemovalLeavesNone := by
  intro dests is h0
  have hfree := hazardFree_removeHazards is dests h0
  refine ⟨fun i rest h => ?_, fun pre i j post h => ?_, repaired_removeHazards is dests,
    removeHazards_of_hazardFree is dests⟩
  · exact hazardAfter_head (h ▸ hfree)
  · exact hazardAfter_next (h ▸ hfree)

end Sys2Proof.Machine
end
